-- ==== Sys2Proof/Word.lean ====
section
/-! DEFINITION. The word types of the block (00_scope.md R10: all values are unsigned). -/

namespace Sys2Proof

/-- `u8`: a colour channel, the divider field, one byte of a stimulus. -/
abbrev Byte := BitVec 8

/-- `u24`: the pixel word on the wire and one accumulator of the chain (R24, R31, R72). -/
abbrev PixelWord := BitVec 24

/-- `u32`: the value of a register write (R52). -/
abbrev RegValue := BitVec 32

end Sys2Proof
end

