-- ==== Sys2Proof/Config.lean ====
section
/-! DEFINITION. The constants of 00_scope.md R7 and the parameters that R9 and R45 fix for a whole run. -/

namespace Sys2Proof

namespace Config

/-- `NMAX`: the largest chain length (R7). -/
@[simp] abbrev nMax : Nat := 16

/-- `WORD_BITS`: bits per pixel on the wire and per accumulator (R7). -/
@[simp] abbrev wordBits : Nat := 24

/-- `CELL_SP`: sub-periods in one bit cell (R7). -/
@[simp] abbrev cellSp : Nat := 3

/-- `T0H_SP`: sub-periods high of a 0-bit (R7). -/
@[simp] abbrev t0hSp : Nat := 1

/-- `T1H_SP`: sub-periods high of a 1-bit (R7). -/
@[simp] abbrev t1hSp : Nat := 2

/-- `ENC_GAP_SP`: sub-periods the encoder keeps the wire low after the final pixel (R7). -/
@[simp] abbrev encGapSp : Nat := 120

/-- `DEC_LATCH_SP`: the monitor latches when the low time exceeds this many sub-periods (R7). -/
@[simp] abbrev decLatchSp : Nat := 120

/-- `DEC_MISSED_SP`: rise-to-rise gap in sub-periods above which a pending load is missed (R7). -/
@[simp] abbrev decMissedSp : Nat := 5

/-- The denominator of `TOL`, which is exactly 1/10 (R7, R12). -/
@[simp] abbrev tolDen : Nat := 10

end Config

/-- `UNCLASSIFIABLE_POLICY` (R9, decision D4). -/
inductive Policy where
  | drop
  | nearest
deriving DecidableEq, Repr

/-- The parameters of a run (R9, R45): data of the model, fixed for the run and written by nothing.
Entry `k` of `pixRegOffsets` is `PIX_REG_OFFSET(k)`, and its length is `PIX_REG_COUNT` (R51). `attached` says whether
the monitor is attached to the encoder's wire (R66, R146) or fed by reports alone. `resetsMonitor` says whether SYS.RESET reaches the
monitor, DEC with its CHAIN, as R185 has it, or leaves it alone, R186's monitor "not reset with the encoder"; how reset is signalled is not
in the spec (DESIGN CHOICE, log 24). -/
structure Params where
  policy : Policy
  pixRegOffsets : List Nat
  attached : Bool
  resetsMonitor : Bool
deriving DecidableEq, Repr

namespace Params

/-- `PIX_REG_COUNT`. -/
def pixRegCount (p : Params) : Nat := p.pixRegOffsets.length

/-- `PIX_REG_OFFSET(k)`, where there is a pixel register for position `k` (R51). -/
def pixRegOffset (p : Params) (k : Nat) : Option Nat := p.pixRegOffsets[k]?

/-- The position whose register stands at `offset` (R51: the map is one-to-one). -/
def pixRegIndex (p : Params) (offset : Nat) : Option Nat := p.pixRegOffsets.idxOf? offset

/-- What R51 and decision D36 ask of the pixel registers: 1 to 15 of them, at offsets that differ and are not 0. -/
def wf (p : Params) : Bool :=
  decide (1 ≤ p.pixRegOffsets.length) && decide (p.pixRegOffsets.length ≤ 15) && decide p.pixRegOffsets.Nodup
    && p.pixRegOffsets.all fun o => decide (o ≠ 0)

/-- DESIGN CHOICE (log 10), unsafe: the parameters of `State.reset`. The default policy of R9, the pixel registers that
R51 and D5 suggest for tests (`1 + k`, eight of them), the monitor attached to the wire (R157), and a reset of all four agents (R185). -/
def suggested : Params :=
  { policy := .drop, pixRegOffsets := [1, 2, 3, 4, 5, 6, 7, 8], attached := true, resetsMonitor := true }

end Params

end Sys2Proof
end

