-- ==== Sys2Proof/Syntax.lean ====
section
/-! DEFINITION. The operations of the block as syntax: one constructor per row of spec/opcode_table.json. -/

namespace Sys2Proof

/-- A pixel value: three 8-bit channels (30_encoding.md R72, R86). -/
structure Pixel where
  green : Byte
  red : Byte
  blue : Byte
deriving DecidableEq, Repr

/-- PixelStreamItem (R77): the fields carried with `valid`. -/
structure Item where
  red : Byte
  green : Byte
  blue : Byte
  pos : BitVec 4
  first : Bool
  last : Bool
deriving DecidableEq, Repr

/-- The item a cleared holding register holds (10_state.md R44: `pix_hold` fields 0). -/
def Item.zero : Item := { red := 0, green := 0, blue := 0, pos := 0, first := false, last := false }

/-- One operation (30_encoding.md R83) or one datum crossing an interface in a format of R70 (log 1). -/
inductive Instr where
  /-- CELL.BIT0: the cell of a 0-bit on the monitor's wire, its high part starting at `t0` (R71, R85 `BIT0`). -/
  | cellBit0 (t0 : Nat)
  /-- CELL.BIT1: the cell of a 1-bit on the monitor's wire, its high part starting at `t0` (R71, R85 `BIT1`). -/
  | cellBit1 (t0 : Nat)
  /-- WORD.PIXEL: the 24 cells of one pixel word on the monitor's wire, the first starting at `t0` (R72, R73). -/
  | wordPixel (px : Pixel) (t0 : Nat)
  /-- FRAME.GAP: the wire low for `120 * S + extra` ticks from the end `t0` of the last cell (R74). -/
  | frameGap (t0 extra : Nat)
  /-- REG.CONFIG: a write of the configuration register at offset 0 (R75). -/
  | regConfig (v : RegValue)
  /-- REG.PIXEL: a write of the register at `PIX_REG_OFFSET(k)` (R76). -/
  | regPixel (k : Nat) (v : RegValue)
  /-- ITEM.STREAM: the producer presents an item, no earlier than tick `notBefore`, or (`valid = 0`) none (R77, R84 `PIX`). -/
  | itemStream (valid : Bool) (it : Item) (notBefore : Nat)
  /-- REPORT: one input event of the decoder (R78), processed as 42_decoder.md R130 says. -/
  | report (ts : Nat) (level : Bool)
  /-- ENC.IDLE_HOLD (R106). -/
  | encIdleHold
  /-- ENC.ACCEPT_FIRST (R105) of the item presented. -/
  | encAcceptFirst (it : Item)
  /-- ENC.REJECT (R112) of the item presented. -/
  | encReject (it : Item)
  /-- ENC.HIGH_TICK (R107). -/
  | encHighTick
  /-- ENC.HIGH_END (R108). -/
  | encHighEnd
  /-- ENC.LOW_TICK (R110). -/
  | encLowTick
  /-- ENC.NEXT_BIT (R109). -/
  | encNextBit
  /-- ENC.ACCEPT_NEXT (R111) of the item presented. -/
  | encAcceptNext (it : Item)
  /-- ENC.UNDERRUN (R113). -/
  | encUnderrun
  /-- ENC.WAIT_HOLD (R114). -/
  | encWaitHold
  /-- ENC.GAP_START (R115). -/
  | encGapStart
  /-- ENC.GAP_TICK (R116). -/
  | encGapTick
  /-- ENC.GAP_END (R118). -/
  | encGapEnd
  /-- ENC.FAULT_HOLD (R117). -/
  | encFaultHold
  /-- CHAIN.SHIFT invoked directly (R121). -/
  | chainShift (bitIn : Bool)
  /-- CHAIN.LOAD invoked directly (R123). -/
  | chainLoad
  /-- DEC.IGNORE of a report (R132). -/
  | decIgnore (ts : Nat) (level : Bool)
  /-- DEC.TIMEOUT, sub-step 1 of a report (R133). -/
  | decTimeout (ts : Nat) (level : Bool)
  /-- DEC.RISE, sub-step 2 of a report (R134). -/
  | decRise (ts : Nat) (level : Bool)
  /-- DEC.FALL0, sub-step 2 of a report (R138). -/
  | decFall0 (ts : Nat) (level : Bool)
  /-- DEC.FALL1, sub-step 2 of a report (R139). -/
  | decFall1 (ts : Nat) (level : Bool)
  /-- DEC.FALLX, sub-step 2 of a report (R140, R141). -/
  | decFallX (ts : Nat) (level : Bool)
  /-- DEC.HOLD, sub-step 2 of a report (R142). -/
  | decHold (ts : Nat) (level : Bool)
  /-- MON.CONFIG (R145). -/
  | monConfig (divider : Byte) (lastLed : BitVec 4)
  /-- REGF.WR_CFG (R151). -/
  | regfWrCfg (v : RegValue)
  /-- REGF.WR_PIX for position `k` (R152). -/
  | regfWrPix (k : Nat) (v : RegValue)
  /-- REGF.XFER (R153). -/
  | regfXfer
  /-- REGF.WR_NONE (R154): a write at an offset that is no register of the block. -/
  | regfWrNone (offset : Nat) (v : RegValue)
  /-- SYS.RESET (R185). -/
  | sysReset
deriving DecidableEq, Repr

end Sys2Proof
end

