-- ==== Sys2Proof/WellFormed.lean ====
section
/-! DEFINITION. Which operations are well formed under the parameters of a run. -/

namespace Sys2Proof

/-- A position that has a pixel register (R51). -/
def hasPixReg (p : Params) (k : Nat) : Bool := decide (k < p.pixRegCount)

/-- An offset that is neither 0 nor a pixel register's (R53, R154). -/
def unmapped (p : Params) (offset : Nat) : Bool := decide (offset ≠ 0) && (p.pixRegIndex offset).isNone

/-- The checks on the operands of each operation: a pixel register that exists, an offset that is unmapped. -/
def Instr.wellFormed (p : Params) (i : Instr) : Bool :=
  match i with
  | .cellBit0 _ => true
  | .cellBit1 _ => true
  | .wordPixel _ _ => true
  | .frameGap _ _ => true
  | .regConfig _ => true
  | .regPixel k _ => hasPixReg p k
  | .itemStream _ _ _ => true
  | .report _ _ => true
  | .encIdleHold => true
  | .encAcceptFirst _ => true
  | .encReject _ => true
  | .encHighTick => true
  | .encHighEnd => true
  | .encLowTick => true
  | .encNextBit => true
  | .encAcceptNext _ => true
  | .encUnderrun => true
  | .encWaitHold => true
  | .encGapStart => true
  | .encGapTick => true
  | .encGapEnd => true
  | .encFaultHold => true
  | .chainShift _ => true
  | .chainLoad => true
  | .decIgnore _ _ => true
  | .decTimeout _ _ => true
  | .decRise _ _ => true
  | .decFall0 _ _ => true
  | .decFall1 _ _ => true
  | .decFallX _ _ => true
  | .decHold _ _ => true
  | .monConfig _ _ => true
  | .regfWrCfg _ => true
  | .regfWrPix k _ => hasPixReg p k
  | .regfXfer => true
  | .regfWrNone offset _ => unmapped p offset
  | .sysReset => true

end Sys2Proof
end

