-- ==== Sys2Proof/Decode.lean ====
section
/-! DEFINITION. From the bytes of a stimulus to the operation they stand for, and back. The spec gives bits to the
wire cells (R71), the pixel word (R72), the two registers (R75, R76) and the fields of a write, an item and a report;
the operations themselves have no bits (R83), so the tag byte in front is the model's own (DESIGN CHOICE, log 2). -/

namespace Sys2Proof

/-- Why the bytes of a stimulus are no operation. -/
inductive DecodeError where
  /-- There is no byte at all. -/
  | empty
  /-- The tag byte is none of the model's. -/
  | unknownTag (tag : Nat)
  /-- The operand bytes are not as many as the tag asks. -/
  | wrongLength (tag : Nat)
  /-- The three sub-periods are neither `100` nor `110` (R71). -/
  | badCell (pattern : Nat)
  /-- A bit, a `u4` or a flag byte holds a value outside its width. -/
  | badField (value : Nat)
  /-- The bytes of a number end too soon, are more than it needs, or have others after them. -/
  | badNumber (tag : Nat)
  /-- The position has no pixel register (R51). -/
  | noPixelRegister (k : Nat)
deriving DecidableEq, Repr

/-- The `n` low bytes of `x`, the lowest first. -/
def leBytes : Nat → Nat → List Byte
  | 0, _ => []
  | n + 1, x => BitVec.ofNat 8 x :: leBytes n (x / 256)

/-- The number whose bytes are `bs`, the lowest first. -/
def leNat : List Byte → Nat
  | [] => 0
  | b :: bs => b.toNat + 256 * leNat bs

/-- The number in the `len` bytes of `r` that follow its first `off`. -/
def numAt (off len : Nat) (r : List Byte) : Nat := leNat ((r.drop off).take len)

/-- The bytes of a number of any size (R37 bounds no timestamp): seven bits a byte, the lowest first, bit 7 set on all but the last. The
first argument bounds the recursion. -/
def natGroups : Nat → Nat → List Byte
  | 0, x => [BitVec.ofNat 8 x]
  | n + 1, x => if x < 128 then [BitVec.ofNat 8 x] else BitVec.ofNat 8 (x % 128 + 128) :: natGroups n (x / 128)

/-- The bytes of a number, as few as it needs. -/
def natBytes (x : Nat) : List Byte := natGroups x.log2 x

/-- The number at the front and the bytes after it; none if it is cut off or written with more bytes than it needs. -/
def readNat : List Byte → Option (Nat × List Byte)
  | [] => none
  | b :: r =>
    if b.toNat < 128 then some (b.toNat, r)
    else match readNat r with
      | none => none
      | some (y, rest) => if y = 0 then none else some (b.toNat - 128 + 128 * y, rest)

/-- The number that is all of the bytes left. -/
def lastNat (tag : Nat) (r : List Byte) (f : Nat → Except DecodeError Instr) : Except DecodeError Instr :=
  match readNat r with
  | some (x, []) => f x
  | _ => .error (.badNumber tag)

/-- A field of one bit. -/
def withBit (x : Nat) (f : Bool → Except DecodeError Instr) : Except DecodeError Instr :=
  match x with
  | 0 => f false
  | 1 => f true
  | _ => .error (.badField x)

/-- `then` once the operand bytes are exactly `n`. -/
def sized (tag n : Nat) (r : List Byte) (next : Except DecodeError Instr) : Except DecodeError Instr :=
  if r.length = n then next else .error (.wrongLength tag)

/-- A field of less than `bound`. -/
def below (bound x : Nat) (next : Except DecodeError Instr) : Except DecodeError Instr :=
  if x < bound then next else .error (.badField x)

/-- The pixel word's fields (R72): green in the highest byte, red in the middle, blue in the lowest. -/
def pixelOfWord (w : Nat) : Pixel :=
  { green := BitVec.ofNat 8 (w / 65536), red := BitVec.ofNat 8 (w / 256), blue := BitVec.ofNat 8 w }

/-- The pixel word as a number (R72): `green * 65536 + red * 256 + blue`. -/
def wordOfPixel (px : Pixel) : Nat := px.green.toNat * 65536 + px.red.toNat * 256 + px.blue.toNat

/-- The flag byte of an item: bit 0 `isFirst`, bit 1 `isLast`, bit 2 `valid` (log 2). -/
def flagByte (first last valid : Bool) : Byte := BitVec.ofNat 8 (first.toNat + 2 * last.toNat + 4 * valid.toNat)

/-- The item in the first five bytes: red, green, blue, position, flags (R77). -/
def itemOf (r : List Byte) : Item :=
  { red := BitVec.ofNat 8 (numAt 0 1 r), green := BitVec.ofNat 8 (numAt 1 1 r), blue := BitVec.ofNat 8 (numAt 2 1 r),
    pos := BitVec.ofNat 4 (numAt 3 1 r), first := (numAt 4 1 r).testBit 0, last := (numAt 4 1 r).testBit 1 }

/-- The five bytes of an item. -/
def itemBytes (it : Item) (valid : Bool) : List Byte :=
  [it.red, it.green, it.blue, BitVec.ofNat 8 it.pos.toNat, flagByte it.first it.last valid]

/-- An operation that carries an item and nothing else. -/
def decodeItem (tag : Nat) (r : List Byte) (f : Item → Instr) : Except DecodeError Instr :=
  sized tag 5 r (below 16 (numAt 3 1 r) (below 4 (numAt 4 1 r) (.ok (f (itemOf r)))))

/-- An operation that carries a report: the level, then the timestamp (R78). -/
def decodeReport (tag : Nat) (r : List Byte) (f : Nat → Bool → Instr) : Except DecodeError Instr :=
  lastNat tag (r.drop 1) fun ts => withBit (numAt 0 1 r) fun level => .ok (f ts level)

/-- An operation without operands. -/
def decodePlain (tag : Nat) (r : List Byte) (i : Instr) : Except DecodeError Instr := sized tag 0 r (.ok i)

/-- A bit cell: the three sub-periods of R71 as the table writes them (`100` is 4, `110` is 6), then the start. -/
def decodeCell (r : List Byte) : Except DecodeError Instr :=
  lastNat 1 (r.drop 1) fun t0 =>
    match numAt 0 1 r with
    | 4 => .ok (.cellBit0 t0)
    | 6 => .ok (.cellBit1 t0)
    | c => .error (.badCell c)

/-- A gap: its start, then what it lasts beyond `120 * S` (R74). -/
def decodeGap (r : List Byte) : Except DecodeError Instr :=
  match readNat r with
  | some (t0, rest) => lastNat 3 rest fun extra => .ok (.frameGap t0 extra)
  | none => .error (.badNumber 3)

/-- A write of a pixel register named by its position. -/
def decodePixReg (p : Params) (r : List Byte) : Except DecodeError Instr :=
  if hasPixReg p (numAt 4 1 r) then .ok (.regPixel (numAt 4 1 r) (BitVec.ofNat 32 (numAt 0 4 r)))
  else .error (.noPixelRegister (numAt 4 1 r))

/-- R150: `MemWrite(offset, 4, v)` is the operation of REGF that the offset selects. -/
def selectWrite (p : Params) (offset : Nat) (v : RegValue) : Instr :=
  if offset = 0 then .regfWrCfg v
  else match p.pixRegIndex offset with
    | some k => .regfWrPix k v
    | none => .regfWrNone offset v

/-- The operation of a tag and its operand bytes. -/
def decodeBody (p : Params) (tag : Nat) (r : List Byte) : Except DecodeError Instr :=
  match tag with
  | 1 => decodeCell r
  | 2 => lastNat 2 (r.drop 3) fun t0 => .ok (.wordPixel (pixelOfWord (numAt 0 3 r)) t0)
  | 3 => decodeGap r
  | 4 => sized 4 4 r (.ok (.regConfig (BitVec.ofNat 32 (numAt 0 4 r))))
  | 5 => sized 5 5 r (decodePixReg p r)
  | 6 => lastNat 6 (r.drop 5) fun notBefore => below 16 (numAt 3 1 r) (below 8 (numAt 4 1 r)
      (.ok (.itemStream ((numAt 4 1 r).testBit 2) (itemOf r) notBefore)))
  | 7 => decodeReport 7 r .report
  | 16 => decodePlain 16 r .encIdleHold
  | 17 => decodeItem 17 r .encAcceptFirst
  | 18 => decodeItem 18 r .encReject
  | 19 => decodePlain 19 r .encHighTick
  | 20 => decodePlain 20 r .encHighEnd
  | 21 => decodePlain 21 r .encLowTick
  | 22 => decodePlain 22 r .encNextBit
  | 23 => decodeItem 23 r .encAcceptNext
  | 24 => decodePlain 24 r .encUnderrun
  | 25 => decodePlain 25 r .encWaitHold
  | 26 => decodePlain 26 r .encGapStart
  | 27 => decodePlain 27 r .encGapTick
  | 28 => decodePlain 28 r .encGapEnd
  | 29 => decodePlain 29 r .encFaultHold
  | 32 => sized 32 1 r (withBit (numAt 0 1 r) fun b => .ok (.chainShift b))
  | 33 => decodePlain 33 r .chainLoad
  | 48 => decodeReport 48 r .decIgnore
  | 49 => decodeReport 49 r .decTimeout
  | 50 => decodeReport 50 r .decRise
  | 51 => decodeReport 51 r .decFall0
  | 52 => decodeReport 52 r .decFall1
  | 53 => decodeReport 53 r .decFallX
  | 54 => decodeReport 54 r .decHold
  | 55 => sized 55 2 r (below 16 (numAt 1 1 r)
      (.ok (.monConfig (BitVec.ofNat 8 (numAt 0 1 r)) (BitVec.ofNat 4 (numAt 1 1 r)))))
  | 64 => lastNat 64 (r.drop 4) fun offset => .ok (selectWrite p offset (BitVec.ofNat 32 (numAt 0 4 r)))
  | 65 => decodePlain 65 r .regfXfer
  | 80 => decodePlain 80 r .sysReset
  | t => .error (.unknownTag t)

/-- The operation of a stimulus's bytes, total on any bytes. -/
def decode (p : Params) (bs : List Byte) : Except DecodeError Instr :=
  match bs with
  | [] => .error .empty
  | tag :: r => decodeBody p tag.toNat r

/-- The bytes of a bus write: tag, value, offset (R150). -/
def writeBytes (offset : Nat) (v : RegValue) : List Byte := 64 :: (leBytes 4 v.toNat ++ natBytes offset)

/-- The operand bytes of a report. -/
def reportBytes (ts : Nat) (level : Bool) : List Byte := BitVec.ofNat 8 level.toNat :: natBytes ts

/-- The bytes of a well-formed operation. -/
def encode (p : Params) (i : Instr) : List Byte :=
  match i with
  | .cellBit0 t0 => 1 :: 0b100 :: natBytes t0
  | .cellBit1 t0 => 1 :: 0b110 :: natBytes t0
  | .wordPixel px t0 => 2 :: (leBytes 3 (wordOfPixel px) ++ natBytes t0)
  | .frameGap t0 extra => 3 :: (natBytes t0 ++ natBytes extra)
  | .regConfig v => 4 :: leBytes 4 v.toNat
  | .regPixel k v => 5 :: (leBytes 4 v.toNat ++ [BitVec.ofNat 8 k])
  | .itemStream valid it notBefore => 6 :: (itemBytes it valid ++ natBytes notBefore)
  | .report ts level => 7 :: reportBytes ts level
  | .encIdleHold => [16]
  | .encAcceptFirst it => 17 :: itemBytes it false
  | .encReject it => 18 :: itemBytes it false
  | .encHighTick => [19]
  | .encHighEnd => [20]
  | .encLowTick => [21]
  | .encNextBit => [22]
  | .encAcceptNext it => 23 :: itemBytes it false
  | .encUnderrun => [24]
  | .encWaitHold => [25]
  | .encGapStart => [26]
  | .encGapTick => [27]
  | .encGapEnd => [28]
  | .encFaultHold => [29]
  | .chainShift b => [32, BitVec.ofNat 8 b.toNat]
  | .chainLoad => [33]
  | .decIgnore ts level => 48 :: reportBytes ts level
  | .decTimeout ts level => 49 :: reportBytes ts level
  | .decRise ts level => 50 :: reportBytes ts level
  | .decFall0 ts level => 51 :: reportBytes ts level
  | .decFall1 ts level => 52 :: reportBytes ts level
  | .decFallX ts level => 53 :: reportBytes ts level
  | .decHold ts level => 54 :: reportBytes ts level
  | .monConfig d l => [55, d, BitVec.ofNat 8 l.toNat]
  | .regfWrCfg v => writeBytes 0 v
  | .regfWrPix k v => writeBytes ((p.pixRegOffset k).getD 0) v
  | .regfXfer => [65]
  | .regfWrNone offset v => writeBytes offset v
  | .sysReset => [80]

/-- The stimulus whose format bits, numbered as spec/opcode_table.json numbers them, are `w`; every other operand is 0.
Eight bits hold a cell pattern (R71), 24 a pixel word (R72), 32 a register value, taken as the pixel register of position 0
(R76: a value alone does not say which register, log 3). The rows without bits are named by their stimulus bytes. -/
def tableBytes (nbits w : Nat) : List Byte :=
  match nbits with
  | 8 => 1 :: BitVec.ofNat 8 w :: natBytes 0
  | 24 => 2 :: (leBytes 3 w ++ natBytes 0)
  | 32 => 5 :: (leBytes 4 w ++ [0])
  | n => leBytes (n / 8) w

/-- The operation the decoder reads from a row's bits, under the parameters of `State.reset` (log 3). -/
def decodeTableWord (nbits w : Nat) : Option Instr :=
  match decode Params.suggested (tableBytes nbits w) with
  | .ok i => some i
  | .error _ => none

end Sys2Proof
end

