-- ==== Sys2Proof/Machine/State.lean ====
section
/-! DEFINITION. The state of the block (10_state.md), grouped by the agent that owns it (20_memory.md R61), with the
observer's histories (R40) and the outside world's coming inputs, all as plain data. -/

namespace Sys2Proof.Machine

/-- `enc_state` (R23). -/
inductive EncPhase where
  | idle
  | high
  | low
  | wait
  | gap
  | fault
deriving DecidableEq, Repr

/-- `dec_state` (R35). -/
inductive DecPhase where
  | idle
  | high
  | low
deriving DecidableEq, Repr

/-- A diagnostic with its `info` (60_exceptions.md R165 to R170). -/
inductive Diag where
  /-- Code 0, ProtocolSequenceError (R166). -/
  | protocolSequence (expected got : Nat) (first last : Bool)
  /-- Code 1, TimingToleranceError, raised as BitPeriodViolation (R167). -/
  | bitPeriod (bp : Nat)
  /-- Code 2, UnclassifiablePulseError (R168). -/
  | unclassifiable (h : Nat)
  /-- Code 3, MissedLoadError (R169). -/
  | missedLoad (bp : Nat)
  /-- Code 4, FrameLengthError (R170). -/
  | frameLength (bits expected : Nat)
deriving DecidableEq, Repr

/-- An entry of `violLog` (R40, R174); no timestamp when `load` is invoked directly (R170). -/
structure ViolEntry where
  ts : Option Nat
  diag : Diag
deriving DecidableEq, Repr

/-- An entry of `frameLog` (R14, R40): the decoded frame, position-indexed (R86). -/
structure FrameEntry where
  ts : Option Nat
  frame : List Pixel
  complete : Bool
deriving DecidableEq, Repr

/-- The configuration register and `cfg_set` (R21). -/
structure CfgReg where
  divider : Byte
  lastLed : BitVec 4
  isSet : Bool
deriving DecidableEq, Repr

/-- The encoder's state (R22 to R27). -/
structure EncRegs where
  /-- `enc_S`: the active sub-period in ticks (R22). -/
  S : Nat
  /-- `enc_N`: the active chain length (R22). -/
  N : Nat
  /-- `enc_state` (R23). -/
  phase : EncPhase
  /-- `enc_word`: the bit on the wire is bit 23 (R24). -/
  word : PixelWord
  /-- `enc_cnt`: bits still to send after this one (R24). -/
  cnt : Nat
  /-- `enc_tmr`: ticks left in this phase after the present one (R25). -/
  tmr : Nat
  /-- `enc_last` (R26). -/
  last : Bool
  /-- `enc_expPos` (R26). -/
  expPos : Nat
  /-- `enc_seqErr` (R27). -/
  seqErr : Bool
deriving DecidableEq, Repr

/-- The facade's holding register (R30). -/
structure HoldReg where
  valid : Bool
  item : Item
deriving DecidableEq, Repr

/-- The shift chain (R31 to R33) and the sticky flag it owns (R61). -/
structure ChainRegs where
  /-- `acc[0]` to `acc[15]`. -/
  acc : List PixelWord
  /-- `lat[0]` to `lat[15]`. -/
  lat : List Pixel
  bitsSinceLoad : Nat
  flagFrameLength : Bool
deriving DecidableEq, Repr

/-- The monitor's state (R34 to R38). -/
structure MonRegs where
  /-- `mon_S` (R34). -/
  S : Nat
  /-- `mon_N` (R34). -/
  N : Nat
  /-- `mon_cfgSet` (R34). -/
  cfgSet : Bool
  /-- `dec_state` (R35). -/
  phase : DecPhase
  /-- `dec_pending` (R36). -/
  pending : Bool
  /-- `dec_riseTs` (R37). -/
  riseTs : Nat
  /-- `dec_fallTs` (R37). -/
  fallTs : Nat
  /-- `dec_lastTs` (R37). -/
  lastTs : Nat
  flagBitPeriod : Bool
  flagUnclassifiable : Bool
  flagMissedLoad : Bool
  /-- `mon_cfgReject` (R38, R145). -/
  cfgReject : Bool
  /-- The model's own: by how many ticks the timestamps of an attached monitor are ahead of the tick number. It is 0 until a SYS.RESET that
  does not reset the monitor sets the tick number back and leaves the monitor's time as it is (R186; log 24). -/
  tsBase : Nat
deriving DecidableEq, Repr

/-- The per-report outputs (R39), valid only during the step that produces them (log 8). -/
structure ReportOut where
  viol : BitVec 4
  frameValid : Bool
  frame : List Pixel
  frameComplete : Bool
deriving DecidableEq, Repr

/-- Nothing reported. -/
def ReportOut.none : ReportOut := { viol := 0, frameValid := false, frame := [], frameComplete := false }

/-- The observer's histories (R14, R40); no operation reads them. -/
structure Histories where
  viols : List ViolEntry
  frames : List FrameEntry
deriving DecidableEq, Repr

/-- An input not yet delivered: it is delivered before tick `due` runs (R84, R157 step 4; log 4). -/
structure Pending where
  due : Nat
  bytes : List Byte
deriving DecidableEq, Repr

/-- An item the external producer has queued, presented no earlier than tick `notBefore` (R84 `PIX@`). -/
structure Queued where
  notBefore : Nat
  item : Item
deriving DecidableEq, Repr

/-- A pixel write at position `k` that waits for the holding register (R152, R199), or behind one that does (R150: in order). -/
structure HeldWrite where
  k : Nat
  v : RegValue
deriving DecidableEq, Repr

/-- Who drives the stream interface (R155). -/
inductive Producer where
  | stream
  | facade
deriving DecidableEq, Repr

/-- The outside world: the parameters of the run (R45) and the inputs to come (R29, R45). Not state of the block. -/
structure Env where
  par : Params
  pending : List Pending
  stream : List Queued
  held : List HeldWrite
  producer : Option Producer
deriving DecidableEq, Repr

/-- The whole machine. -/
structure State where
  cfg : CfgReg
  enc : EncRegs
  hold : HoldReg
  chain : ChainRegs
  mon : MonRegs
  out : ReportOut
  log : Histories
  /-- The tick number t (R6). -/
  tick : Nat
  env : Env
deriving DecidableEq, Repr

/-- No operation stops the machine: ProtocolSequenceError is the state `E_FAULT` with `enc_seqErr` set (R112, R178; log 6),
and the monitor's diagnostics never stop it (R143). Safe: there is no reason to stop, so no claim rests on one. -/
inductive Fault where
deriving DecidableEq, Repr

/-- Why an operation is given no step. -/
inductive Refusal where
  /-- Raised by `exec`'s arm of an operation that has no meaning yet. Safe. -/
  | notModelled (mnemonic : String)
  /-- Raised by an operation whose selecting condition (R83) does not hold: the machine never takes that step there. Safe. -/
  | notSelected (mnemonic : String)
  /-- Raised by every operation of a report with `ts < dec_lastTs` (R131: refused). Safe. -/
  | reportOutOfOrder (ts lastTs : Nat)
  /-- Raised by ITEM.STREAM, REG.PIXEL and REGF.WR_PIX in a run that already has the other producer (R155, U9). Safe. -/
  | mixedProducers
  /-- Raised by REG.PIXEL and REGF.WR_PIX of a position with no pixel register (R51, U5). Safe. -/
  | noPixelRegister (k : Nat)
  /-- Raised by `step` on stimulus bytes that are no operation. Safe. -/
  | undecodable (e : DecodeError)
deriving DecidableEq, Repr

/-- The environment of `State.reset`: nothing to come (DESIGN CHOICE, log 4) and the suggested parameters (log 10). -/
def Env.empty : Env :=
  { par := Params.suggested, pending := [], stream := [], held := [], producer := none }

/-- The state right after reset: the table of R44. -/
def State.reset : State :=
  { cfg := { divider := 0, lastLed := 0, isSet := false }
    enc := { S := 1, N := 1, phase := .idle, word := 0, cnt := 0, tmr := 0, last := false, expPos := 0, seqErr := false }
    hold := { valid := false, item := Item.zero }
    chain := { acc := List.replicate 16 0, lat := List.replicate 16 { green := 0, red := 0, blue := 0 }, bitsSinceLoad := 0,
               flagFrameLength := false }
    mon := { S := 1, N := 1, cfgSet := false, phase := .idle, pending := false, riseTs := 0, fallTs := 0, lastTs := 0,
             flagBitPeriod := false, flagUnclassifiable := false, flagMissedLoad := false, cfgReject := false, tsBase := 0 }
    out := ReportOut.none
    log := { viols := [], frames := [] }
    tick := 0
    env := Env.empty }

end Sys2Proof.Machine
end

