-- ==== Sys2Proof/Machine/Operands.lean ====
section
/-! DEFINITION. How each number an operation uses is put together from fields (30_encoding.md R79), and the timing
comparisons (00_scope.md R12). -/

namespace Sys2Proof.Machine

/-- `S = zext_9(divider) + 1` (R8, R79). -/
def subPeriod (divider : Byte) : Nat := divider.toNat + 1

/-- `N = zext_5(lastLedIndex) + 1` (R8, R79). -/
def chainLength (lastLed : BitVec 4) : Nat := lastLed.toNat + 1

/-- `v[7:0]` of a configuration write (R75). -/
def cfgDivider (v : RegValue) : Byte := v.extractLsb' 0 8

/-- `v[19:16]` of a configuration write (R75). -/
def cfgLastLed (v : RegValue) : BitVec 4 := v.extractLsb' 16 4

/-- `v[7:0]` of a pixel write (R76): the lowest byte is red (R55). -/
def pixRed (v : RegValue) : Byte := v.extractLsb' 0 8

/-- `v[15:8]` of a pixel write (R76). -/
def pixGreen (v : RegValue) : Byte := v.extractLsb' 8 8

/-- `v[23:16]` of a pixel write (R76). -/
def pixBlue (v : RegValue) : Byte := v.extractLsb' 16 8

/-- The pixel word: `green ++ red ++ blue` (R72). -/
def pixelWord (px : Pixel) : PixelWord := px.green ++ px.red ++ px.blue

/-- The pixel of a 24-bit accumulator at a latch: green 23:16, red 15:8, blue 7:0 (R72, R123). -/
def unpackWord (w : PixelWord) : Pixel :=
  { green := w.extractLsb' 16 8, red := w.extractLsb' 8 8, blue := w.extractLsb' 0 8 }

/-- The colour an item carries (R77). -/
def itemPixel (it : Item) : Pixel := { green := it.green, red := it.red, blue := it.blue }

/-- `word[23]`, the bit on the wire (R24). -/
def topBit (w : PixelWord) : Bool := w.getLsbD 23

/-- High time of the cell of bit `b`: `(1 + b) * S` (R71, R79). -/
def highTime (b : Bool) (S : Nat) : Nat := (if b then Config.t1hSp else Config.t0hSp) * S

/-- Low time of the cell of bit `b`: `(2 - b) * S` (R71, R79). -/
def lowTime (b : Bool) (S : Nat) : Nat := Config.cellSp * S - highTime b S

/-- `|x - y|` (R10). -/
def absDiff (x y : Nat) : Nat := (x - y) + (y - x)

/-- `|x/S - k| <= 0.1`, as `10 * |x - k*S| <= S` (R12). -/
def within (x k S : Nat) : Bool := decide (Config.tolDen * absDiff x (k * S) ≤ S)

/-- `|x/S - k| > 0.1`, as `10 * |x - k*S| > S` (R12). -/
def outside (x k S : Nat) : Bool := decide (S < Config.tolDen * absDiff x (k * S))

/-- The low time exceeds `DEC_LATCH_SP * S` (R133, strict). -/
def latchExceeded (low S : Nat) : Bool := decide (Config.decLatchSp * S < low)

/-- The rise-to-rise time exceeds `DEC_MISSED_SP * S` (R136, strict). -/
def missedExceeded (bp S : Nat) : Bool := decide (Config.decMissedSp * S < bp)

/-- The `zero` of R137: the pulse is a 0-bit. -/
def zeroBand (h S : Nat) : Bool := within h Config.t0hSp S

/-- The `one` of R137: the pulse is a 1-bit. -/
def oneBand (h S : Nat) : Bool := within h Config.t1hSp S

/-- The nearer bit of an unclassifiable pulse: 0 if `2*h < 3*S`, else 1 (R141, decision D29). -/
def nearerBit (h S : Nat) : Bool := decide (¬ 2 * h < 3 * S)

end Sys2Proof.Machine
end

