-- ==== Sys2Proof/Machine/Flags.lean ====
section
/-! DEFINITION. The diagnostic kinds as numbers, messages and flags (60_exceptions.md R165), and what sets each sticky flag
(10_state.md R38). -/

namespace Sys2Proof.Machine

/-- The code of R165. -/
def Diag.code (d : Diag) : Nat :=
  match d with
  | .protocolSequence _ _ _ _ => 0
  | .bitPeriod _ => 1
  | .unclassifiable _ => 2
  | .missedLoad _ => 3
  | .frameLength _ _ => 4

/-- The message of R165, where the source gives one. -/
def Diag.message (d : Diag) : Option String :=
  match d with
  | .protocolSequence _ _ _ _ => none
  | .bitPeriod _ => some "bit period out of tolerance"
  | .unclassifiable _ => some "unclassifiable pulse"
  | .missedLoad _ => some "missed expected load"
  | .frameLength _ _ => none

/-- The kind's bit in `viol` as R165 places it: BitPeriod 0, MissedLoad 1, Unclassifiable 2, FrameLength 3; code 0 has none. -/
def Diag.violMask (d : Diag) : BitVec 4 :=
  match d with
  | .protocolSequence _ _ _ _ => 0b0000
  | .bitPeriod _ => 0b0001
  | .unclassifiable _ => 0b0100
  | .missedLoad _ => 0b0010
  | .frameLength _ _ => 0b1000

/-- The sticky flag of the kind is set (R38, R165); its owner is ENC, DEC or CHAIN (R61). -/
def setSticky (d : Diag) (s : State) : State :=
  match d with
  | .protocolSequence _ _ _ _ => { s with enc := { s.enc with seqErr := true } }
  | .bitPeriod _ => { s with mon := { s.mon with flagBitPeriod := true } }
  | .unclassifiable _ => { s with mon := { s.mon with flagUnclassifiable := true } }
  | .missedLoad _ => { s with mon := { s.mon with flagMissedLoad := true } }
  | .frameLength _ _ => { s with chain := { s.chain with flagFrameLength := true } }

end Sys2Proof.Machine
end

