-- ==== Sys2Proof/Machine/Ops.lean ====
section
/-! DEFINITION. The operations over the state that the meanings share: outputs and the handshake, raising a diagnostic,
the two operations of the chain, the tail of accepting an item, the holding register. -/

namespace Sys2Proof.Machine

/-- The outcome of any operation of this machine. -/
abbrev Result := Host.Outcome State Fault Refusal

/-- One operation after another: the first that does not answer a next state ends both. -/
def andThen (r : Result) (f : State → Result) : Result :=
  match r with
  | .next s => f s
  | .fault e => .fault e
  | .refused e => .refused e

/-- An operation selected when `c` holds (R83): elsewhere the machine has no such step (log 5). -/
def selectedWhen (mnemonic : String) (c : Prop) [Decidable c] (t : State) : Result :=
  if c then .next t else .refused (.notSelected mnemonic)

/-- Raising a diagnostic (60_exceptions.md R174), the block's one form of taking an exception: the entry goes to `violLog`,
the kind's sticky flag and its bit of `viol` are set, and the step goes on (R143). Nothing is saved and there is nothing to
return from (R175). -/
def raise (ts : Option Nat) (d : Diag) (s : State) : State :=
  let s1 := setSticky d s
  { s1 with out := { s1.out with viol := s1.out.viol ||| d.violMask },
            log := { s1.log with viols := s1.log.viols ++ [{ ts := ts, diag := d }] } }

/-- The per-report outputs are valid only during the step that produces them (R39): a new step starts without any. -/
def State.clearOut (s : State) : State := { s with out := ReportOut.none }

/-- The timestamp of this tick's report of an attached monitor: the tick number (R146), counted on over a reset that leaves the monitor
alone (R186; log 24). -/
def State.reportTime (s : State) : Nat := s.mon.tsBase + s.tick

/-! ### Outputs and the handshake -/

/-- `wire` (R102): 1 exactly when `enc_state = E_HIGH`. -/
def State.wire (s : State) : Bool := decide (s.enc.phase = .high)

/-- The last tick of the last cell of a pixel (the `E_LOW` case of R101, R111, R113, R115). -/
def State.pixelEnd (s : State) : Bool := decide (s.enc.phase = .low ∧ s.enc.tmr = 0 ∧ s.enc.cnt = 0)

/-- `ready` (R101). -/
def State.ready (s : State) : Bool :=
  (decide (s.enc.phase = .idle) && s.cfg.isSet) || (s.pixelEnd && !s.enc.last) || decide (s.enc.phase = .wait)

/-- The item on the stream inputs, `none` when `s_valid = 0`: the held one when the facade holds one (R30), else the first
the external producer has queued, once its time has come (R84). -/
def State.presented (s : State) : Option Item :=
  if s.hold.valid then some s.hold.item
  else match s.env.stream with
    | [] => none
    | q :: _ => if q.notBefore ≤ s.tick then some q.item else none

/-- A transfer (R63): `ready` and `s_valid` are both 1. -/
def State.transfers (s : State) : Bool := s.ready && s.presented.isSome

/-- `N` of `item_ok`: the new configuration's in `E_IDLE`, else the active one (R105, R111, R112). -/
def State.itemN (s : State) : Nat := if s.enc.phase = .idle then chainLength s.cfg.lastLed else s.enc.N

/-- `exp` of `item_ok`: 0 in `E_IDLE`, else `enc_expPos` (R105, R111, R112). -/
def State.itemExp (s : State) : Nat := if s.enc.phase = .idle then 0 else s.enc.expPos

/-- `item_ok(it, N, exp)` (R103). -/
def itemOk (it : Item) (N exp : Nat) : Bool :=
  decide (it.pos.toNat = exp) && (it.first == decide (it.pos.toNat = 0)) && (it.last == decide (it.pos.toNat = N - 1))

/-- `begin_pixel(it, S)` (R104). -/
def beginPixel (it : Item) (S : Nat) (s : State) : State :=
  { s with enc := { s.enc with
      word := pixelWord (itemPixel it)
      cnt := Config.wordBits - 1
      last := it.last
      expPos := if it.last then 0 else it.pos.toNat + 1
      phase := .high
      tmr := highTime (topBit (pixelWord (itemPixel it))) S - 1 } }

/-- The active configuration is copied from `cfg` (R22, R105). -/
def takeConfig (s : State) : State :=
  { s with enc := { s.enc with S := subPeriod s.cfg.divider, N := chainLength s.cfg.lastLed } }

/-! ### The shift chain (41_shift_chain.md) -/

/-- The registers of the chain after one shift (R121): `b` enters the first at bit 0, and each later register takes the bit
23 its neighbour held before the step. -/
def shiftRegs (b : Bool) : List PixelWord → List PixelWord
  | [] => []
  | a :: r => (a <<< 1 ||| BitVec.setWidth 24 (BitVec.ofBool b)) :: shiftRegs (topBit a) r

/-- `bitOut` of `shift` (R121, R122): the old bit 23 of the last active register. -/
def chainBitOut (s : State) : Bool := topBit (s.chain.acc.getD (s.mon.N - 1) 0)

/-- `CHAIN.shift(b)`: its value `bitOut` (R122, kept by no state) and the state after it (R121). Registers `mon_N` and above keep
what they hold (R128). -/
def shiftChain (b : Bool) (s : State) : Bool × State :=
  (chainBitOut s,
   { s with chain := { s.chain with
      acc := shiftRegs b (s.chain.acc.take s.mon.N) ++ s.chain.acc.drop s.mon.N
      bitsSinceLoad := s.chain.bitsSinceLoad + 1 } })

/-- The latches after a load (R123): the active ones copy their accumulators, the others keep what they hold (R128). -/
def loadedLat (s : State) : List Pixel :=
  (s.chain.acc.take s.mon.N).map unpackWord ++ s.chain.lat.drop s.mon.N

/-- The frame of a load (R124): `frame[i] = lat[N - 1 - i]`, the new latches. -/
def loadedFrame (s : State) : List Pixel := ((loadedLat s).take s.mon.N).reverse

/-- The bits of a full frame: `24 * mon_N` (R79). -/
def frameBits (s : State) : Nat := Config.wordBits * s.mon.N

/-- The full-frame check (R125). -/
def frameIsComplete (s : State) : Bool := decide (s.chain.bitsSinceLoad = frameBits s)

/-- FrameLengthError is raised unless the frame is complete (R123, R125). -/
def checkFrame (ts : Option Nat) (s : State) : State :=
  if frameIsComplete s then s else raise ts (.frameLength s.chain.bitsSinceLoad (frameBits s)) s

/-- `CHAIN.load()` (R123), `ts` being that of the report that latches, and none when invoked directly (R170). -/
def loadChain (ts : Option Nat) (s : State) : State :=
  let s1 := checkFrame ts s
  { s1 with
      chain := { s1.chain with lat := loadedLat s, bitsSinceLoad := 0 }
      out := { s1.out with frame := loadedFrame s, frameComplete := frameIsComplete s }
      log := { s1.log with frames :=
        s1.log.frames ++ [{ ts := ts, frame := loadedFrame s, complete := frameIsComplete s }] } }

/-- A latch: the load and, jointly with it, DEC's write of `dec_pending`, after which nothing is pending (R36, R43; DEDUCED for a direct
load, log 22). -/
def latch (ts : Option Nat) (s : State) : State :=
  let s1 := loadChain ts s
  { s1 with mon := { s1.mon with pending := false } }

/-! ### The holding register and the writes behind it (43_register_facade.md) -/

/-- The fields of REGF.WR_CFG (R151). -/
def writeCfg (v : RegValue) (s : State) : State :=
  { s with cfg := { divider := cfgDivider v, lastLed := cfgLastLed v, isSet := true } }

/-- The item a pixel write at position `k` makes (R152, R79), with `cfg.lastLed` as it stands. -/
def pixelItem (k : Nat) (v : RegValue) (s : State) : Item :=
  { red := pixRed v, green := pixGreen v, blue := pixBlue v, pos := BitVec.ofNat 4 k, first := decide (k = 0),
    last := decide (k = s.cfg.lastLed.toNat) }

/-- The fields of REGF.WR_PIX (R152). -/
def writePix (k : Nat) (v : RegValue) (s : State) : State :=
  { s with hold := { valid := true, item := pixelItem k v s } }

/-- A delivered pixel write: with the holding register free and none waiting it takes its step, else it waits behind those that
wait already (R150: in order; R152, R199; log 11). -/
def deliverWrite (k : Nat) (v : RegValue) (s : State) : State :=
  if s.hold.valid = false ∧ s.env.held = [] then writePix k v s
  else { s with env := { s.env with held := s.env.held ++ [{ k := k, v := v }] } }

/-- The first waiting pixel write takes its step once the holding register is free, and fills it again (R152, R157 step 4; log 11). -/
def releaseHeld (s : State) : State :=
  if s.hold.valid then s
  else match s.env.held with
    | [] => s
    | w :: ws => { writePix w.k w.v s with env := { s.env with held := ws } }

/-- A delivered pixel write at position `k`: the facade is then the producer of the run (R155). -/
def deliverPixel (k : Nat) (v : RegValue) (s : State) : Result :=
  if k < s.env.par.pixRegCount then
    if s.env.producer = some .stream then .refused .mixedProducers
    else .next (deliverWrite k v { s with env := { s.env with producer := some .facade } })
  else .refused (.noPixelRegister k)

/-- The holding register is freed (R153). -/
def freeHold (s : State) : State := { s with hold := { s.hold with valid := false } }

/-- The external producer's half of a transfer: the item taken leaves its queue (R84). -/
def popStream (s : State) : State := { s with env := { s.env with stream := s.env.stream.tail } }

end Sys2Proof.Machine
end

