-- ==== Sys2Proof/Machine/Chain.lean ====
section
/-! DEFINITION. The two operations of CHAIN invoked directly (41_shift_chain.md; 30_encoding.md R84). -/

namespace Sys2Proof.Machine

/-- CHAIN.SHIFT (R121); its value `bitOut` is `(shiftChain b s).1`. Invoked before any MON.CONFIG it is performed too, with `mon_N` as it
stands, 1 after reset: R121 sets no condition, and the table of R44 says `mon_N` is not used then (DESIGN CHOICE, log 19). -/
def execChainShift (b : Bool) (s : State) : Result := .next (shiftChain b s).2

/-- CHAIN.LOAD (R123). It is a latch, so `dec_pending` is cleared as R36 says (DEDUCED, log 22). Invoked before any MON.CONFIG it is
performed too, with `mon_N` as it stands, as CHAIN.SHIFT is (DESIGN CHOICE, log 19). -/
def execChainLoad (s : State) : Result := .next (latch none s)

end Sys2Proof.Machine
end

