-- ==== Sys2Proof/Machine/Decoder.lean ====
section
/-! DEFINITION. The operations of DEC (42_decoder.md): the sub-steps of a report, the whole report of R130, and MON.CONFIG. -/

namespace Sys2Proof.Machine

/-! ### The sub-steps -/

/-- `dec_lastTs <- ts` (R130 step 0). -/
def acceptTs (ts : Nat) (s : State) : State := { s with mon := { s.mon with lastTs := ts } }

/-- The selecting condition of DEC.TIMEOUT (R133). -/
def timeoutDue (ts : Nat) (s : State) : Bool :=
  decide (s.mon.phase = .low) && s.mon.pending && latchExceeded (ts - s.mon.fallTs) s.mon.S

/-- What DEC.TIMEOUT does (R133). -/
def latchFrame (ts : Nat) (s : State) : State :=
  let s1 := latch (some ts) s
  { s1 with out := { s1.out with frameValid := true } }

/-- The bit-period check (R135): made on a rising edge that is not the first, while bits are pending. -/
def bitPeriodBad (ts : Nat) (s : State) : Bool :=
  decide (s.mon.phase = .low) && s.mon.pending && outside (ts - s.mon.riseTs) Config.cellSp s.mon.S

/-- The missed-load check (R136). -/
def loadMissed (ts : Nat) (s : State) : Bool :=
  decide (s.mon.phase = .low) && s.mon.pending && missedExceeded (ts - s.mon.riseTs) s.mon.S

/-- The two checks of a rising edge, in R134's order: each raises its own diagnostic. -/
def checkRise (ts : Nat) (s : State) : State :=
  let bp := ts - s.mon.riseTs
  let s1 := if bitPeriodBad ts s then raise (some ts) (.bitPeriod bp) s else s
  if loadMissed ts s then raise (some ts) (.missedLoad bp) s1 else s1

/-- What DEC.RISE does (R134). -/
def takeRise (ts : Nat) (s : State) : State :=
  let s1 := checkRise ts s
  { s1 with mon := { s1.mon with riseTs := ts, phase := .high } }

/-- The high time of the pulse that falls at `ts` (R137). -/
def highFor (ts : Nat) (s : State) : Nat := ts - s.mon.riseTs

/-- The common part of a falling edge (R137). -/
def endPulse (ts : Nat) (s : State) : State :=
  { s with mon := { s.mon with fallTs := ts, phase := .low } }

/-- A bit is classified: it is shifted in and a load is pending (R138, R139, R141); `bitOut` is ignored. -/
def takeBit (b : Bool) (s : State) : State :=
  let s1 := (shiftChain b s).2
  { s1 with mon := { s1.mon with pending := true } }

/-- What DEC.FALLX does before the common part: the diagnostic, and under `nearest` the nearer bit (R140, R141). -/
def takeBadPulse (ts : Nat) (s : State) : State :=
  let h := highFor ts s
  let s1 := raise (some ts) (.unclassifiable h) s
  match s.env.par.policy with
  | .drop => s1
  | .nearest => takeBit (nearerBit h s.mon.S) s1

/-- The level the decoder holds (R35). -/
def heldLevel (s : State) : Bool := decide (s.mon.phase = .high)

/-- Sub-step 2 of R130: the edge, or the hold. -/
def takeLevel (ts : Nat) (level : Bool) (s : State) : State :=
  if level = heldLevel s then s
  else if level then takeRise ts s
  else if zeroBand (highFor ts s) s.mon.S then endPulse ts (takeBit false s)
  else if oneBand (highFor ts s) s.mon.S then endPulse ts (takeBit true s)
  else endPulse ts (takeBadPulse ts s)

/-- The operation that sub-step 2 of R130 selects for a report in a state (R83). -/
def edgeOp (ts : Nat) (level : Bool) (s : State) : Instr :=
  if level = heldLevel s then .decHold ts level
  else if level then .decRise ts level
  else if zeroBand (highFor ts s) s.mon.S then .decFall0 ts level
  else if oneBand (highFor ts s) s.mon.S then .decFall1 ts level
  else .decFallX ts level

/-- Step 0 of R130 for every operation of a report: a report out of order is refused (R131). -/
def inOrder (ts : Nat) (s : State) (r : Result) : Result :=
  if ts < s.mon.lastTs then .refused (.reportOutOfOrder ts s.mon.lastTs) else r

/-- A report that the monitor takes (R130): outputs of this report only (R39), the timestamp, the latch, the edge. -/
def takeReport (ts : Nat) (level : Bool) (s : State) : State :=
  let s0 := acceptTs ts s.clearOut
  let s1 := if timeoutDue ts s0 then latchFrame ts s0 else s0
  takeLevel ts level s1

/-- A whole report (R130 to R142). -/
def processReport (ts : Nat) (level : Bool) (s : State) : Result :=
  inOrder ts s (.next (if s.mon.cfgSet then takeReport ts level s else s))

/-! ### The rows of the table -/

/-- REPORT (R78, R130). -/
def execReport (ts : Nat) (level : Bool) (s : State) : Result := processReport ts level s

/-- DEC.IGNORE (R132): writes nothing. -/
def execDecIgnore (ts : Nat) (_level : Bool) (s : State) : Result :=
  inOrder ts s (selectedWhen "DEC.IGNORE" (s.mon.cfgSet = false) s)

/-- DEC.TIMEOUT (R133), sub-step 1 of a report taken for itself (log 7). -/
def execDecTimeout (ts : Nat) (_level : Bool) (s : State) : Result :=
  inOrder ts s (selectedWhen "DEC.TIMEOUT" (s.mon.cfgSet = true ∧ timeoutDue ts s)
    (latchFrame ts (acceptTs ts s)))

/-- DEC.RISE (R134), sub-step 2 of a report taken for itself (log 7). -/
def execDecRise (ts : Nat) (level : Bool) (s : State) : Result :=
  inOrder ts s (selectedWhen "DEC.RISE" (s.mon.cfgSet = true ∧ level = true ∧ s.mon.phase ≠ .high)
    (takeRise ts (acceptTs ts s)))

/-- DEC.FALL0 (R138). -/
def execDecFall0 (ts : Nat) (level : Bool) (s : State) : Result :=
  inOrder ts s (selectedWhen "DEC.FALL0"
    (s.mon.cfgSet = true ∧ level = false ∧ s.mon.phase = .high ∧ zeroBand (highFor ts s) s.mon.S)
    (endPulse ts (takeBit false (acceptTs ts s))))

/-- DEC.FALL1 (R139). -/
def execDecFall1 (ts : Nat) (level : Bool) (s : State) : Result :=
  inOrder ts s (selectedWhen "DEC.FALL1"
    (s.mon.cfgSet = true ∧ level = false ∧ s.mon.phase = .high ∧ ¬ zeroBand (highFor ts s) s.mon.S
      ∧ oneBand (highFor ts s) s.mon.S)
    (endPulse ts (takeBit true (acceptTs ts s))))

/-- DEC.FALLX (R140, R141). -/
def execDecFallX (ts : Nat) (level : Bool) (s : State) : Result :=
  inOrder ts s (selectedWhen "DEC.FALLX"
    (s.mon.cfgSet = true ∧ level = false ∧ s.mon.phase = .high ∧ ¬ zeroBand (highFor ts s) s.mon.S
      ∧ ¬ oneBand (highFor ts s) s.mon.S)
    (endPulse ts (takeBadPulse ts (acceptTs ts s))))

/-- DEC.HOLD (R142): nothing beyond step 0. -/
def execDecHold (ts : Nat) (level : Bool) (s : State) : Result :=
  inOrder ts s (selectedWhen "DEC.HOLD" (s.mon.cfgSet = true ∧ level = heldLevel s) (acceptTs ts s))

/-- Quiescent (R145). -/
def quiescent (s : State) : Bool :=
  !s.mon.pending && decide (s.chain.bitsSinceLoad = 0) && decide (s.mon.phase ≠ .high)

/-- MON.CONFIG (R145): taken when the monitor is quiescent, else rejected with `mon_cfgReject`. -/
def execMonConfig (divider : Byte) (lastLed : BitVec 4) (s : State) : Result :=
  .next (if quiescent s then
      { s with mon := { s.mon with S := subPeriod divider, N := chainLength lastLed, cfgSet := true } }
    else { s with mon := { s.mon with cfgReject := true } })

end Sys2Proof.Machine
end

