-- ==== Sys2Proof/Machine/Encoder.lean ====
section
/-! DEFINITION. The fourteen operations of ENC (40_encoder.md). Each is one tick of the encoder alone; the composed tick is in
Tick.lean. What is not written is unchanged. -/

namespace Sys2Proof.Machine

/-- ENC.IDLE_HOLD (R106): writes nothing. -/
def execEncIdleHold (s : State) : Result :=
  selectedWhen "ENC.IDLE_HOLD" (s.enc.phase = .idle ∧ ¬ (s.cfg.isSet ∧ s.presented.isSome)) s

/-- ENC.ACCEPT_FIRST (R105): the one place where the active configuration changes for a frame. -/
def execEncAcceptFirst (it : Item) (s : State) : Result :=
  selectedWhen "ENC.ACCEPT_FIRST"
    (s.enc.phase = .idle ∧ s.cfg.isSet ∧ itemOk it (chainLength s.cfg.lastLed) 0)
    (beginPixel it (subPeriod s.cfg.divider) (takeConfig s))

/-- ENC.REJECT (R112): ProtocolSequenceError is raised and the encoder enters `E_FAULT` (R166; log 6). -/
def execEncReject (it : Item) (s : State) : Result :=
  let s1 := raise (some s.tick) (.protocolSequence s.itemExp it.pos.toNat it.first it.last) s
  let s2 := if s.enc.phase = .idle then takeConfig s1 else s1
  selectedWhen "ENC.REJECT" (s.ready ∧ ¬ itemOk it s.itemN s.itemExp)
    { s2 with enc := { s2.enc with phase := .fault } }

/-- ENC.HIGH_TICK (R107). -/
def execEncHighTick (s : State) : Result :=
  selectedWhen "ENC.HIGH_TICK" (s.enc.phase = .high ∧ 0 < s.enc.tmr)
    { s with enc := { s.enc with tmr := s.enc.tmr - 1 } }

/-- ENC.HIGH_END (R108): the low part of the cell begins. -/
def execEncHighEnd (s : State) : Result :=
  selectedWhen "ENC.HIGH_END" (s.enc.phase = .high ∧ s.enc.tmr = 0)
    { s with enc := { s.enc with phase := .low, tmr := lowTime (topBit s.enc.word) s.enc.S - 1 } }

/-- ENC.LOW_TICK (R110). -/
def execEncLowTick (s : State) : Result :=
  selectedWhen "ENC.LOW_TICK" (s.enc.phase = .low ∧ 0 < s.enc.tmr)
    { s with enc := { s.enc with tmr := s.enc.tmr - 1 } }

/-- ENC.NEXT_BIT (R109): the bit just sent is dropped and the next cell begins. -/
def execEncNextBit (s : State) : Result :=
  selectedWhen "ENC.NEXT_BIT" (s.enc.phase = .low ∧ s.enc.tmr = 0 ∧ 0 < s.enc.cnt)
    { s with enc := { s.enc with
        word := s.enc.word <<< 1
        cnt := s.enc.cnt - 1
        phase := .high
        tmr := highTime (topBit (s.enc.word <<< 1)) s.enc.S - 1 } }

/-- ENC.ACCEPT_NEXT (R111): the active configuration is kept. -/
def execEncAcceptNext (it : Item) (s : State) : Result :=
  selectedWhen "ENC.ACCEPT_NEXT"
    (((s.pixelEnd ∧ s.enc.last = false) ∨ s.enc.phase = .wait) ∧ itemOk it s.enc.N s.enc.expPos)
    (beginPixel it s.enc.S s)

/-- ENC.UNDERRUN (R113): no diagnostic; the encoder waits with the wire low. -/
def execEncUnderrun (s : State) : Result :=
  selectedWhen "ENC.UNDERRUN" (s.pixelEnd ∧ s.enc.last = false ∧ s.presented = none)
    { s with enc := { s.enc with phase := .wait } }

/-- ENC.WAIT_HOLD (R114): writes nothing. -/
def execEncWaitHold (s : State) : Result :=
  selectedWhen "ENC.WAIT_HOLD" (s.enc.phase = .wait ∧ s.presented = none) s

/-- ENC.GAP_START (R115): the gap of `ENC_GAP_SP` sub-periods begins. -/
def execEncGapStart (s : State) : Result :=
  selectedWhen "ENC.GAP_START" (s.pixelEnd ∧ s.enc.last = true)
    { s with enc := { s.enc with phase := .gap, tmr := Config.encGapSp * s.enc.S - 1 } }

/-- ENC.GAP_TICK (R116). -/
def execEncGapTick (s : State) : Result :=
  selectedWhen "ENC.GAP_TICK" (s.enc.phase = .gap ∧ 0 < s.enc.tmr)
    { s with enc := { s.enc with tmr := s.enc.tmr - 1 } }

/-- ENC.GAP_END (R118). -/
def execEncGapEnd (s : State) : Result :=
  selectedWhen "ENC.GAP_END" (s.enc.phase = .gap ∧ s.enc.tmr = 0)
    { s with enc := { s.enc with phase := .idle } }

/-- ENC.FAULT_HOLD (R117): writes nothing; only SYS.RESET leaves `E_FAULT`. -/
def execEncFaultHold (s : State) : Result :=
  selectedWhen "ENC.FAULT_HOLD" (s.enc.phase = .fault) s

/-- The operation that R83 and R100 select for the encoder at this tick. -/
def encOp (s : State) : Instr :=
  match s.enc.phase with
  | .idle =>
    match s.presented with
    | none => .encIdleHold
    | some it =>
      if s.cfg.isSet then
        if itemOk it (chainLength s.cfg.lastLed) 0 then .encAcceptFirst it else .encReject it
      else .encIdleHold
  | .high => if 0 < s.enc.tmr then .encHighTick else .encHighEnd
  | .low =>
    if 0 < s.enc.tmr then .encLowTick
    else if 0 < s.enc.cnt then .encNextBit
    else if s.enc.last then .encGapStart
    else match s.presented with
      | none => .encUnderrun
      | some it => if itemOk it s.enc.N s.enc.expPos then .encAcceptNext it else .encReject it
  | .wait =>
    match s.presented with
    | none => .encWaitHold
    | some it => if itemOk it s.enc.N s.enc.expPos then .encAcceptNext it else .encReject it
  | .gap => if 0 < s.enc.tmr then .encGapTick else .encGapEnd
  | .fault => .encFaultHold

end Sys2Proof.Machine
end

