-- ==== Sys2Proof/Machine/Facade.lean ====
section
/-! DEFINITION. The operations of REGF (43_register_facade.md). -/

namespace Sys2Proof.Machine

/-- REGF.WR_CFG (R151): accepted at any time, whatever waits (log 11). -/
def execRegfWrCfg (v : RegValue) (s : State) : Result := .next (writeCfg v s)

/-- REGF.WR_PIX for position `k` (R152): it waits while the holding register is full (log 11). -/
def execRegfWrPix (k : Nat) (v : RegValue) (s : State) : Result := deliverPixel k v s

/-- REGF.XFER (R153): selected at a transfer while the facade holds an item. In a tick it is half of a joint step with ENC's operation
(R61, R157). Named by a stimulus it is that half alone: the holding register is freed, ENC takes nothing, and the item is lost, which the
spec gives no step for (DESIGN CHOICE, log 26). -/
def execRegfXfer (s : State) : Result :=
  selectedWhen "REGF.XFER" (s.transfers ∧ s.hold.valid = true) (freeHold s)

/-- REGF.WR_NONE (R154): a write at an offset that is no register changes nothing. -/
def execRegfWrNone (offset : Nat) (_v : RegValue) (s : State) : Result :=
  selectedWhen "REGF.WR_NONE" (unmapped s.env.par offset) s

end Sys2Proof.Machine
end

