-- ==== Sys2Proof/Machine/Formats.lean ====
section
/-! DEFINITION. The rows of the table that are formats: what happens when such a datum crosses its interface (30_encoding.md
R70 to R78, R84, R85; log 1). -/

namespace Sys2Proof.Machine

/-- `PULSE t0 h` (R85): the wire rises at `t0` and falls at `t0 + h`, as two reports. -/
def pulse (t0 h : Nat) (s : State) : Result :=
  andThen (processReport t0 true s) fun s1 => processReport (t0 + h) false s1

/-- The cell of bit `b` from `t0` at the monitor's sub-period (R71, R85 `BIT0`, `BIT1`); before any MON.CONFIG that is its reset value 1
(DESIGN CHOICE, log 1). -/
def wireCell (b : Bool) (t0 : Nat) (s : State) : Result := pulse t0 (highTime b s.mon.S) s

/-- `n` cells carrying `w[n-1]`, ..., `w[0]` (R73), each a bit period `3 * S` after the one before. -/
def wireCells (w : PixelWord) (S : Nat) : Nat → Nat → State → Result
  | 0, _, s => .next s
  | n + 1, t0, s => andThen (wireCell (w.getLsbD n) t0 s) fun s1 => wireCells w S n (t0 + Config.cellSp * S) s1

/-- CELL.BIT0 (R71). -/
def execCellBit0 (t0 : Nat) (s : State) : Result := wireCell false t0 s

/-- CELL.BIT1 (R71). -/
def execCellBit1 (t0 : Nat) (s : State) : Result := wireCell true t0 s

/-- WORD.PIXEL (R72, R73): the 24 cells of the pixel's word, `word[23]` first. -/
def execWordPixel (px : Pixel) (t0 : Nat) (s : State) : Result :=
  wireCells (pixelWord px) s.mon.S Config.wordBits t0 s

/-- FRAME.GAP (R74): the wire is low for `120 * S + extra` ticks from the end `t0` of the last cell, reported when they are over
(log 23). -/
def execFrameGap (t0 extra : Nat) (s : State) : Result :=
  processReport (t0 + Config.encGapSp * s.mon.S + extra) false s

/-- `MemWrite(offset, 4, v)` as R150 dispatches it. -/
def memWrite (offset : Nat) (v : RegValue) (s : State) : Result :=
  if offset = 0 then .next (writeCfg v s)
  else match s.env.par.pixRegIndex offset with
    | some k => deliverPixel k v s
    | none => .next s

/-- REG.CONFIG (R75): the register at offset 0. -/
def execRegConfig (v : RegValue) (s : State) : Result := memWrite 0 v s

/-- REG.PIXEL (R76): the register at `PIX_REG_OFFSET(k)`. -/
def execRegPixel (k : Nat) (v : RegValue) (s : State) : Result :=
  match s.env.par.pixRegOffset k with
  | some offset => memWrite offset v s
  | none => .refused (.noPixelRegister k)

/-- ITEM.STREAM (R77, R84): the external producer queues an item for the stream inputs, and is then the producer of the run
(R155); with `valid = 0` it withdraws what it has not yet passed on (R63; log 14). -/
def execItemStream (valid : Bool) (it : Item) (notBefore : Nat) (s : State) : Result :=
  if valid then
    if s.env.producer = some .facade then .refused .mixedProducers
    else .next { s with env := { s.env with
      producer := some .stream, stream := s.env.stream ++ [{ notBefore := notBefore, item := it }] } }
  else .next { s with env := { s.env with stream := [] } }

end Sys2Proof.Machine
end

