-- ==== Sys2Proof/Machine/System.lean ====
section
/-! DEFINITION. SYS.RESET (70_reset_and_hazards.md). -/

namespace Sys2Proof.Machine

/-- Every state variable of the block to its value of R44, both logs empty, tick number 0 (R185). What comes from outside, and the
parameters of the run, are not the block's and stay (log 12). -/
def resetAll (s : State) : State := { State.reset with env := s.env }

/-- The reset where the monitor, DEC with its CHAIN, is not reset with the encoder (R186): the encoder and the facade go to their values of
R44 and the tick number to 0. DESIGN CHOICE (log 24), unsafe: the monitor's time goes on, and the logs keep what the monitor wrote. -/
def resetButMonitor (s : State) : State :=
  { resetAll s with
      chain := s.chain
      mon := { s.mon with tsBase := s.reportTime }
      log := { frames := s.log.frames, viols := s.log.viols.filter fun e => e.diag.code ≠ 0 } }

/-- SYS.RESET: of all four agents (R185), or, in a run whose reset does not reach the monitor, of all but it (R186; log 24). -/
def execSysReset (s : State) : Result := .next (if s.env.par.resetsMonitor then resetAll s else resetButMonitor s)

end Sys2Proof.Machine
end

