-- ==== Sys2Proof/Machine/Dispatch.lean ====
section
/-! DEFINITION. One arm per operation of the block. -/

namespace Sys2Proof.Machine

def exec (i : Instr) (s : State) : Host.Outcome State Fault Refusal :=
  match i with
  | .cellBit0 t0 => Sys2Proof.Machine.execCellBit0 t0 s
  | .cellBit1 t0 => Sys2Proof.Machine.execCellBit1 t0 s
  | .wordPixel px t0 => Sys2Proof.Machine.execWordPixel px t0 s
  | .frameGap t0 extra => Sys2Proof.Machine.execFrameGap t0 extra s
  | .regConfig v => Sys2Proof.Machine.execRegConfig v s
  | .regPixel k v => Sys2Proof.Machine.execRegPixel k v s
  | .itemStream valid it notBefore => Sys2Proof.Machine.execItemStream valid it notBefore s
  | .report ts level => Sys2Proof.Machine.execReport ts level s
  | .encIdleHold => Sys2Proof.Machine.execEncIdleHold s
  | .encAcceptFirst it => Sys2Proof.Machine.execEncAcceptFirst it s
  | .encReject it => Sys2Proof.Machine.execEncReject it s
  | .encHighTick => Sys2Proof.Machine.execEncHighTick s
  | .encHighEnd => Sys2Proof.Machine.execEncHighEnd s
  | .encLowTick => Sys2Proof.Machine.execEncLowTick s
  | .encNextBit => Sys2Proof.Machine.execEncNextBit s
  | .encAcceptNext it => Sys2Proof.Machine.execEncAcceptNext it s
  | .encUnderrun => Sys2Proof.Machine.execEncUnderrun s
  | .encWaitHold => Sys2Proof.Machine.execEncWaitHold s
  | .encGapStart => Sys2Proof.Machine.execEncGapStart s
  | .encGapTick => Sys2Proof.Machine.execEncGapTick s
  | .encGapEnd => Sys2Proof.Machine.execEncGapEnd s
  | .encFaultHold => Sys2Proof.Machine.execEncFaultHold s
  | .chainShift bitIn => Sys2Proof.Machine.execChainShift bitIn s
  | .chainLoad => Sys2Proof.Machine.execChainLoad s
  | .decIgnore ts level => Sys2Proof.Machine.execDecIgnore ts level s
  | .decTimeout ts level => Sys2Proof.Machine.execDecTimeout ts level s
  | .decRise ts level => Sys2Proof.Machine.execDecRise ts level s
  | .decFall0 ts level => Sys2Proof.Machine.execDecFall0 ts level s
  | .decFall1 ts level => Sys2Proof.Machine.execDecFall1 ts level s
  | .decFallX ts level => Sys2Proof.Machine.execDecFallX ts level s
  | .decHold ts level => Sys2Proof.Machine.execDecHold ts level s
  | .monConfig divider lastLed => Sys2Proof.Machine.execMonConfig divider lastLed s
  | .regfWrCfg v => Sys2Proof.Machine.execRegfWrCfg v s
  | .regfWrPix k v => Sys2Proof.Machine.execRegfWrPix k v s
  | .regfXfer => Sys2Proof.Machine.execRegfXfer s
  | .regfWrNone offset v => Sys2Proof.Machine.execRegfWrNone offset v s
  | .sysReset => Sys2Proof.Machine.execSysReset s

end Sys2Proof.Machine
end

