-- ==== Sys2Proof/Machine/Tick.lean ====
section
/-! DEFINITION. The composed system: one tick of the whole block (43_register_facade.md R157), and the delivery of the inputs
between ticks (30_encoding.md R84). Both are made of the table's operations. -/

namespace Sys2Proof.Machine

/-- Step 2 of R157: attached to the wire, DEC processes the report `(t, wire(t))` (R146), `t` on the monitor's own count (log 24). -/
def monitorPhase (s : State) : Result :=
  if s.env.par.attached then exec (.report s.reportTime s.wire) s else .next s

/-- The producer's half of the encoder's step: at a transfer the facade's REGF.XFER (R153), or the external producer's item
passing on (R84). -/
def transferPhase (s : State) : Result :=
  if s.transfers then
    if s.hold.valid then exec .regfXfer s else .next (popStream s)
  else .next s

/-- The end of the tick: the waiting pixel write that has its step now takes it (R157 step 4), and time goes on (R6). -/
def endTick (s : State) : State :=
  let s1 := releaseHeld s
  { s1 with tick := s1.tick + 1 }

/-- One tick of the whole block (R157): the monitor, then the encoder with the stream inputs of this tick. The encoder's operation
is chosen before the transfer takes the item away; the phases touch disjoint state. -/
def tick (s : State) : Result :=
  andThen (monitorPhase s) fun s1 =>
  andThen (transferPhase s1) fun s2 =>
  andThen (exec (encOp s) s2) fun s3 => .next (endTick s3)

/-- The first input to come, if it is due: its operation as decoded, and the state without it. -/
def fetch (s : State) : Option (Except DecodeError Instr × State) :=
  match s.env.pending with
  | [] => none
  | p :: rest =>
    if p.due ≤ s.tick then
      some (decode s.env.par p.bytes, { s with env := { s.env with pending := rest } })
    else none

/-- What one step of the machine does from a state whose per-report outputs are cleared: an input that is due is delivered, and when
none is due a tick passes (R84: every line but `TICK` takes no time; log 4). -/
def advance (s : State) : Result :=
  match fetch s with
  | none => tick s
  | some (.ok i, s1) => exec i s1
  | some (.error e, _) => .refused (.undecodable e)

/-- `s` with the stimulus bytes `bs` as its next input. -/
def State.withNext (bs : List Byte) (s : State) : State :=
  { s with env := { s.env with pending := { due := 0, bytes := bs } :: s.env.pending } }

end Sys2Proof.Machine
end

