-- ==== Sys2Proof/Machine/Step.lean ====
section
/-! DEFINITION. One step of the machine. -/

namespace Sys2Proof.Machine

/-- One step: the outputs of the step before are gone (R39), then an input is delivered or a tick passes. -/
def step (s : State) : Host.Outcome State Fault Refusal := advance s.clearOut

/-- `s` with the operation of a table row's bits as its next input, so that the next step runs it (log 3, log 4). -/
def State.withFetchWord (s : State) (nbits w : Nat) : State := s.withNext (tableBytes nbits w)

end Sys2Proof.Machine
end

