-- ==== Sys2Proof/Machine/Stimulus.lean ====
section
/-! DEFINITION. The stimulus notation of 30_encoding.md R84 and R85: lines, their expansion, and what a list of them puts
before the machine. This is how a program comes to run (log 4). -/

namespace Sys2Proof.Machine

/-- A line of R84. -/
inductive Line where
  /-- `RESET` -/
  | reset
  /-- `WR offset value` -/
  | wr (offset : Nat) (v : RegValue)
  /-- `MONCFG div=D last=L` -/
  | monCfg (divider : Byte) (lastLed : BitVec 4)
  /-- `PIX ...` (`t = 0`), `PIX@t ...` -/
  | pix (it : Item) (t : Nat)
  /-- `TICK n` -/
  | ticks (n : Nat)
  /-- `REPORT ts level` -/
  | report (ts : Nat) (level : Bool)
  /-- `SHIFT b` -/
  | shift (b : Bool)
  /-- `LOAD` -/
  | load
  /-- `BIT0 t0`, `BIT1 t0` (R85): a pulse at the monitor's sub-period, known only when it is run. -/
  | bit (b : Bool) (t0 : Nat)
deriving DecidableEq, Repr

/-- `CFG div=D last=L` (R85): `WR 0 (L * 65536 + D)`. -/
def Line.cfg (divider : Byte) (lastLed : BitVec 4) : Line := .wr 0 (BitVec.ofNat 32 (lastLed.toNat * 65536 + divider.toNat))

/-- `WRPIX k` (R85): `WR PIX_REG_OFFSET(k) (b * 65536 + g * 256 + r)`. For a position without a pixel register `PIX_REG_OFFSET(k)` is not
defined (R51, U5) and there is no such line (DEDUCED, log 27). -/
def Line.wrPix (p : Params) (k : Nat) (px : Pixel) : Option Line :=
  (p.pixRegOffset k).map fun offset =>
    .wr offset (BitVec.ofNat 32 (px.blue.toNat * 65536 + px.green.toNat * 256 + px.red.toNat))

/-- The items of a frame from position `i` on: `first` at position 0, `last` at the end of the list (R77, R85 `FRAME`). R77's `pos` has
four bits: an item beyond position 15 is not an item of R77, and no `Line.frame` holds one (log 27). -/
def frameItems : Nat → List Pixel → List Item
  | _, [] => []
  | i, px :: rest =>
    { red := px.red, green := px.green, blue := px.blue, pos := BitVec.ofNat 4 i, first := decide (i = 0),
      last := rest.isEmpty } :: frameItems (i + 1) rest

/-- `FRAME ...` (R85), of any number of pixels up to sixteen. R85 sets no bound; a position beyond 15 does not fit R77's `pos`, so there is
no such line (DEDUCED, log 27). -/
def Line.frame (pxs : List Pixel) : Option (List Line) :=
  if pxs.length ≤ 16 then some ((frameItems 0 pxs).map fun it => .pix it 0) else none

/-- `PULSE t0 h` (R85). -/
def Line.pulse (t0 h : Nat) : List Line := [.report t0 true, .report (t0 + h) false]

/-- The stimulus bytes of a line, `none` for `TICK`. -/
def Line.bytes (p : Params) (l : Line) : Option (List Byte) :=
  match l with
  | .reset => some (encode p .sysReset)
  | .wr offset v => some (writeBytes offset v)
  | .monCfg d l => some (encode p (.monConfig d l))
  | .pix it t => some (encode p (.itemStream true it t))
  | .ticks _ => none
  | .report ts level => some (encode p (.report ts level))
  | .shift b => some (encode p (.chainShift b))
  | .load => some (encode p .chainLoad)
  | .bit b t0 => some (encode p (if b then .cellBit1 t0 else .cellBit0 t0))

/-- The inputs that the lines give from tick `now` on: a line is delivered before the tick it stands at, `TICK n` lets n ticks
pass, and after `RESET` the next tick is tick 0 (R84). -/
def assemble (p : Params) : Nat → List Line → List Pending
  | _, [] => []
  | now, l :: rest =>
    match l.bytes p with
    | none => (match l with | .ticks n => assemble p (now + n) rest | _ => assemble p now rest)
    | some bs => { due := now, bytes := bs } :: assemble p (if l = .reset then 0 else now) rest

/-- The machine with a list of lines before it, from its present tick on. -/
def State.load (s : State) (lines : List Line) : State :=
  { s with env := { s.env with pending := s.env.pending ++ assemble s.env.par s.tick lines } }

end Sys2Proof.Machine
end

