-- ==== Sys2Proof/Safety.lean ====
section
/-! DEFINITION. What counts as a run that has not gone wrong, and the invariants of 10_state.md R43, in the terms claims use. -/

namespace Sys2Proof.Machine

/-- A run has gone wrong once `enc_seqErr` is set, whatever else it did (60_exceptions.md R178). -/
abbrev State.hasGoneWrong (s : State) : Prop := s.enc.seqErr = true

/-- The encoder's clauses of R43, the ranges of R22 to R26, the equivalence of R27, and what the pixel in flight must say of
`enc_expPos` for the clause on `E_WAIT` to be kept. -/
abbrev EncInv (s : State) : Prop :=
  (1 ≤ s.enc.S ∧ s.enc.S ≤ 256) ∧ (1 ≤ s.enc.N ∧ s.enc.N ≤ 16) ∧ s.enc.cnt ≤ 23 ∧ s.enc.tmr ≤ 30719 ∧ s.enc.expPos ≤ 15 ∧
  (s.enc.phase = .idle → s.enc.expPos = 0) ∧
  (s.enc.phase = .high ∨ s.enc.phase = .low → s.enc.tmr < 2 * s.enc.S) ∧
  (s.enc.phase = .gap → s.enc.tmr < 120 * s.enc.S) ∧
  (s.enc.phase = .gap → s.enc.last = true ∧ s.enc.expPos = 0) ∧
  (s.enc.phase = .wait → s.enc.last = false ∧ 1 ≤ s.enc.expPos ∧ s.enc.expPos ≤ s.enc.N - 1) ∧
  (s.enc.phase ≠ .idle → s.enc.expPos ≤ s.enc.N - 1) ∧
  (s.enc.seqErr = true ↔ s.enc.phase = .fault) ∧
  (s.enc.phase = .high ∨ s.enc.phase = .low →
    (s.enc.last = true → s.enc.expPos = 0) ∧ (s.enc.last = false → 1 ≤ s.enc.expPos))

/-- The monitor's clauses of R43 and the ranges of R34. -/
abbrev MonInv (s : State) : Prop :=
  (1 ≤ s.mon.S ∧ s.mon.S ≤ 256) ∧ (1 ≤ s.mon.N ∧ s.mon.N ≤ 16) ∧
  (s.mon.pending = true → 1 ≤ s.chain.bitsSinceLoad ∧ s.mon.phase ≠ .idle) ∧
  (s.mon.phase = .high → s.mon.riseTs ≤ s.mon.lastTs) ∧
  (s.mon.phase = .low → s.mon.riseTs ≤ s.mon.fallTs ∧ s.mon.fallTs ≤ s.mon.lastTs)

/-- There are sixteen accumulators and sixteen latches (R31, R32). -/
abbrev ChainInv (s : State) : Prop := s.chain.acc.length = 16 ∧ s.chain.lat.length = 16

/-- One producer for the whole of a run (R155): only the facade has a held item or a waiting pixel write, only the external
producer has queued items. -/
abbrev ProducerInv (s : State) : Prop :=
  (s.hold.valid = true → s.env.producer = some .facade) ∧
  (s.env.held ≠ [] → s.env.producer = some .facade) ∧
  (s.env.stream ≠ [] → s.env.producer = some .stream)

/-- What every step keeps. -/
abbrev State.Inv (s : State) : Prop := EncInv s ∧ MonInv s ∧ ChainInv s ∧ ProducerInv s

/-- The clause of R43 that ties the decoder to the chain: with a load pending there is a bit to load (log 22 for a direct CHAIN.LOAD). -/
abbrev State.PendingHasBits (s : State) : Prop := s.mon.pending = true → 1 ≤ s.chain.bitsSinceLoad

/-- The invariants of R43, clause by clause in the rule's order, for the well-formedness checks it speaks of. Every state that meets `Inv`
meets them. -/
abbrev State.MeetsR43 (s : State) : Prop :=
  (s.enc.phase = .idle → s.enc.expPos = 0) ∧
  (s.enc.phase = .high ∨ s.enc.phase = .low → s.enc.tmr < 2 * s.enc.S) ∧
  (s.enc.phase = .gap → s.enc.tmr < 120 * s.enc.S) ∧
  (s.enc.phase = .gap → s.enc.last = true ∧ s.enc.expPos = 0) ∧
  (s.enc.phase = .wait → s.enc.last = false ∧ 1 ≤ s.enc.expPos ∧ s.enc.expPos ≤ s.enc.N - 1) ∧
  (s.enc.phase ≠ .idle → s.enc.expPos ≤ s.enc.N - 1) ∧
  (s.mon.pending = true → 1 ≤ s.chain.bitsSinceLoad ∧ s.mon.phase ≠ .idle) ∧
  (s.mon.phase = .high → s.mon.riseTs ≤ s.mon.lastTs) ∧
  (s.mon.phase = .low → s.mon.riseTs ≤ s.mon.fallTs ∧ s.mon.fallTs ≤ s.mon.lastTs)

/-- The operation that the next step delivers, if it delivers one. -/
def State.delivers (s : State) (i : Instr) : Prop := ∃ s1, fetch s.clearOut = some (.ok i, s1)

/-- The next step delivers a SYS.RESET that reaches the monitor (R185; log 24). -/
def State.deliversMonitorReset (s : State) : Prop := s.delivers .sysReset ∧ s.env.par.resetsMonitor = true

end Sys2Proof.Machine

namespace Sys2Proof

/-- The fourteen operations of ENC. -/
def Instr.isEnc (i : Instr) : Bool :=
  match i with
  | .encIdleHold => true
  | .encAcceptFirst _ => true
  | .encReject _ => true
  | .encHighTick => true
  | .encHighEnd => true
  | .encLowTick => true
  | .encNextBit => true
  | .encAcceptNext _ => true
  | .encUnderrun => true
  | .encWaitHold => true
  | .encGapStart => true
  | .encGapTick => true
  | .encGapEnd => true
  | .encFaultHold => true
  | .cellBit0 _ => false
  | .cellBit1 _ => false
  | .wordPixel _ _ => false
  | .frameGap _ _ => false
  | .regConfig _ => false
  | .regPixel _ _ => false
  | .itemStream _ _ _ => false
  | .report _ _ => false
  | .chainShift _ => false
  | .chainLoad => false
  | .decIgnore _ _ => false
  | .decTimeout _ _ => false
  | .decRise _ _ => false
  | .decFall0 _ _ => false
  | .decFall1 _ _ => false
  | .decFallX _ _ => false
  | .decHold _ _ => false
  | .monConfig _ _ => false
  | .regfWrCfg _ => false
  | .regfWrPix _ _ => false
  | .regfXfer => false
  | .regfWrNone _ _ => false
  | .sysReset => false

/-- The item that an accepting or rejecting operation carries. -/
def encOperand (i : Instr) : Option Item :=
  match i with
  | .encAcceptFirst it => some it
  | .encReject it => some it
  | .encAcceptNext it => some it
  | _ => none

/-- The rows by which a report, or a part of one, reaches the monitor. -/
def Instr.isReport (i : Instr) : Bool :=
  match i with
  | .cellBit0 _ => true
  | .cellBit1 _ => true
  | .wordPixel _ _ => true
  | .frameGap _ _ => true
  | .report _ _ => true
  | .decIgnore _ _ => true
  | .decTimeout _ _ => true
  | .decRise _ _ => true
  | .decFall0 _ _ => true
  | .decFall1 _ _ => true
  | .decFallX _ _ => true
  | .decHold _ _ => true
  | _ => false

end Sys2Proof

namespace Sys2Proof.Machine

/-- The operations one after another. -/
def execAll : List Instr → State → Result
  | [], s => .next s
  | i :: is, s => andThen (exec i s) (execAll is)

/-- The bits of a word in sending order: `w[23]` first (R73). -/
def wordBits (w : PixelWord) : List Bool := (List.range 24).map fun j => w.getLsbD (23 - j)

/-- The wire formats of a frame that starts at `t0`: each pixel's 24 cells, then the gap (R74). -/
def wireFrame (S t0 : Nat) : List Pixel → List Instr
  | [] => [.frameGap t0 0]
  | px :: rest => .wordPixel px t0 :: wireFrame S (t0 + 72 * S) rest

/-- The monitor is between two frames: quiescent (R145), and every report to come is in order. -/
abbrev State.betweenFrames (s : State) : Prop :=
  s.mon.pending = false ∧ s.chain.bitsSinceLoad = 0 ∧ s.mon.phase ≠ .high ∧ s.mon.lastTs ≤ s.reportTime

/-- The items of frames, as an external producer that is never late queues them (R158, R84); `FramesReady` bounds the frames' lengths. -/
def queuedFrames (fs : List (List Pixel)) : List Queued :=
  fs.flatMap fun f => (frameItems 0 f).map fun it => { notBefore := 0, item := it }

/-- The premises of the round-trip law (R158) for frames `fs`: nothing else to come from outside, the encoder idle and
configured, the monitor attached, configured alike and between frames, and the items of the frames, of `mon_N` pixels each, queued. -/
structure State.FramesReady (s : State) (fs : List (List Pixel)) : Prop where
  noInputs : s.env.pending = []
  noneHeld : s.env.held = []
  noHold : s.hold.valid = false
  attached : s.env.par.attached = true
  idle : s.enc.phase = .idle
  encoderConfigured : s.cfg.isSet = true
  monitorConfigured : s.mon.cfgSet = true
  sameSubPeriod : s.mon.S = s.cfg.divider.toNat + 1
  sameLength : s.mon.N = s.cfg.lastLed.toNat + 1
  lengths : ∀ f ∈ fs, f.length = s.mon.N
  queued : s.env.stream = queuedFrames fs
  between : s.betweenFrames
  registers : ChainInv s

/-- Every sticky flag of a kind says that the kind is in `violLog` (R174, R171). -/
abbrev State.FlagsMatchLog (s : State) : Prop :=
  (s.enc.seqErr = true ↔ ∃ e ∈ s.log.viols, e.diag.code = 0) ∧
  (s.mon.flagBitPeriod = true ↔ ∃ e ∈ s.log.viols, e.diag.code = 1) ∧
  (s.mon.flagUnclassifiable = true ↔ ∃ e ∈ s.log.viols, e.diag.code = 2) ∧
  (s.mon.flagMissedLoad = true ↔ ∃ e ∈ s.log.viols, e.diag.code = 3) ∧
  (s.chain.flagFrameLength = true ↔ ∃ e ∈ s.log.viols, e.diag.code = 4)

end Sys2Proof.Machine
end

