-- ==== Sys2Proof/Certificates/Slice0/Obligations.lean ====
section
/-! DEFINITION. The statements for the provers, each a rule of spec/ or the sections its docstring names. -/

open Sys2Proof Sys2Proof.Machine

/-! ### Encoding -/

/-- Log 2's encoding drops nothing: under well-formed parameters, decoding what `encode` writes gives the operation back. -/
def Obligations.DecodeOfEncode : Prop :=
  ∀ (p : Params) (i : Instr), p.wf = true → i.wellFormed p = true → decode p (encode p i) = .ok i

/-- No two stimuli stand for one operation, and what decodes is well formed: the decoder accepts exactly the encoder's words. The
encoding is the model's (log 2). -/
def Obligations.EncodeOfDecode : Prop :=
  ∀ (p : Params) (bs : List Byte) (i : Instr), p.wf = true → decode p bs = .ok i →
    encode p i = bs ∧ i.wellFormed p = true

/-- Words written out from R71, R72, R75 and R76: the two cells, the pixel (128, 64, 32) as 0x408020 on the wire and as 0x00204080 in a
pixel register, and the configuration write 0x00020002. The tags, the register offset as one byte after the value, and which register a
32-bit value is for, are the model's (log 2, log 3). -/
def Obligations.WordsFromTheSpec : Prop :=
  decodeTableWord 8 0b100 = some (.cellBit0 0) ∧
  decodeTableWord 8 0b110 = some (.cellBit1 0) ∧
  decodeTableWord 24 0x408020 = some (.wordPixel { red := 128, green := 64, blue := 32 } 0) ∧
  decodeTableWord 32 0x00204080 = some (.regPixel 0 0x00204080) ∧
  decode Params.suggested [64, 0x02, 0x00, 0x02, 0x00, 0] = .ok (.regfWrCfg 0x00020002) ∧
  decode Params.suggested [64, 0x80, 0x40, 0x20, 0x00, 3] = .ok (.regfWrPix 2 0x00204080) ∧
  decode Params.suggested [64, 0xFF, 0xFF, 0xFF, 0x00, 9] = .ok (.regfWrNone 9 0x00FFFFFF)

/-- R150: a write's operation is the one its offset selects, for every offset and value. The stimulus of a write is the model's (log 2). -/
def Obligations.OffsetSelectsTheWrite : Prop :=
  ∀ (p : Params) (offset : Nat) (v : RegValue), p.wf = true →
    (offset = 0 → decode p (writeBytes offset v) = .ok (.regfWrCfg v)) ∧
    (∀ k, p.pixRegOffset k = some offset → decode p (writeBytes offset v) = .ok (.regfWrPix k v)) ∧
    (offset ≠ 0 → (∀ k, p.pixRegOffset k ≠ some offset) →
      decode p (writeBytes offset v) = .ok (.regfWrNone offset v))

/-! ### The step -/

/-- An input that is due is delivered: `step` is `exec` of the decoded operation at the state without that input and with the last step's
outputs gone (R39). With none due, `step` is one tick (R84). Bytes that are no operation are refused by name. That inputs wait in a list
is the model's (log 4). -/
def Obligations.StepRunsTheDecoded : Prop :=
  ∀ (s : State),
    (∀ (p : Pending) (rest : List Pending) (i : Instr), s.env.pending = p :: rest → p.due ≤ s.tick →
      decode s.env.par p.bytes = .ok i →
      step s = exec i { s with out := ReportOut.none, env := { s.env with pending := rest } }) ∧
    (∀ (p : Pending) (rest : List Pending) (e : DecodeError), s.env.pending = p :: rest → p.due ≤ s.tick →
      decode s.env.par p.bytes = .error e → step s = .refused (.undecodable e)) ∧
    ((∀ p ∈ s.env.pending.head?, s.tick < p.due) → step s = tick { s with out := ReportOut.none })

/-- R157: one tick's effect, agent by agent, from the state before it. The encoder's is that of the operation R100 selects. The monitor's
and the chain's are those of the report `(t, wire(t))` when attached, `t` on the monitor's own count (log 24), and its diagnostics of the
tick are logged before the encoder's (R173). The item transferred (R63) leaves the external producer's queue or the facade's holding
register, which the first waiting pixel write then fills (R153, R157 step 4). The configuration register stays. The composition rests on
the spec's decisions D31 and D35, the queue on log 14, the waiting writes on D24 and log 11. -/
def Obligations.TickComposesTheAgents : Prop :=
  ∀ s t : State, tick s = .next t →
    t.tick = s.tick + 1 ∧
    (∃ u, exec (encOp s) s = .next u ∧ t.enc = u.enc ∧
      (s.env.par.attached = false → t.mon = s.mon ∧ t.chain = s.chain ∧ t.out = s.out ∧ t.log = u.log) ∧
      (s.env.par.attached = true → ∃ r, exec (.report s.reportTime s.wire) s = .next r ∧ t.mon = r.mon ∧ t.chain = r.chain ∧
        t.out = r.out ∧ t.log.frames = r.log.frames ∧
        ∃ l, u.log.viols = s.log.viols ++ l ∧ t.log.viols = r.log.viols ++ l)) ∧
    t.cfg = s.cfg ∧
    t.env.stream = (if s.transfers = true ∧ s.hold.valid = false then s.env.stream.tail else s.env.stream) ∧
    (s.hold.valid = true → s.ready = false → t.hold = s.hold ∧ t.env.held = s.env.held) ∧
    (s.hold.valid = false ∨ s.ready = true →
      (s.env.held = [] → t.hold = { s.hold with valid := false } ∧ t.env.held = []) ∧
      (∀ w rest, s.env.held = w :: rest →
        t.hold = { valid := true, item := pixelItem w.k w.v s } ∧ t.env.held = rest)) ∧
    t.env.par = s.env.par ∧ t.env.pending = s.env.pending ∧ t.env.producer = s.env.producer

/-- R100: the encoder never blocks. A tick has a next state whenever its report, if there is one, is in order (R131). A late report has
no step by the spec's decision D28. -/
def Obligations.TickAlwaysRuns : Prop :=
  ∀ s : State, (s.env.par.attached = true → s.mon.lastTs ≤ s.reportTime) → ∃ t, tick s = .next t

/-! ### Invariants -/

/-- The invariants hold at reset: R43 whole, the ranges of the counters, sixteen registers, one producer (log 13), flags that match the
log, and a monitor between frames. -/
def Obligations.ResetMeetsTheInvariants : Prop :=
  State.reset.Inv ∧ State.reset.PendingHasBits ∧ State.reset.MeetsR43 ∧ State.reset.FlagsMatchLog ∧ State.reset.betweenFrames

/-- R43 whole, R27, R155 and the ranges of R22 to R26 and R34 are kept by every step. One producer rests on D24 (log 13); that a direct
CHAIN.LOAD leaves nothing pending, on which R43's `dec_pending` clause rests, is deduced (log 22). The steps include a SYS.RESET, which
keeps the producer (log 12) and may leave the monitor alone (log 24). -/
def Obligations.StepKeepsInvariants : Prop :=
  ∀ s t : State, s.Inv → step s = .next t → t.Inv

/-- R43, every clause of it: it holds in every state that meets the invariant and after every step from one, whatever the step delivers.
The clause `dec_pending = 1` implies `bitsSinceLoad >= 1` is kept by every step for itself, a direct CHAIN.LOAD leaving nothing pending
(deduced, log 22). The steps include a SYS.RESET that leaves the monitor alone (log 24). -/
def Obligations.StepKeepsR43 : Prop :=
  (∀ s : State, s.Inv → s.MeetsR43) ∧
  ∀ s t : State, step s = .next t → (s.PendingHasBits → t.PendingHasBits) ∧ (s.Inv → t.MeetsR43)

/-- R174, R185: every step keeps "a kind's sticky flag is set exactly when the kind is in `violLog`". Derived from R174; the flags rest
on the spec's decision D19. The steps include a SYS.RESET that leaves the monitor alone; of that one it holds by the model's choice
alone (log 24): `violLog` loses its entries of code 0 only, and the monitor's flags stay. -/
def Obligations.StepKeepsFlagsMatchLog : Prop :=
  ∀ s t : State, s.FlagsMatchLog → step s = .next t → t.FlagsMatchLog

/-- R185, R38: only SYS.RESET clears a sticky flag, and only SYS.RESET shortens a history; the monitor's flags and the frames only
by one that reaches the monitor (log 24). SYS.RESET rests on the spec's decision D7. -/
def Obligations.OnlyResetClearsFlags : Prop :=
  ∀ s t : State, step s = .next t →
    (¬ s.delivers .sysReset → (s.enc.seqErr = true → t.enc.seqErr = true) ∧ ∃ l, t.log.viols = s.log.viols ++ l) ∧
    (¬ s.deliversMonitorReset →
      (s.mon.flagBitPeriod = true → t.mon.flagBitPeriod = true) ∧
      (s.mon.flagUnclassifiable = true → t.mon.flagUnclassifiable = true) ∧
      (s.mon.flagMissedLoad = true → t.mon.flagMissedLoad = true) ∧
      (s.chain.flagFrameLength = true → t.chain.flagFrameLength = true) ∧
      (s.mon.cfgReject = true → t.mon.cfgReject = true) ∧ ∃ l, t.log.frames = s.log.frames ++ l)

/-- R117, R185: `E_FAULT` is left by SYS.RESET alone; there the wire is low and `ready` is 0. The fault state rests on the spec's
decisions D7 and D9. -/
def Obligations.FaultIsAbsorbing : Prop :=
  ∀ s t : State, step s = .next t → s.enc.phase = .fault → ¬ s.delivers .sysReset →
    t.enc = s.enc ∧ s.wire = false ∧ s.ready = false

/-- R35: once left, `D_IDLE` is entered again only by a reset of the monitor. SYS.RESET rests on the spec's decision D7, that it may
leave the monitor alone on log 24. -/
def Obligations.DecoderIdleOnlyByReset : Prop :=
  ∀ s t : State, step s = .next t → ¬ s.deliversMonitorReset → t.mon.phase = .idle → s.mon.phase = .idle

/-- U1, R105, R145: the encoder's active configuration changes only from `E_IDLE`, to that of `cfg`, and the monitor's only when it is
quiescent, but by SYS.RESET; the parameters of the run never change (R45). Deferral and rejection are the spec's decisions D11 and D12,
that a SYS.RESET may leave the monitor alone is log 24. -/
def Obligations.ConfigurationChangesBetweenFrames : Prop :=
  ∀ s t : State, step s = .next t →
    (¬ s.delivers .sysReset → (t.enc.S ≠ s.enc.S ∨ t.enc.N ≠ s.enc.N) → s.enc.phase = .idle ∧
      t.enc.S = s.cfg.divider.toNat + 1 ∧ t.enc.N = s.cfg.lastLed.toNat + 1) ∧
    (¬ s.deliversMonitorReset → (t.mon.S ≠ s.mon.S ∨ t.mon.N ≠ s.mon.N) →
      s.mon.pending = false ∧ s.chain.bitsSinceLoad = 0 ∧ s.mon.phase ≠ .high) ∧
    t.env.par = s.env.par

/-- R61: each agent's state is written by that agent's operations only; no operation but SYS.RESET moves the tick number or the
parameters. `cfg` is the configuration writes', `enc` the encoder's, `chain` and `mon` those of a report, of CHAIN and of MON.CONFIG. A
direct CHAIN.LOAD is a joint step of CHAIN and DEC, which clears `dec_pending` and writes no more of `mon` (deduced, log 22). The rows
that are formats count for the agent that takes them (log 1). -/
def Obligations.SingleOwner : Prop :=
  ∀ (i : Instr) (s t : State), s.env.par.wf = true → exec i s = .next t → i ≠ .sysReset →
    (t.cfg ≠ s.cfg → ∃ v, i = .regConfig v ∨ i = .regfWrCfg v) ∧
    (t.hold ≠ s.hold → i = .regfXfer ∨ ∃ k v, i = .regPixel k v ∨ i = .regfWrPix k v) ∧
    (t.enc ≠ s.enc → i.isEnc = true) ∧
    (t.chain ≠ s.chain → i.isReport = true ∨ i = .chainLoad ∨ ∃ b, i = .chainShift b) ∧
    (t.mon ≠ s.mon → i.isReport = true ∨ (∃ d l, i = .monConfig d l) ∨
      (i = .chainLoad ∧ t.mon = { s.mon with pending := false })) ∧
    t.tick = s.tick ∧ t.env.par = s.env.par ∧ t.env.pending = s.env.pending

/-- R128: registers outside the chain keep their value under every operation but a SYS.RESET that reaches the monitor (log 24). The
formats as operations are log 1; a direct SHIFT or LOAD before any MON.CONFIG, with `mon_N` as it stands, is log 19. -/
def Obligations.RegistersOutsideChainKept : Prop :=
  ∀ (i : Instr) (s t : State) (k : Nat), exec i s = .next t → (i = .sysReset → s.env.par.resetsMonitor = false) →
    ChainInv s → s.mon.N ≤ k →
    t.chain.acc.getD k 0 = s.chain.acc.getD k 0 ∧ t.chain.lat[k]? = s.chain.lat[k]?

/-! ### The encoder -/

/-- R100: at every state exactly one operation of ENC has a step, the item it carries (if any) being the one on the stream inputs.
Derived, as R100 says, from R105 to R118. -/
def Obligations.ExactlyOneEncoderOperation : Prop :=
  ∀ (s : State) (i : Instr), i.isEnc = true → (encOperand i = none ∨ encOperand i = s.presented) →
    ((∃ t, exec i s = .next t) ↔ i = encOp s)

/-- The frame of the encoder's operations: nothing of another agent changes, and only ENC.REJECT writes a history, one entry of code 0
(R61, R183). Derived from R105 to R118. -/
def Obligations.EncoderOperationsFrame : Prop :=
  ∀ (i : Instr) (s t : State), i.isEnc = true → exec i s = .next t →
    t.cfg = s.cfg ∧ t.hold = s.hold ∧ t.chain = s.chain ∧ t.mon = s.mon ∧ t.out = s.out ∧ t.tick = s.tick ∧ t.env = s.env ∧
    t.log.frames = s.log.frames ∧
    ((∀ it, i ≠ .encReject it) → t.log = s.log ∧ t.enc.seqErr = s.enc.seqErr) ∧
    (∀ it, i = .encReject it → ∃ e, e.diag.code = 0 ∧ t.log.viols = s.log.viols ++ [e])

/-- R101, R102: the three cases of `ready`, which does not depend on `s_valid`, and the one of `wire`. `ready` as a level is the spec's
decision D32. -/
def Obligations.ReadyAndWire : Prop :=
  ∀ s : State,
    (s.ready = true ↔ (s.enc.phase = .idle ∧ s.cfg.isSet = true) ∨
      (s.enc.phase = .low ∧ s.enc.tmr = 0 ∧ s.enc.cnt = 0 ∧ s.enc.last = false) ∨ s.enc.phase = .wait) ∧
    (∀ (h : HoldReg) (e : Env), ({ s with hold := h, env := e } : State).ready = s.ready) ∧
    (s.wire = true ↔ s.enc.phase = .high)

/-- R63, R101: a transfer ends in `E_HIGH` or `E_FAULT`, where `ready` is 0. Rests on the spec's decision D32. -/
def Obligations.TransferEndsReady : Prop :=
  ∀ s t : State, s.transfers = true → exec (encOp s) s = .next t →
    (t.enc.phase = .high ∨ t.enc.phase = .fault) ∧ t.ready = false

/-- R107, R110, R116: the three timed phases count down, the wire high in the first and low in the others, with nothing accepted in the
gap. -/
def Obligations.TimedPhasesCountDown : Prop :=
  ∀ s : State, 0 < s.enc.tmr →
    (s.enc.phase = .high → s.wire = true ∧
      exec .encHighTick s = .next { s with enc := { s.enc with tmr := s.enc.tmr - 1 } }) ∧
    (s.enc.phase = .low → s.wire = false ∧
      exec .encLowTick s = .next { s with enc := { s.enc with tmr := s.enc.tmr - 1 } }) ∧
    (s.enc.phase = .gap → s.wire = false ∧ s.ready = false ∧
      exec .encGapTick s = .next { s with enc := { s.enc with tmr := s.enc.tmr - 1 } })

/-- R108: at the last high tick the low part of the cell begins, `(2 - b) * enc_S` ticks long. -/
def Obligations.HighPartEnds : Prop :=
  ∀ s : State, s.enc.phase = .high → s.enc.tmr = 0 →
    exec .encHighEnd s = .next { s with enc := { s.enc with
      phase := .low, tmr := (2 - (s.enc.word.getLsbD 23).toNat) * s.enc.S - 1 } }

/-- R109: at the last low tick of a cell the next bit's cell begins. -/
def Obligations.NextBitBegins : Prop :=
  ∀ s : State, s.enc.phase = .low → s.enc.tmr = 0 → 0 < s.enc.cnt →
    exec .encNextBit s = .next { s with enc := { s.enc with
      word := s.enc.word <<< 1, cnt := s.enc.cnt - 1, phase := .high,
      tmr := (1 + (s.enc.word.getLsbD 22).toNat) * s.enc.S - 1 } }

/-- R105 with R104: the first item of a frame takes the configuration and begins its pixel. Taking the configuration here is the spec's
decision D11. -/
def Obligations.FirstItemAccepted : Prop :=
  ∀ (s : State) (it : Item), s.enc.phase = .idle → s.cfg.isSet = true → it.pos = 0 → it.first = true →
    it.last = decide (s.cfg.lastLed = 0) →
    exec (.encAcceptFirst it) s = .next { s with enc := {
      S := s.cfg.divider.toNat + 1, N := s.cfg.lastLed.toNat + 1, phase := .high,
      word := it.green ++ it.red ++ it.blue, cnt := 23, last := it.last, expPos := if it.last then 0 else 1,
      tmr := (1 + (it.green.getLsbD 7).toNat) * (s.cfg.divider.toNat + 1) - 1, seqErr := s.enc.seqErr } }

/-- R111 with R104: a later item begins its pixel, with the active configuration kept, at the end of the pixel before or after a wait. -/
def Obligations.NextItemAccepted : Prop :=
  ∀ (s : State) (it : Item),
    ((s.enc.phase = .low ∧ s.enc.tmr = 0 ∧ s.enc.cnt = 0 ∧ s.enc.last = false) ∨ s.enc.phase = .wait) →
    it.pos.toNat = s.enc.expPos → it.first = decide (it.pos = 0) → it.last = decide (it.pos.toNat = s.enc.N - 1) →
    exec (.encAcceptNext it) s = .next { s with enc := { s.enc with
      phase := .high, word := it.green ++ it.red ++ it.blue, cnt := 23, last := it.last,
      expPos := if it.last then 0 else it.pos.toNat + 1,
      tmr := (1 + (it.green.getLsbD 7).toNat) * s.enc.S - 1 } }

/-- R112, R166: an item that is not ok is not sent, and the encoder enters `E_FAULT`. The expected position and the length are those of
the new configuration in `E_IDLE`, of the active one elsewhere; the entry records the tick, both positions and both flags. In its tick the
item is taken: it leaves the producer's queue or the holding register (R63). Named by a stimulus the operation is ENC's half alone (log 16).
`E_FAULT` and the check of the flags are the spec's decisions D9 and D25. -/
def Obligations.BadItemRejected : Prop :=
  ∀ (s : State) (it : Item) (N exp : Nat), s.ready = true →
    (s.enc.phase = .idle → N = s.cfg.lastLed.toNat + 1 ∧ exp = 0) →
    (s.enc.phase ≠ .idle → N = s.enc.N ∧ exp = s.enc.expPos) →
    ¬ (it.pos.toNat = exp ∧ it.first = decide (it.pos.toNat = 0) ∧ it.last = decide (it.pos.toNat = N - 1)) →
    ∃ t, exec (.encReject it) s = .next t ∧
      t.log.viols = s.log.viols ++ [{ ts := some s.tick, diag := .protocolSequence exp it.pos.toNat it.first it.last }] ∧
      t.enc = { s.enc with
        seqErr := true, phase := .fault,
        S := if s.enc.phase = .idle then s.cfg.divider.toNat + 1 else s.enc.S,
        N := if s.enc.phase = .idle then s.cfg.lastLed.toNat + 1 else s.enc.N } ∧
      t.wire = false ∧ t.ready = false ∧
      (∀ u, s.presented = some it → tick s = .next u → u.enc = t.enc ∧
        (s.hold.valid = false → u.env.stream = s.env.stream.tail) ∧
        (s.hold.valid = true → s.env.held = [] → u.hold.valid = false))

/-- R106, R113, R114, R117: the operations that wait write nothing, and ENC.UNDERRUN only enters `E_WAIT`. `E_WAIT` is the spec's
decision D10. -/
def Obligations.EncoderWaits : Prop :=
  ∀ s : State,
    (s.enc.phase = .idle → (s.cfg.isSet = false ∨ s.presented = none) → exec .encIdleHold s = .next s) ∧
    (s.enc.phase = .low → s.enc.tmr = 0 → s.enc.cnt = 0 → s.enc.last = false → s.presented = none →
      exec .encUnderrun s = .next { s with enc := { s.enc with phase := .wait } }) ∧
    (s.enc.phase = .wait → s.presented = none → exec .encWaitHold s = .next s) ∧
    (s.enc.phase = .fault → exec .encFaultHold s = .next s)

/-- R115, R118: after the last cell of the last pixel the machine is in the gap for exactly `120 * enc_S` ticks, by the active sub-period
whatever `cfg` holds, with the wire low and `ready` 0; then it is in `E_IDLE` with position 0 expected, and the first item of a new frame
can be accepted. `ready` is 0 at the tick that begins the gap, too. -/
def Obligations.GapBeginsAndEnds : Prop :=
  ∀ s : State, s.enc.tmr = 0 →
    (s.enc.phase = .low → s.enc.cnt = 0 → s.enc.last = true → s.ready = false ∧
      exec .encGapStart s = .next { s with enc := { s.enc with phase := .gap, tmr := 120 * s.enc.S - 1 } }) ∧
    (s.enc.phase = .gap → s.ready = false ∧ exec .encGapEnd s = .next { s with enc := { s.enc with phase := .idle } }) ∧
    (s.enc.phase = .low → s.enc.cnt = 0 → s.enc.last = true → EncInv s → s.env.pending = [] →
      (s.env.par.attached = true → s.mon.lastTs ≤ s.reportTime) →
      (∀ k < 120 * s.enc.S, ∃ t, core.run (1 + k) s = .next t ∧ t.enc.phase = .gap ∧ t.wire = false ∧ t.ready = false) ∧
      ∃ t, core.run (1 + 120 * s.enc.S) s = .next t ∧ t.enc.phase = .idle ∧ t.enc.expPos = 0 ∧ t.ready = s.cfg.isSet)

/-- R73 with R71, as R119 places them: from the tick a pixel's first cell begins, the machine runs, and tick by tick the wire is that of
24 cells of `word[23]`, ..., `word[0]`, each `3 * S` ticks, high for `(1 + b) * S` of them. The encoder's ticks rest on the spec's
decision D15. -/
def Obligations.PixelOnTheWire : Prop :=
  ∀ s : State, s.env.pending = [] → (s.env.par.attached = true → s.mon.lastTs ≤ s.reportTime) → 1 ≤ s.enc.S →
    s.enc.phase = .high → s.enc.cnt = 23 → s.enc.tmr = (1 + (s.enc.word.getLsbD 23).toNat) * s.enc.S - 1 →
    ∀ j k : Nat, j < 24 → k < 3 * s.enc.S → ∃ t, core.run (3 * s.enc.S * j + k) s = .next t ∧
      t.wire = decide (k < (1 + (s.enc.word.getLsbD (23 - j)).toNat) * s.enc.S) ∧
      (t.ready = true ↔ j = 23 ∧ k = 3 * s.enc.S - 1 ∧ s.enc.last = false)

/-! ### The shift chain -/

/-- R121, R122: one shift, register by register, and the bit displaced from the last active register. That a shift invoked before any
MON.CONFIG does the same, with `mon_N` as it stands, is the model's choice (log 19). -/
def Obligations.ShiftMovesOneBit : Prop :=
  ∀ (s : State) (b : Bool), 1 ≤ s.mon.N → s.mon.N ≤ s.chain.acc.length →
    ∃ t, exec (.chainShift b) s = .next t ∧
      (∀ k < s.mon.N, t.chain.acc.getD k 0 = (s.chain.acc.getD k 0 <<< 1) |||
        (if (if k = 0 then b else (s.chain.acc.getD (k - 1) 0).getLsbD 23) then 1 else 0)) ∧
      (∀ k, s.mon.N ≤ k → t.chain.acc.getD k 0 = s.chain.acc.getD k 0) ∧
      t.chain.acc.length = s.chain.acc.length ∧
      t = { s with chain := { s.chain with acc := t.chain.acc, bitsSinceLoad := s.chain.bitsSinceLoad + 1 } } ∧
      (shiftChain b s).1 = (s.chain.acc.getD (s.mon.N - 1) 0).getLsbD 23

/-- R123, R124, R125: the active latches copy their accumulators, the frame is the latches in reverse, it is complete exactly at
`24 * N` bits, and otherwise FrameLengthError is raised, with its flag and its bit of `viol` (R165, R174); the accumulators stay. The latch
of a partial frame is the spec's decision D8, flags and codes are D19; the entries without a timestamp, and `frame_valid` unset, are
log 9, that nothing is pending afterwards is deduced (log 22), and a load invoked before any MON.CONFIG is log 19. -/
def Obligations.LoadLatchesTheFrame : Prop :=
  ∀ s : State, ChainInv s → 1 ≤ s.mon.N → s.mon.N ≤ 16 →
    ∃ (t : State) (f : List Pixel), exec .chainLoad s = .next t ∧
      (∀ k < s.mon.N, t.chain.lat[k]? = some {
        green := (s.chain.acc.getD k 0).extractLsb' 16 8, red := (s.chain.acc.getD k 0).extractLsb' 8 8,
        blue := (s.chain.acc.getD k 0).extractLsb' 0 8 }) ∧
      (∀ k, s.mon.N ≤ k → t.chain.lat[k]? = s.chain.lat[k]?) ∧
      t.chain.acc = s.chain.acc ∧ t.chain.bitsSinceLoad = 0 ∧
      f.length = s.mon.N ∧ (∀ i < s.mon.N, f[i]? = t.chain.lat[s.mon.N - 1 - i]?) ∧
      t.log.frames = s.log.frames ++
        [{ ts := none, frame := f, complete := decide (s.chain.bitsSinceLoad = 24 * s.mon.N) }] ∧
      t.out.frame = f ∧ t.out.frameComplete = decide (s.chain.bitsSinceLoad = 24 * s.mon.N) ∧
      t.out.frameValid = s.out.frameValid ∧
      (s.chain.bitsSinceLoad = 24 * s.mon.N →
        t.log.viols = s.log.viols ∧ t.chain.flagFrameLength = s.chain.flagFrameLength ∧ t.out.viol = s.out.viol) ∧
      (s.chain.bitsSinceLoad ≠ 24 * s.mon.N → t.chain.flagFrameLength = true ∧ t.out.viol = s.out.viol ||| 0b1000 ∧
        t.log.viols = s.log.viols ++ [{ ts := none, diag := .frameLength s.chain.bitsSinceLoad (24 * s.mon.N) }]) ∧
      t.cfg = s.cfg ∧ t.enc = s.enc ∧ t.hold = s.hold ∧ t.mon = { s.mon with pending := false } ∧
      t.tick = s.tick ∧ t.env = s.env

/-- R126: a second load with no shift between emits the same values, marked not complete, with FrameLengthError of 0 bits; and DEC never
issues one, for where R43 holds its latch has a bit to load (U15). A latch of a partial frame is the spec's decision D8; no timestamp is
log 9; loads invoked before any MON.CONFIG are log 19. -/
def Obligations.SecondLoadChangesNoValue : Prop :=
  (∀ s t u : State, ChainInv s → 1 ≤ s.mon.N → s.mon.N ≤ 16 → exec .chainLoad s = .next t → exec .chainLoad t = .next u →
    u.chain.lat = t.chain.lat ∧ u.chain.acc = t.chain.acc ∧ u.out.frame = t.out.frame ∧ u.out.frameComplete = false ∧
    u.log.viols = t.log.viols ++ [{ ts := none, diag := .frameLength 0 (24 * s.mon.N) }]) ∧
  (∀ (s t : State) (ts : Nat) (level : Bool), s.PendingHasBits → exec (.decTimeout ts level) s = .next t →
    1 ≤ s.chain.bitsSinceLoad ∧ t.chain.bitsSinceLoad = 0 ∧
    t.log.viols = s.log.viols ++ (if s.chain.bitsSinceLoad = 24 * s.mon.N then [] else
      [{ ts := some ts, diag := .frameLength s.chain.bitsSinceLoad (24 * s.mon.N) }]))

/-- R127: from any content, the bits of `N` words shifted in order leave word `i` in register `N - 1 - i`. Derived, as R127 says, from
R121. Shifts invoked before any MON.CONFIG are log 19. -/
def Obligations.FullFrameLandsInChain : Prop :=
  ∀ (s : State) (ws : List PixelWord), ws.length = s.mon.N → s.mon.N ≤ s.chain.acc.length →
    ∃ t, execAll ((ws.flatMap wordBits).map .chainShift) s = .next t ∧
      t.chain.bitsSinceLoad = s.chain.bitsSinceLoad + 24 * s.mon.N ∧
      ∀ i < s.mon.N, t.chain.acc[s.mon.N - 1 - i]? = ws[i]?

/-! ### The monitor -/

/-- R131: a report with `ts < dec_lastTs` is refused, by REPORT and by every operation of DEC that is given one. Refusing is the spec's
decision D28. -/
def Obligations.LateReportRefused : Prop :=
  ∀ (s : State) (ts : Nat) (level : Bool), ts < s.mon.lastTs →
    ∀ i ∈ [Instr.report ts level, .decIgnore ts level, .decTimeout ts level, .decRise ts level, .decFall0 ts level,
      .decFall1 ts level, .decFallX ts level, .decHold ts level],
      exec i s = .refused (.reportOutOfOrder ts s.mon.lastTs)

/-- R130, R143: a report in order always has a next state, and it is the work of the sub-steps R130 names, in its order: DEC.IGNORE alone
when the monitor is not configured, else the latch if it is due and then exactly one operation of sub-step 2, which sees what the latch
leaves. The order is the spec's decision D17; the sub-steps as operations of their own are log 7. -/
def Obligations.ReportRunsItsSubSteps : Prop :=
  ∀ (s : State) (ts : Nat) (level : Bool), s.mon.lastTs ≤ ts →
    (s.mon.cfgSet = false → exec (.report ts level) s = .next s ∧ exec (.decIgnore ts level) s = .next s) ∧
    (s.mon.cfgSet = true → ∃ s0 s1 t : State,
      s0 = { s with out := ReportOut.none, mon := { s.mon with lastTs := ts } } ∧
      ((s0.mon.phase = .low ∧ s0.mon.pending = true ∧ 120 * s0.mon.S < ts - s0.mon.fallTs ∧
          exec (.decTimeout ts level) s0 = .next s1) ∨
        (¬ (s0.mon.phase = .low ∧ s0.mon.pending = true ∧ 120 * s0.mon.S < ts - s0.mon.fallTs) ∧ s1 = s0)) ∧
      exec (edgeOp ts level s1) s1 = .next t ∧
      (∀ i ∈ [Instr.decRise ts level, .decFall0 ts level, .decFall1 ts level, .decFallX ts level, .decHold ts level],
        (∃ u, exec i s1 = .next u) ↔ i = edgeOp ts level s1) ∧
      exec (.report ts level) s = .next t)

/-- R133: when the low time exceeds `120 * S` with bits pending, the frame is latched and nothing is pending, so that the operation is not
selected again; a low time of exactly `120 * S`, or less, does not latch. That DEC.TIMEOUT taken for itself writes `dec_lastTs` is the
model's (log 7), the refusal of an operation not selected is log 5, the latch of a partial frame is the spec's decision D8, and flags and
codes are D19. -/
def Obligations.TimeoutLatches : Prop :=
  ∀ (s : State) (ts : Nat) (level : Bool), s.mon.lastTs ≤ ts → s.mon.fallTs ≤ ts → s.mon.cfgSet = true → s.mon.phase = .low →
    s.mon.pending = true → ChainInv s → 1 ≤ s.mon.N → s.mon.N ≤ 16 →
    (ts - s.mon.fallTs ≤ 120 * s.mon.S → exec (.decTimeout ts level) s = .refused (.notSelected "DEC.TIMEOUT")) ∧
    (120 * s.mon.S < ts - s.mon.fallTs → ∃ t, exec (.decTimeout ts level) s = .next t ∧
      t.mon = { s.mon with pending := false, lastTs := ts } ∧ t.out.frameValid = true ∧ t.chain.bitsSinceLoad = 0 ∧
      t.chain.acc = s.chain.acc ∧ t.out.frame.length = s.mon.N ∧
      (∀ i < s.mon.N, t.out.frame[i]? = t.chain.lat[s.mon.N - 1 - i]? ∧
        t.chain.lat[i]? = (s.chain.acc[i]?).map unpackWord) ∧
      (∀ k, s.mon.N ≤ k → t.chain.lat[k]? = s.chain.lat[k]?) ∧
      t.log.frames = s.log.frames ++ [{ ts := some ts, frame := t.out.frame, complete := t.out.frameComplete }] ∧
      t.out.frameComplete = decide (s.chain.bitsSinceLoad = 24 * s.mon.N) ∧
      t.out.viol = s.out.viol ||| (if s.chain.bitsSinceLoad = 24 * s.mon.N then 0 else 0b1000) ∧
      t.log.viols = s.log.viols ++ (if s.chain.bitsSinceLoad = 24 * s.mon.N then [] else
        [{ ts := some ts, diag := .frameLength s.chain.bitsSinceLoad (24 * s.mon.N) }]) ∧
      t.chain.flagFrameLength = (s.chain.flagFrameLength || !decide (s.chain.bitsSinceLoad = 24 * s.mon.N)) ∧
      exec (.decTimeout ts level) t = .refused (.notSelected "DEC.TIMEOUT") ∧
      t.cfg = s.cfg ∧ t.enc = s.enc ∧ t.hold = s.hold ∧ t.tick = s.tick ∧ t.env = s.env)

/-- R133, R64: one gap, one load. However many reports of a low wire come in a row, at most one latches, none with nothing pending, and
after the latch nothing is pending; the latch comes once a report finds the low time above `120 * S`. Derived from R133. -/
def Obligations.OneGapOneLoad : Prop :=
  ∀ (s u : State) (tss : List Nat), s.mon.phase ≠ .high →
    execAll (tss.map fun ts => .report ts false) s = .next u →
    u.mon.phase ≠ .high ∧ u.log.frames.length ≤ s.log.frames.length + 1 ∧
    (s.mon.pending = false → u.log.frames = s.log.frames ∧ u.mon.pending = false) ∧
    (u.log.frames ≠ s.log.frames → u.mon.pending = false) ∧
    (s.mon.cfgSet = true → s.mon.phase = .low → s.mon.pending = true →
      (∃ ts ∈ tss, 120 * s.mon.S < ts - s.mon.fallTs) →
      u.log.frames.length = s.log.frames.length + 1 ∧ u.mon.pending = false)

/-- R134, R135, R136: a rising edge. From `D_LOW` with bits pending the two checks raise their diagnostics in order; nothing else of the
chain or the pending flag changes. That DEC.RISE taken for itself writes `dec_lastTs` is the model's (log 7); flags and bits of
`viol` are the spec's decision D19. -/
def Obligations.RisingEdge : Prop :=
  ∀ (s : State) (ts : Nat), s.mon.lastTs ≤ ts → s.mon.riseTs ≤ ts → s.mon.cfgSet = true → s.mon.phase ≠ .high →
    ∃ (t : State) (bad missed : Bool), exec (.decRise ts true) s = .next t ∧
      (bad = true ↔ s.mon.phase = .low ∧ s.mon.pending = true ∧
        (s.mon.S : Int) < 10 * |((ts : Int) - s.mon.riseTs) - 3 * s.mon.S|) ∧
      (missed = true ↔ s.mon.phase = .low ∧ s.mon.pending = true ∧ 5 * (s.mon.S : Int) < (ts : Int) - s.mon.riseTs) ∧
      (missed = true → bad = true) ∧
      t.mon = { s.mon with
        riseTs := ts, phase := .high, lastTs := ts,
        flagBitPeriod := s.mon.flagBitPeriod || bad, flagMissedLoad := s.mon.flagMissedLoad || missed } ∧
      t.log.viols = s.log.viols ++ (if bad then [{ ts := some ts, diag := .bitPeriod (ts - s.mon.riseTs) }] else []) ++
        (if missed then [{ ts := some ts, diag := .missedLoad (ts - s.mon.riseTs) }] else []) ∧
      t.out = { s.out with
        viol := s.out.viol ||| (if bad then 0b0001 else 0) ||| (if missed then 0b0010 else 0) } ∧
      t.chain = s.chain ∧ t.log.frames = s.log.frames ∧ t.cfg = s.cfg ∧ t.enc = s.enc ∧ t.hold = s.hold ∧
      t.tick = s.tick ∧ t.env = s.env

/-- R137, R138, R139: a falling edge of a pulse in the 0 band or the 1 band shifts that bit and makes a load pending. That the operation
taken for itself writes `dec_lastTs` is the model's (log 7); the fall time is the spec's decision D33. -/
def Obligations.ClassifiedPulse : Prop :=
  ∀ (s : State) (ts : Nat) (b : Bool), s.mon.lastTs ≤ ts → s.mon.riseTs ≤ ts → s.mon.cfgSet = true → s.mon.phase = .high →
    10 * |((ts : Int) - s.mon.riseTs) - (if b then 2 else 1) * s.mon.S| ≤ s.mon.S → 1 ≤ s.mon.S →
    exec (if b then .decFall1 ts false else .decFall0 ts false) s = .next { s with
      chain := (shiftChain b s).2.chain
      mon := { s.mon with pending := true, fallTs := ts, phase := .low, lastTs := ts } }

/-- R137, R140, R141: a pulse in neither band raises exactly one UnclassifiablePulse. Under `drop` nothing is shifted and the pending
flag stays; under `nearest` the nearer bit is shifted, the tie `2*h = 3*S` going to 1. `nearest`, its tie and the fall time are the
spec's decisions D4, D29 and D33, flags and bits of `viol` D19; that the operation taken for itself writes `dec_lastTs` is the model's
(log 7). -/
def Obligations.UnclassifiablePulse : Prop :=
  ∀ (s : State) (ts : Nat), s.mon.lastTs ≤ ts → s.mon.riseTs ≤ ts → s.mon.cfgSet = true → s.mon.phase = .high →
    (s.mon.S : Int) < 10 * |((ts : Int) - s.mon.riseTs) - s.mon.S| →
    (s.mon.S : Int) < 10 * |((ts : Int) - s.mon.riseTs) - 2 * s.mon.S| →
    ∃ t, exec (.decFallX ts false) s = .next t ∧
      t.log.viols = s.log.viols ++ [{ ts := some ts, diag := .unclassifiable (ts - s.mon.riseTs) }] ∧
      t.log.frames = s.log.frames ∧ t.out = { s.out with viol := s.out.viol ||| 0b0100 } ∧
      t.cfg = s.cfg ∧ t.enc = s.enc ∧ t.hold = s.hold ∧ t.tick = s.tick ∧ t.env = s.env ∧
      (s.env.par.policy = .drop → t.chain = s.chain ∧
        t.mon = { s.mon with fallTs := ts, phase := .low, lastTs := ts, flagUnclassifiable := true }) ∧
      (s.env.par.policy = .nearest →
        t.chain = (shiftChain (decide (3 * s.mon.S ≤ 2 * (ts - s.mon.riseTs))) s).2.chain ∧
        t.mon = { s.mon with pending := true, fallTs := ts, phase := .low, lastTs := ts, flagUnclassifiable := true })

/-- R132, R142: an ignored report writes nothing; a hold report writes its timestamp and nothing else. The spec's decisions D18 and D27.
That DEC.HOLD taken for itself makes step 0's write is the model's (log 7). -/
def Obligations.IgnoreAndHold : Prop :=
  ∀ (s : State) (ts : Nat) (level : Bool), s.mon.lastTs ≤ ts →
    (s.mon.cfgSet = false → exec (.decIgnore ts level) s = .next s) ∧
    (s.mon.cfgSet = true → (level = true ↔ s.mon.phase = .high) →
      exec (.decHold ts level) s = .next { s with mon := { s.mon with lastTs := ts } })

/-- R148: the diagnostics of one report are one of the five sets, in order, and no kind comes twice. Derived, as R148 says, from R130 to
R140. -/
def Obligations.DiagnosticsOfOneReport : Prop :=
  ∀ (s t : State) (ts : Nat) (level : Bool), exec (.report ts level) s = .next t →
    ∃ l : List ViolEntry, t.log.viols = s.log.viols ++ l ∧
      l.map (fun e => e.diag.code) ∈ [[], [4], [1], [1, 3], [2]]

/-- R12: the integer form of the tolerance is the exact rational comparison. Exact rationals are the spec's decision D13. -/
def Obligations.ToleranceIsExact : Prop :=
  ∀ x k S : Nat, 1 ≤ S →
    (outside x k S = true ↔ (1 / 10 : ℚ) < |(x : ℚ) / S - k|) ∧
    (within x k S = true ↔ |(x : ℚ) / S - k| ≤ (1 / 10 : ℚ))

/-- R80: the two bands never overlap, and for `S < 10` each holds one value. Derived, as R80 says, from R135 and R137. -/
def Obligations.BandsOfAPulse : Prop :=
  ∀ h S : Nat, 1 ≤ S →
    ¬ (zeroBand h S = true ∧ oneBand h S = true) ∧
    (zeroBand h S = true ↔ S - S / 10 ≤ h ∧ h ≤ S + S / 10) ∧
    (oneBand h S = true ↔ 2 * S - S / 10 ≤ h ∧ h ≤ 2 * S + S / 10) ∧
    (S < 10 → (zeroBand h S = true ↔ h = S) ∧ (oneBand h S = true ↔ h = 2 * S))

/-- R147, R33: counters that saturate at 30721 (time) and 385 (bits) make every comparison of the monitor come out the same. Derived, as
R147 says; the spec's decision D3. -/
def Obligations.SaturationIsInvisible : Prop :=
  (∀ x S : Nat, 1 ≤ S → S ≤ 256 →
    latchExceeded (min x 30721) S = latchExceeded x S ∧ missedExceeded (min x 30721) S = missedExceeded x S ∧
    outside (min x 30721) 3 S = outside x 3 S ∧ zeroBand (min x 30721) S = zeroBand x S ∧
    oneBand (min x 30721) S = oneBand x S ∧ nearerBit (min x 30721) S = nearerBit x S) ∧
  (∀ bits N : Nat, N ≤ 16 → (min bits 385 = 24 * N ↔ bits = 24 * N))

/-- R190, the rows without a latch: what the monitor says of a rising edge that comes `d` ticks late. Derived, as R190 says, from R133 to
R136. -/
def Obligations.LateRiseIsReported : Prop :=
  ∀ (s t : State) (d : Nat), s.mon.cfgSet = true → s.mon.phase = .low → s.mon.pending = true →
    s.mon.riseTs + 3 * s.mon.S + d - s.mon.fallTs ≤ 120 * s.mon.S →
    exec (.report (s.mon.riseTs + 3 * s.mon.S + d) true) s = .next t →
    t.chain = s.chain ∧ t.mon.pending = true ∧ t.log.frames = s.log.frames ∧
    t.log.viols = s.log.viols ++ (
      if 10 * d ≤ s.mon.S then []
      else if d ≤ 2 * s.mon.S then
        [{ ts := some (s.mon.riseTs + 3 * s.mon.S + d), diag := .bitPeriod (3 * s.mon.S + d) }]
      else [{ ts := some (s.mon.riseTs + 3 * s.mon.S + d), diag := .bitPeriod (3 * s.mon.S + d) },
        { ts := some (s.mon.riseTs + 3 * s.mon.S + d), diag := .missedLoad (3 * s.mon.S + d) }])

/-- R145: MON.CONFIG is taken when the monitor is quiescent, and otherwise only sets `mon_cfgReject`. The operation and its guard are the
spec's decision D12. -/
def Obligations.MonitorConfiguration : Prop :=
  ∀ (s : State) (d : Byte) (l : BitVec 4),
    (s.mon.pending = false → s.chain.bitsSinceLoad = 0 → s.mon.phase ≠ .high →
      exec (.monConfig d l) s = .next { s with mon := { s.mon with S := d.toNat + 1, N := l.toNat + 1, cfgSet := true } }) ∧
    (¬ (s.mon.pending = false ∧ s.chain.bitsSinceLoad = 0 ∧ s.mon.phase ≠ .high) →
      exec (.monConfig d l) s = .next { s with mon := { s.mon with cfgReject := true } })

/-! ### The facade and the stream -/

/-- R151, R75: a configuration write, as REG.CONFIG and as REGF.WR_CFG, accepted at any time, whatever pixel write waits. Ignored bits are
the spec's decision D22; that it does not wait behind a pixel write is log 11. -/
def Obligations.ConfigurationWrite : Prop :=
  ∀ (s : State) (v : RegValue), ∀ i ∈ [Instr.regConfig v, .regfWrCfg v], exec i s = .next { s with cfg := {
      divider := BitVec.ofNat 8 (v.toNat % 256), lastLed := BitVec.ofNat 4 (v.toNat / 65536 % 16), isSet := true } }

/-- R152, R76: a pixel write at position `k`, as REG.PIXEL and as REGF.WR_PIX. With the holding register free and no write waiting it
makes its item from the value's fields, the position and `cfg.lastLed`; otherwise it waits last and changes nothing else. The holding
register and the waiting are the spec's decision D24 (log 11; log 12 for a free register with writes waiting); one producer is log 13. -/
def Obligations.PixelWrite : Prop :=
  ∀ (s : State) (k : Nat) (v : RegValue), s.env.par.wf = true → k < s.env.par.pixRegCount →
    s.env.producer ≠ some .stream →
    ∀ i ∈ [Instr.regPixel k v, .regfWrPix k v],
      (s.hold.valid = false ∧ s.env.held = [] → exec i s = .next { s with
        hold := { valid := true, item := {
          red := BitVec.ofNat 8 (v.toNat % 256), green := BitVec.ofNat 8 (v.toNat / 256 % 256),
          blue := BitVec.ofNat 8 (v.toNat / 65536 % 256), pos := BitVec.ofNat 4 k, first := decide (k = 0),
          last := decide (k = s.cfg.lastLed.toNat) } }
        env := { s.env with producer := some .facade } }) ∧
      (s.hold.valid = true ∨ s.env.held ≠ [] → exec i s = .next { s with
        env := { s.env with producer := some .facade, held := s.env.held ++ [{ k := k, v := v }] } })

/-- R152, R157 step 4: the pixel write that waits first takes its step at the end of the tick that leaves the holding register free, with
the configuration as it then stands, which no tick changes; the writes behind it wait on. While the register stays full all of them wait.
The spec's decision D24 (log 11). -/
def Obligations.WaitingWriteIsReleased : Prop :=
  ∀ (s t : State) (k : Nat) (v : RegValue) (rest : List HeldWrite), s.env.held = { k := k, v := v } :: rest →
    tick s = .next t →
    t.cfg = s.cfg ∧
    (s.hold.valid = false ∨ s.ready = true → t.env.held = rest ∧ t.hold = { valid := true, item := {
        red := BitVec.ofNat 8 (v.toNat % 256), green := BitVec.ofNat 8 (v.toNat / 256 % 256),
        blue := BitVec.ofNat 8 (v.toNat / 65536 % 256), pos := BitVec.ofNat 4 k, first := decide (k = 0),
        last := decide (k = s.cfg.lastLed.toNat) } }) ∧
    (s.hold.valid = true → s.ready = false → t.env.held = s.env.held ∧ t.hold = s.hold)

/-- R153, R154: a transfer frees the holding register and nothing else; a write at an offset that is no register changes nothing.
That REGF.XFER named by a stimulus is the facade's half alone is the model's (log 26), the place of the pixel registers is a parameter
(D5). -/
def Obligations.TransferAndUnmappedWrite : Prop :=
  ∀ (s : State),
    (s.ready = true → s.hold.valid = true → exec .regfXfer s = .next { s with hold := { s.hold with valid := false } }) ∧
    (∀ (offset : Nat) (v : RegValue), offset ≠ 0 → (∀ k, s.env.par.pixRegOffset k ≠ some offset) →
      exec (.regfWrNone offset v) s = .next s)

/-- R84, R77, R29: an item presented by the external producer joins the end of its queue, and the first queued item is on the stream
inputs from its time on; `valid = 0` takes back what is queued (log 14). In the first case the external producer is recorded as the run's
one producer (R155), so that pixel writes are refused from then on; that record and the condition on it are log 13. -/
def Obligations.ItemPresented : Prop :=
  ∀ (s : State) (it : Item) (t : Nat),
    (s.env.producer ≠ some .facade → ∃ u, exec (.itemStream true it t) s = .next u ∧
      u.env = { s.env with
        producer := some .stream, stream := s.env.stream ++ [{ notBefore := t, item := it }] } ∧
      u = { s with env := u.env } ∧
      (s.env.stream = [] → s.hold.valid = false → u.presented = if t ≤ s.tick then some it else none)) ∧
    exec (.itemStream false it t) s = .next { s with env := { s.env with stream := [] } }

/-- R155: a run that mixes the two producers is refused. The spec's decision D24 (log 13). -/
def Obligations.MixedProducersRefused : Prop :=
  ∀ (s : State) (it : Item) (t k : Nat) (v : RegValue), s.env.par.wf = true → k < s.env.par.pixRegCount →
    (s.env.producer = some .facade → exec (.itemStream true it t) s = .refused .mixedProducers) ∧
    (s.env.producer = some .stream → exec (.regPixel k v) s = .refused .mixedProducers ∧
      exec (.regfWrPix k v) s = .refused .mixedProducers)

/-! ### The formats on the wire, and the system -/

/-- R71 as R85 expands it: a cell is the report of its rise and the report of its fall `S` (bit 0) or `2 * S` (bit 1) later. A cell as an
operation on the monitor's wire is log 1. -/
def Obligations.CellIsTwoReports : Prop :=
  ∀ (s : State) (t0 : Nat), s.mon.lastTs ≤ t0 →
    (∃ t, exec (.cellBit0 t0) s = .next t ∧
      execAll [.report t0 true, .report (t0 + s.mon.S) false] s = .next t) ∧
    (∃ t, exec (.cellBit1 t0) s = .next t ∧
      execAll [.report t0 true, .report (t0 + 2 * s.mon.S) false] s = .next t)

/-- R72, R73: a pixel word on the wire, seen between frames or exactly in time after the word before, shifts its 24 bits, `word[23]`
first, and raises nothing. A word as an operation on the monitor's wire is log 1. -/
def Obligations.WordOnTheWire : Prop :=
  ∀ (s : State) (px : Pixel) (t0 : Nat), s.mon.lastTs ≤ t0 → s.mon.cfgSet = true → s.mon.phase ≠ .high → 1 ≤ s.mon.S →
    (s.mon.pending = true → s.mon.phase = .low ∧ t0 = s.mon.riseTs + 3 * s.mon.S ∧ s.mon.riseTs ≤ s.mon.fallTs) →
    ∃ t, exec (.wordPixel px t0) s = .next t ∧
      execAll ((wordBits (px.green ++ px.red ++ px.blue)).map .chainShift) s = .next { s with chain := t.chain } ∧
      t.log = s.log ∧ t.cfg = s.cfg ∧ t.enc = s.enc ∧ t.hold = s.hold ∧ t.tick = s.tick ∧ t.env = s.env ∧
      t.mon.pending = true ∧ t.mon.phase = .low ∧ t.mon.riseTs = t0 + 69 * s.mon.S

/-- R64, R74, R196: the gap after the last cell of pending bits always latches: its low time, counted from the last fall, exceeds `120 *
S`. Where the gap is counted from is the spec's decision D16; its one report is log 23. -/
def Obligations.GapLatches : Prop :=
  ∀ (s : State) (t0 extra : Nat), s.mon.lastTs ≤ t0 → s.mon.cfgSet = true → s.mon.phase = .low → s.mon.pending = true →
    s.mon.fallTs < t0 →
    ∃ t, exec (.frameGap t0 extra) s = .next t ∧ t.mon.pending = false ∧ t.out.frameValid = true ∧
      t.log.frames = s.log.frames ++
        [{ ts := some (t0 + 120 * s.mon.S + extra), frame := t.out.frame, complete := t.out.frameComplete }] ∧
      t.out.frameComplete = decide (s.chain.bitsSinceLoad = 24 * s.mon.N)

/-- R158, the monitor's half: the legal waveform of a frame decodes to that frame, complete, with no diagnostic, and leaves the monitor
ready for the next frame's, from the end of the gap on. Derived, as R158 says; the formats as operations are log 1 and log 23. -/
def Obligations.MonitorDecodesLegalFrame : Prop :=
  ∀ (s : State) (pxs : List Pixel) (t0 : Nat), ChainInv s → s.mon.cfgSet = true → 1 ≤ s.mon.S → 1 ≤ s.mon.N →
    s.mon.N ≤ 16 → pxs.length = s.mon.N → s.mon.pending = false → s.chain.bitsSinceLoad = 0 → s.mon.phase ≠ .high →
    s.mon.lastTs ≤ t0 →
    ∃ t, execAll (wireFrame s.mon.S t0 pxs) s = .next t ∧
      t.log.frames = s.log.frames ++
        [{ ts := some (t0 + 72 * s.mon.S * s.mon.N + 120 * s.mon.S), frame := pxs, complete := true }] ∧
      t.log.viols = s.log.viols ∧ t.mon.pending = false ∧ t.chain.bitsSinceLoad = 0 ∧ t.mon.phase ≠ .high ∧
      t.mon.lastTs = t0 + 72 * s.mon.S * s.mon.N + 120 * s.mon.S ∧ ChainInv t ∧
      t.mon.cfgSet = true ∧ t.mon.S = s.mon.S ∧ t.mon.N = s.mon.N

/-- R158, the round-trip law: from a state between frames with the items of any number of frames queued, the machine runs until the
encoder is idle after the last frame (`72 * N * S + 120 * S + 1` ticks a frame, R200) and one tick on, which the latch of the last frame
needs when `S = 1` (log 25). Then it has emitted exactly those frames, in order, complete, every pixel in its place, with no diagnostic. -/
def Obligations.FrameRoundTrip : Prop :=
  ∀ (s : State) (fs : List (List Pixel)), s.FramesReady fs →
    ∃ (t : State) (tss : List Nat), core.run (fs.length * (72 * s.mon.N * s.mon.S + 120 * s.mon.S + 1) + 1) s = .next t ∧
      tss.length = fs.length ∧
      t.log.frames = s.log.frames ++ List.zipWith (fun ts f => { ts := some ts, frame := f, complete := true }) tss fs ∧
      t.log.viols = s.log.viols ∧ t.enc.phase = .idle ∧ t.env.stream = [] ∧ t.betweenFrames ∧
      t.enc.seqErr = s.enc.seqErr ∧ t.mon.flagBitPeriod = s.mon.flagBitPeriod ∧
      t.mon.flagUnclassifiable = s.mon.flagUnclassifiable ∧ t.mon.flagMissedLoad = s.mon.flagMissedLoad ∧
      t.chain.flagFrameLength = s.chain.flagFrameLength

/-- R185, R44, R186: SYS.RESET sets every state variable to the value of the table, and at the first tick `wire` and `ready` are 0; every
value is the spec's decision D7. In a run whose SYS.RESET does not reach the monitor it does the same to the encoder and the facade and
leaves the monitor and its chain, whose time goes on. A monitor so left, on a wire the encoder leaves low, takes a cut pulse as falling
at once, and latches what it has, a short frame with FrameLengthError, once the low time is above `120 * mon_S`. The parameter of the
run, the monitor's time and what becomes of the logs are the model's (log 24). So is the clause that what comes from outside stays over either reset, the
inputs to come, queued items, waiting writes and the producer (`t.env = s.env`): the spec does not say it (log 12). -/
def Obligations.ResetLeavesTheTable : Prop :=
  (∀ s : State, s.env.par.resetsMonitor = true → ∃ t, exec .sysReset s = .next t ∧
    t.cfg.divider = 0 ∧ t.cfg.lastLed = 0 ∧ t.cfg.isSet = false ∧
    t.enc.S = 1 ∧ t.enc.N = 1 ∧ t.enc.phase = .idle ∧ t.enc.word = 0 ∧ t.enc.cnt = 0 ∧ t.enc.tmr = 0 ∧
    t.enc.last = false ∧ t.enc.expPos = 0 ∧ t.enc.seqErr = false ∧ t.wire = false ∧ t.ready = false ∧
    t.hold.valid = false ∧ t.hold.item = { red := 0, green := 0, blue := 0, pos := 0, first := false, last := false } ∧
    (∀ k < 16, t.chain.acc[k]? = some 0 ∧ t.chain.lat[k]? = some { green := 0, red := 0, blue := 0 }) ∧
    t.chain.acc.length = 16 ∧ t.chain.lat.length = 16 ∧ t.chain.bitsSinceLoad = 0 ∧
    t.mon.S = 1 ∧ t.mon.N = 1 ∧ t.mon.cfgSet = false ∧ t.mon.phase = .idle ∧ t.mon.pending = false ∧
    t.mon.riseTs = 0 ∧ t.mon.fallTs = 0 ∧ t.mon.lastTs = 0 ∧
    t.mon.flagBitPeriod = false ∧ t.mon.flagUnclassifiable = false ∧ t.mon.flagMissedLoad = false ∧
    t.chain.flagFrameLength = false ∧ t.mon.cfgReject = false ∧
    t.log.viols = [] ∧ t.log.frames = [] ∧ t.tick = 0 ∧ t.mon.tsBase = 0 ∧ t.env = s.env) ∧
  (∀ s : State, s.env.par.resetsMonitor = false → ∃ t, exec .sysReset s = .next t ∧
    t.cfg = State.reset.cfg ∧ t.enc = State.reset.enc ∧ t.hold = State.reset.hold ∧ t.tick = 0 ∧ t.wire = false ∧ t.ready = false ∧
    t.chain = s.chain ∧ t.mon = { s.mon with tsBase := s.mon.tsBase + s.tick } ∧ t.log.frames = s.log.frames ∧
    t.log.viols = s.log.viols.filter (fun e => decide (e.diag.code ≠ 0)) ∧ t.env = s.env) ∧
  (∀ s : State, s.enc.phase = .idle → s.cfg.isSet = false → s.env.pending = [] → s.env.par.attached = true → s.mon.cfgSet = true →
    s.mon.lastTs ≤ s.mon.tsBase + s.tick →
    (s.mon.phase = .high → ∃ u, step s = .next u ∧ u.mon.phase = .low ∧ u.mon.fallTs = s.mon.tsBase + s.tick ∧
      (s.mon.pending = true → u.mon.pending = true)) ∧
    (s.mon.phase = .low → s.mon.pending = true → s.mon.tsBase + s.tick ≤ s.mon.fallTs + 120 * s.mon.S + 1 →
      ∃ u, core.run (s.mon.fallTs + 120 * s.mon.S + 1 - (s.mon.tsBase + s.tick) + 1) s = .next u ∧
        u.wire = false ∧ u.mon.pending = false ∧ u.out.frameValid = true ∧
        u.out.frameComplete = decide (s.chain.bitsSinceLoad = 24 * s.mon.N) ∧
        u.log.frames = s.log.frames ++
          [{ ts := some (s.mon.fallTs + 120 * s.mon.S + 1), frame := u.out.frame, complete := u.out.frameComplete }] ∧
        u.log.viols = s.log.viols ++ (if s.chain.bitsSinceLoad = 24 * s.mon.N then [] else
          [{ ts := some (s.mon.fallTs + 120 * s.mon.S + 1), diag := .frameLength s.chain.bitsSinceLoad (24 * s.mon.N) }])))
end

