-- ==== Sys2Proof/Laws/State.lean ====
section
/-! SUPPORT. One lemma per group of the state and update: what a shared update leaves as it was. -/

namespace Sys2Proof.Machine

@[simp] theorem clearOut_cfg (s : State) : (s.clearOut).cfg = s.cfg := rfl
@[simp] theorem clearOut_enc (s : State) : (s.clearOut).enc = s.enc := rfl
@[simp] theorem clearOut_hold (s : State) : (s.clearOut).hold = s.hold := rfl
@[simp] theorem clearOut_chain (s : State) : (s.clearOut).chain = s.chain := rfl
@[simp] theorem clearOut_mon (s : State) : (s.clearOut).mon = s.mon := rfl
@[simp] theorem clearOut_reportTime (s : State) : (s.clearOut).reportTime = s.reportTime := rfl
@[simp] theorem clearOut_log (s : State) : (s.clearOut).log = s.log := rfl
@[simp] theorem clearOut_tick (s : State) : (s.clearOut).tick = s.tick := rfl
@[simp] theorem clearOut_env (s : State) : (s.clearOut).env = s.env := rfl

@[simp] theorem clearOut_out (s : State) : s.clearOut.out = ReportOut.none := rfl

@[simp] theorem acceptTs_cfg (ts : Nat) (s : State) : (acceptTs ts s).cfg = s.cfg := rfl
@[simp] theorem acceptTs_enc (ts : Nat) (s : State) : (acceptTs ts s).enc = s.enc := rfl
@[simp] theorem acceptTs_hold (ts : Nat) (s : State) : (acceptTs ts s).hold = s.hold := rfl
@[simp] theorem acceptTs_chain (ts : Nat) (s : State) : (acceptTs ts s).chain = s.chain := rfl
@[simp] theorem acceptTs_out (ts : Nat) (s : State) : (acceptTs ts s).out = s.out := rfl
@[simp] theorem acceptTs_log (ts : Nat) (s : State) : (acceptTs ts s).log = s.log := rfl
@[simp] theorem acceptTs_tick (ts : Nat) (s : State) : (acceptTs ts s).tick = s.tick := rfl
@[simp] theorem acceptTs_env (ts : Nat) (s : State) : (acceptTs ts s).env = s.env := rfl

@[simp] theorem setSticky_cfg (d : Diag) (s : State) : (setSticky d s).cfg = s.cfg := by cases d <;> rfl
@[simp] theorem setSticky_hold (d : Diag) (s : State) : (setSticky d s).hold = s.hold := by cases d <;> rfl
@[simp] theorem setSticky_out (d : Diag) (s : State) : (setSticky d s).out = s.out := by cases d <;> rfl
@[simp] theorem setSticky_log (d : Diag) (s : State) : (setSticky d s).log = s.log := by cases d <;> rfl
@[simp] theorem setSticky_tick (d : Diag) (s : State) : (setSticky d s).tick = s.tick := by cases d <;> rfl
@[simp] theorem setSticky_env (d : Diag) (s : State) : (setSticky d s).env = s.env := by cases d <;> rfl

@[simp] theorem raise_cfg (ts : Option Nat) (d : Diag) (s : State) : (raise ts d s).cfg = s.cfg := by cases d <;> rfl
@[simp] theorem raise_hold (ts : Option Nat) (d : Diag) (s : State) : (raise ts d s).hold = s.hold := by cases d <;> rfl
@[simp] theorem raise_tick (ts : Option Nat) (d : Diag) (s : State) : (raise ts d s).tick = s.tick := by cases d <;> rfl
@[simp] theorem raise_env (ts : Option Nat) (d : Diag) (s : State) : (raise ts d s).env = s.env := by cases d <;> rfl

@[simp] theorem beginPixel_cfg (it : Item) (S : Nat) (s : State) : (beginPixel it S s).cfg = s.cfg := rfl
@[simp] theorem beginPixel_hold (it : Item) (S : Nat) (s : State) : (beginPixel it S s).hold = s.hold := rfl
@[simp] theorem beginPixel_chain (it : Item) (S : Nat) (s : State) : (beginPixel it S s).chain = s.chain := rfl
@[simp] theorem beginPixel_mon (it : Item) (S : Nat) (s : State) : (beginPixel it S s).mon = s.mon := rfl
@[simp] theorem beginPixel_out (it : Item) (S : Nat) (s : State) : (beginPixel it S s).out = s.out := rfl
@[simp] theorem beginPixel_log (it : Item) (S : Nat) (s : State) : (beginPixel it S s).log = s.log := rfl
@[simp] theorem beginPixel_tick (it : Item) (S : Nat) (s : State) : (beginPixel it S s).tick = s.tick := rfl
@[simp] theorem beginPixel_env (it : Item) (S : Nat) (s : State) : (beginPixel it S s).env = s.env := rfl

@[simp] theorem takeConfig_cfg (s : State) : (takeConfig s).cfg = s.cfg := rfl
@[simp] theorem takeConfig_hold (s : State) : (takeConfig s).hold = s.hold := rfl
@[simp] theorem takeConfig_chain (s : State) : (takeConfig s).chain = s.chain := rfl
@[simp] theorem takeConfig_mon (s : State) : (takeConfig s).mon = s.mon := rfl
@[simp] theorem takeConfig_out (s : State) : (takeConfig s).out = s.out := rfl
@[simp] theorem takeConfig_log (s : State) : (takeConfig s).log = s.log := rfl
@[simp] theorem takeConfig_tick (s : State) : (takeConfig s).tick = s.tick := rfl
@[simp] theorem takeConfig_env (s : State) : (takeConfig s).env = s.env := rfl

@[simp] theorem shiftChain_cfg (b : Bool) (s : State) : ((shiftChain b s).2).cfg = s.cfg := rfl
@[simp] theorem shiftChain_enc (b : Bool) (s : State) : ((shiftChain b s).2).enc = s.enc := rfl
@[simp] theorem shiftChain_hold (b : Bool) (s : State) : ((shiftChain b s).2).hold = s.hold := rfl
@[simp] theorem shiftChain_mon (b : Bool) (s : State) : ((shiftChain b s).2).mon = s.mon := rfl
@[simp] theorem shiftChain_out (b : Bool) (s : State) : ((shiftChain b s).2).out = s.out := rfl
@[simp] theorem shiftChain_log (b : Bool) (s : State) : ((shiftChain b s).2).log = s.log := rfl
@[simp] theorem shiftChain_tick (b : Bool) (s : State) : ((shiftChain b s).2).tick = s.tick := rfl
@[simp] theorem shiftChain_env (b : Bool) (s : State) : ((shiftChain b s).2).env = s.env := rfl

@[simp] theorem writeCfg_enc (v : RegValue) (s : State) : (writeCfg v s).enc = s.enc := rfl
@[simp] theorem writeCfg_hold (v : RegValue) (s : State) : (writeCfg v s).hold = s.hold := rfl
@[simp] theorem writeCfg_chain (v : RegValue) (s : State) : (writeCfg v s).chain = s.chain := rfl
@[simp] theorem writeCfg_mon (v : RegValue) (s : State) : (writeCfg v s).mon = s.mon := rfl
@[simp] theorem writeCfg_out (v : RegValue) (s : State) : (writeCfg v s).out = s.out := rfl
@[simp] theorem writeCfg_log (v : RegValue) (s : State) : (writeCfg v s).log = s.log := rfl
@[simp] theorem writeCfg_tick (v : RegValue) (s : State) : (writeCfg v s).tick = s.tick := rfl
@[simp] theorem writeCfg_env (v : RegValue) (s : State) : (writeCfg v s).env = s.env := rfl

@[simp] theorem writePix_cfg (k : Nat) (v : RegValue) (s : State) : (writePix k v s).cfg = s.cfg := rfl
@[simp] theorem writePix_enc (k : Nat) (v : RegValue) (s : State) : (writePix k v s).enc = s.enc := rfl
@[simp] theorem writePix_chain (k : Nat) (v : RegValue) (s : State) : (writePix k v s).chain = s.chain := rfl
@[simp] theorem writePix_mon (k : Nat) (v : RegValue) (s : State) : (writePix k v s).mon = s.mon := rfl
@[simp] theorem writePix_out (k : Nat) (v : RegValue) (s : State) : (writePix k v s).out = s.out := rfl
@[simp] theorem writePix_log (k : Nat) (v : RegValue) (s : State) : (writePix k v s).log = s.log := rfl
@[simp] theorem writePix_tick (k : Nat) (v : RegValue) (s : State) : (writePix k v s).tick = s.tick := rfl
@[simp] theorem writePix_env (k : Nat) (v : RegValue) (s : State) : (writePix k v s).env = s.env := rfl

@[simp] theorem freeHold_cfg (s : State) : (freeHold s).cfg = s.cfg := rfl
@[simp] theorem freeHold_enc (s : State) : (freeHold s).enc = s.enc := rfl
@[simp] theorem freeHold_chain (s : State) : (freeHold s).chain = s.chain := rfl
@[simp] theorem freeHold_mon (s : State) : (freeHold s).mon = s.mon := rfl
@[simp] theorem freeHold_out (s : State) : (freeHold s).out = s.out := rfl
@[simp] theorem freeHold_log (s : State) : (freeHold s).log = s.log := rfl
@[simp] theorem freeHold_tick (s : State) : (freeHold s).tick = s.tick := rfl
@[simp] theorem freeHold_env (s : State) : (freeHold s).env = s.env := rfl

@[simp] theorem popStream_cfg (s : State) : (popStream s).cfg = s.cfg := rfl
@[simp] theorem popStream_enc (s : State) : (popStream s).enc = s.enc := rfl
@[simp] theorem popStream_hold (s : State) : (popStream s).hold = s.hold := rfl
@[simp] theorem popStream_chain (s : State) : (popStream s).chain = s.chain := rfl
@[simp] theorem popStream_mon (s : State) : (popStream s).mon = s.mon := rfl
@[simp] theorem popStream_out (s : State) : (popStream s).out = s.out := rfl
@[simp] theorem popStream_log (s : State) : (popStream s).log = s.log := rfl
@[simp] theorem popStream_tick (s : State) : (popStream s).tick = s.tick := rfl

@[simp] theorem takeBit_cfg (b : Bool) (s : State) : (takeBit b s).cfg = s.cfg := rfl
@[simp] theorem takeBit_enc (b : Bool) (s : State) : (takeBit b s).enc = s.enc := rfl
@[simp] theorem takeBit_hold (b : Bool) (s : State) : (takeBit b s).hold = s.hold := rfl
@[simp] theorem takeBit_out (b : Bool) (s : State) : (takeBit b s).out = s.out := rfl
@[simp] theorem takeBit_log (b : Bool) (s : State) : (takeBit b s).log = s.log := rfl
@[simp] theorem takeBit_tick (b : Bool) (s : State) : (takeBit b s).tick = s.tick := rfl
@[simp] theorem takeBit_env (b : Bool) (s : State) : (takeBit b s).env = s.env := rfl

@[simp] theorem endPulse_cfg (ts : Nat) (s : State) : (endPulse ts s).cfg = s.cfg := rfl
@[simp] theorem endPulse_enc (ts : Nat) (s : State) : (endPulse ts s).enc = s.enc := rfl
@[simp] theorem endPulse_hold (ts : Nat) (s : State) : (endPulse ts s).hold = s.hold := rfl
@[simp] theorem endPulse_chain (ts : Nat) (s : State) : (endPulse ts s).chain = s.chain := rfl
@[simp] theorem endPulse_out (ts : Nat) (s : State) : (endPulse ts s).out = s.out := rfl
@[simp] theorem endPulse_log (ts : Nat) (s : State) : (endPulse ts s).log = s.log := rfl
@[simp] theorem endPulse_tick (ts : Nat) (s : State) : (endPulse ts s).tick = s.tick := rfl
@[simp] theorem endPulse_env (ts : Nat) (s : State) : (endPulse ts s).env = s.env := rfl

@[simp] theorem withNext_cfg (bs : List Byte) (s : State) : (s.withNext bs).cfg = s.cfg := rfl
@[simp] theorem withNext_enc (bs : List Byte) (s : State) : (s.withNext bs).enc = s.enc := rfl
@[simp] theorem withNext_hold (bs : List Byte) (s : State) : (s.withNext bs).hold = s.hold := rfl
@[simp] theorem withNext_chain (bs : List Byte) (s : State) : (s.withNext bs).chain = s.chain := rfl
@[simp] theorem withNext_mon (bs : List Byte) (s : State) : (s.withNext bs).mon = s.mon := rfl
@[simp] theorem withNext_out (bs : List Byte) (s : State) : (s.withNext bs).out = s.out := rfl
@[simp] theorem withNext_log (bs : List Byte) (s : State) : (s.withNext bs).log = s.log := rfl
@[simp] theorem withNext_tick (bs : List Byte) (s : State) : (s.withNext bs).tick = s.tick := rfl

/-! ### Fields inside a group that an update of the group leaves -/

@[simp] theorem beginPixel_enc_S (it : Item) (S : Nat) (s : State) : (beginPixel it S s).enc.S = s.enc.S := rfl
@[simp] theorem beginPixel_enc_N (it : Item) (S : Nat) (s : State) : (beginPixel it S s).enc.N = s.enc.N := rfl
@[simp] theorem beginPixel_enc_seqErr (it : Item) (S : Nat) (s : State) : (beginPixel it S s).enc.seqErr = s.enc.seqErr := rfl
@[simp] theorem takeConfig_enc_phase (s : State) : (takeConfig s).enc.phase = s.enc.phase := rfl
@[simp] theorem takeConfig_enc_word (s : State) : (takeConfig s).enc.word = s.enc.word := rfl
@[simp] theorem takeConfig_enc_cnt (s : State) : (takeConfig s).enc.cnt = s.enc.cnt := rfl
@[simp] theorem takeConfig_enc_tmr (s : State) : (takeConfig s).enc.tmr = s.enc.tmr := rfl
@[simp] theorem takeConfig_enc_last (s : State) : (takeConfig s).enc.last = s.enc.last := rfl
@[simp] theorem takeConfig_enc_expPos (s : State) : (takeConfig s).enc.expPos = s.enc.expPos := rfl
@[simp] theorem takeConfig_enc_seqErr (s : State) : (takeConfig s).enc.seqErr = s.enc.seqErr := rfl
@[simp] theorem raise_enc_S (ts : Option Nat) (d : Diag) (s : State) : (raise ts d s).enc.S = s.enc.S := by cases d <;> rfl
@[simp] theorem raise_enc_N (ts : Option Nat) (d : Diag) (s : State) : (raise ts d s).enc.N = s.enc.N := by cases d <;> rfl
@[simp] theorem raise_enc_phase (ts : Option Nat) (d : Diag) (s : State) : (raise ts d s).enc.phase = s.enc.phase := by cases d <;> rfl
@[simp] theorem raise_enc_word (ts : Option Nat) (d : Diag) (s : State) : (raise ts d s).enc.word = s.enc.word := by cases d <;> rfl
@[simp] theorem raise_enc_cnt (ts : Option Nat) (d : Diag) (s : State) : (raise ts d s).enc.cnt = s.enc.cnt := by cases d <;> rfl
@[simp] theorem raise_enc_tmr (ts : Option Nat) (d : Diag) (s : State) : (raise ts d s).enc.tmr = s.enc.tmr := by cases d <;> rfl
@[simp] theorem raise_enc_last (ts : Option Nat) (d : Diag) (s : State) : (raise ts d s).enc.last = s.enc.last := by cases d <;> rfl
@[simp] theorem raise_enc_expPos (ts : Option Nat) (d : Diag) (s : State) : (raise ts d s).enc.expPos = s.enc.expPos := by cases d <;> rfl
@[simp] theorem raise_mon_S (ts : Option Nat) (d : Diag) (s : State) : (raise ts d s).mon.S = s.mon.S := by cases d <;> rfl
@[simp] theorem raise_mon_N (ts : Option Nat) (d : Diag) (s : State) : (raise ts d s).mon.N = s.mon.N := by cases d <;> rfl
@[simp] theorem raise_mon_cfgSet (ts : Option Nat) (d : Diag) (s : State) : (raise ts d s).mon.cfgSet = s.mon.cfgSet := by cases d <;> rfl
@[simp] theorem raise_mon_phase (ts : Option Nat) (d : Diag) (s : State) : (raise ts d s).mon.phase = s.mon.phase := by cases d <;> rfl
@[simp] theorem raise_mon_pending (ts : Option Nat) (d : Diag) (s : State) : (raise ts d s).mon.pending = s.mon.pending := by cases d <;> rfl
@[simp] theorem raise_mon_riseTs (ts : Option Nat) (d : Diag) (s : State) : (raise ts d s).mon.riseTs = s.mon.riseTs := by cases d <;> rfl
@[simp] theorem raise_mon_fallTs (ts : Option Nat) (d : Diag) (s : State) : (raise ts d s).mon.fallTs = s.mon.fallTs := by cases d <;> rfl
@[simp] theorem raise_mon_lastTs (ts : Option Nat) (d : Diag) (s : State) : (raise ts d s).mon.lastTs = s.mon.lastTs := by cases d <;> rfl
@[simp] theorem raise_mon_cfgReject (ts : Option Nat) (d : Diag) (s : State) : (raise ts d s).mon.cfgReject = s.mon.cfgReject := by cases d <;> rfl
@[simp] theorem raise_chain_acc (ts : Option Nat) (d : Diag) (s : State) : (raise ts d s).chain.acc = s.chain.acc := by cases d <;> rfl
@[simp] theorem raise_chain_lat (ts : Option Nat) (d : Diag) (s : State) : (raise ts d s).chain.lat = s.chain.lat := by cases d <;> rfl
@[simp] theorem raise_chain_bitsSinceLoad (ts : Option Nat) (d : Diag) (s : State) : (raise ts d s).chain.bitsSinceLoad = s.chain.bitsSinceLoad := by cases d <;> rfl
@[simp] theorem acceptTs_mon_S (ts : Nat) (s : State) : (acceptTs ts s).mon.S = s.mon.S := rfl
@[simp] theorem acceptTs_mon_N (ts : Nat) (s : State) : (acceptTs ts s).mon.N = s.mon.N := rfl
@[simp] theorem acceptTs_mon_cfgSet (ts : Nat) (s : State) : (acceptTs ts s).mon.cfgSet = s.mon.cfgSet := rfl
@[simp] theorem acceptTs_mon_phase (ts : Nat) (s : State) : (acceptTs ts s).mon.phase = s.mon.phase := rfl
@[simp] theorem acceptTs_mon_pending (ts : Nat) (s : State) : (acceptTs ts s).mon.pending = s.mon.pending := rfl
@[simp] theorem acceptTs_mon_riseTs (ts : Nat) (s : State) : (acceptTs ts s).mon.riseTs = s.mon.riseTs := rfl
@[simp] theorem acceptTs_mon_fallTs (ts : Nat) (s : State) : (acceptTs ts s).mon.fallTs = s.mon.fallTs := rfl
@[simp] theorem acceptTs_mon_cfgReject (ts : Nat) (s : State) : (acceptTs ts s).mon.cfgReject = s.mon.cfgReject := rfl
@[simp] theorem acceptTs_mon_flagBitPeriod (ts : Nat) (s : State) : (acceptTs ts s).mon.flagBitPeriod = s.mon.flagBitPeriod := rfl
@[simp] theorem acceptTs_mon_flagUnclassifiable (ts : Nat) (s : State) : (acceptTs ts s).mon.flagUnclassifiable = s.mon.flagUnclassifiable := rfl
@[simp] theorem acceptTs_mon_flagMissedLoad (ts : Nat) (s : State) : (acceptTs ts s).mon.flagMissedLoad = s.mon.flagMissedLoad := rfl
@[simp] theorem acceptTs_mon_lastTs (ts : Nat) (s : State) : (acceptTs ts s).mon.lastTs = ts := rfl
@[simp] theorem endPulse_mon_S (ts : Nat) (s : State) : (endPulse ts s).mon.S = s.mon.S := rfl
@[simp] theorem endPulse_mon_N (ts : Nat) (s : State) : (endPulse ts s).mon.N = s.mon.N := rfl
@[simp] theorem endPulse_mon_cfgSet (ts : Nat) (s : State) : (endPulse ts s).mon.cfgSet = s.mon.cfgSet := rfl
@[simp] theorem endPulse_mon_pending (ts : Nat) (s : State) : (endPulse ts s).mon.pending = s.mon.pending := rfl
@[simp] theorem endPulse_mon_riseTs (ts : Nat) (s : State) : (endPulse ts s).mon.riseTs = s.mon.riseTs := rfl
@[simp] theorem endPulse_mon_lastTs (ts : Nat) (s : State) : (endPulse ts s).mon.lastTs = s.mon.lastTs := rfl
@[simp] theorem endPulse_mon_cfgReject (ts : Nat) (s : State) : (endPulse ts s).mon.cfgReject = s.mon.cfgReject := rfl
@[simp] theorem endPulse_mon_flagBitPeriod (ts : Nat) (s : State) : (endPulse ts s).mon.flagBitPeriod = s.mon.flagBitPeriod := rfl
@[simp] theorem endPulse_mon_flagUnclassifiable (ts : Nat) (s : State) : (endPulse ts s).mon.flagUnclassifiable = s.mon.flagUnclassifiable := rfl
@[simp] theorem endPulse_mon_flagMissedLoad (ts : Nat) (s : State) : (endPulse ts s).mon.flagMissedLoad = s.mon.flagMissedLoad := rfl
@[simp] theorem endPulse_mon_fallTs (ts : Nat) (s : State) : (endPulse ts s).mon.fallTs = ts := rfl
@[simp] theorem endPulse_mon_phase (ts : Nat) (s : State) : (endPulse ts s).mon.phase = .low := rfl
@[simp] theorem takeBit_mon_S (b : Bool) (s : State) : (takeBit b s).mon.S = s.mon.S := rfl
@[simp] theorem takeBit_mon_N (b : Bool) (s : State) : (takeBit b s).mon.N = s.mon.N := rfl
@[simp] theorem takeBit_mon_cfgSet (b : Bool) (s : State) : (takeBit b s).mon.cfgSet = s.mon.cfgSet := rfl
@[simp] theorem takeBit_mon_phase (b : Bool) (s : State) : (takeBit b s).mon.phase = s.mon.phase := rfl
@[simp] theorem takeBit_mon_riseTs (b : Bool) (s : State) : (takeBit b s).mon.riseTs = s.mon.riseTs := rfl
@[simp] theorem takeBit_mon_fallTs (b : Bool) (s : State) : (takeBit b s).mon.fallTs = s.mon.fallTs := rfl
@[simp] theorem takeBit_mon_lastTs (b : Bool) (s : State) : (takeBit b s).mon.lastTs = s.mon.lastTs := rfl
@[simp] theorem takeBit_mon_cfgReject (b : Bool) (s : State) : (takeBit b s).mon.cfgReject = s.mon.cfgReject := rfl
@[simp] theorem takeBit_mon_flagBitPeriod (b : Bool) (s : State) : (takeBit b s).mon.flagBitPeriod = s.mon.flagBitPeriod := rfl
@[simp] theorem takeBit_mon_flagUnclassifiable (b : Bool) (s : State) : (takeBit b s).mon.flagUnclassifiable = s.mon.flagUnclassifiable := rfl
@[simp] theorem takeBit_mon_flagMissedLoad (b : Bool) (s : State) : (takeBit b s).mon.flagMissedLoad = s.mon.flagMissedLoad := rfl
@[simp] theorem takeBit_mon_pending (b : Bool) (s : State) : (takeBit b s).mon.pending = true := rfl
@[simp] theorem takeBit_chain (b : Bool) (s : State) : (takeBit b s).chain = (shiftChain b s).2.chain := rfl
@[simp] theorem shiftChain_chain_lat (b : Bool) (s : State) : (shiftChain b s).2.chain.lat = s.chain.lat := rfl
@[simp] theorem shiftChain_chain_flagFrameLength (b : Bool) (s : State) : (shiftChain b s).2.chain.flagFrameLength = s.chain.flagFrameLength := rfl
@[simp] theorem shiftChain_chain_bitsSinceLoad (b : Bool) (s : State) :
    (shiftChain b s).2.chain.bitsSinceLoad = s.chain.bitsSinceLoad + 1 := rfl
@[simp] theorem popStream_env_par (s : State) : (popStream s).env.par = s.env.par := rfl
@[simp] theorem popStream_env_pending (s : State) : (popStream s).env.pending = s.env.pending := rfl
@[simp] theorem popStream_env_held (s : State) : (popStream s).env.held = s.env.held := rfl
@[simp] theorem popStream_env_producer (s : State) : (popStream s).env.producer = s.env.producer := rfl

end Sys2Proof.Machine
end

