-- ==== Sys2Proof/Laws/Ops.lean ====
section
/-! SUPPORT. What each shared operation can do, said once. -/

namespace Sys2Proof.Machine

/-! ### Outcomes -/

theorem andThen_next {r : Result} {f : State → Result} {t : State} :
    andThen r f = .next t ↔ ∃ s, r = .next s ∧ f s = .next t := by
  cases r <;> simp [andThen]

@[simp] theorem andThen_next_left (s : State) (f : State → Result) : andThen (.next s) f = f s := rfl

@[simp] theorem andThen_refused_left (e : Refusal) (f : State → Result) : andThen (.refused e) f = .refused e := rfl

@[simp] theorem selectedWhen_next {m : String} {c : Prop} [Decidable c] {t u : State} :
    selectedWhen m c t = .next u ↔ c ∧ t = u := by
  unfold selectedWhen; split <;> simp_all

theorem selectedWhen_of {m : String} {c : Prop} [Decidable c] (t : State) (h : c) : selectedWhen m c t = .next t := by
  simp [h]

@[simp] theorem inOrder_next {ts : Nat} {s u : State} {r : Result} :
    inOrder ts s r = .next u ↔ s.mon.lastTs ≤ ts ∧ r = .next u := by
  unfold inOrder; split
  · constructor
    · intro h; cases h
    · rintro ⟨h, -⟩; omega
  · constructor
    · intro h; exact ⟨by omega, h⟩
    · rintro ⟨-, h⟩; exact h

theorem inOrder_of {ts : Nat} {s : State} (r : Result) (h : s.mon.lastTs ≤ ts) : inOrder ts s r = r := by
  unfold inOrder; rw [if_neg (by omega)]

theorem inOrder_late {ts : Nat} {s : State} (r : Result) (h : ts < s.mon.lastTs) :
    inOrder ts s r = .refused (.reportOutOfOrder ts s.mon.lastTs) := by
  unfold inOrder; rw [if_pos h]

/-! ### Raising -/

@[simp] theorem raise_log_viols (ts : Option Nat) (d : Diag) (s : State) :
    (raise ts d s).log.viols = s.log.viols ++ [{ ts := ts, diag := d }] := by cases d <;> rfl

@[simp] theorem raise_log_frames (ts : Option Nat) (d : Diag) (s : State) :
    (raise ts d s).log.frames = s.log.frames := by cases d <;> rfl

@[simp] theorem raise_out_viol (ts : Option Nat) (d : Diag) (s : State) :
    (raise ts d s).out.viol = s.out.viol ||| d.violMask := by cases d <;> rfl

/-- A raise sets no flag but its own kind's, and clears none. -/
theorem raise_flags (ts : Option Nat) (d : Diag) (s : State) :
    (raise ts d s).enc.seqErr = (s.enc.seqErr || decide (d.code = 0)) ∧
    (raise ts d s).mon.flagBitPeriod = (s.mon.flagBitPeriod || decide (d.code = 1)) ∧
    (raise ts d s).mon.flagUnclassifiable = (s.mon.flagUnclassifiable || decide (d.code = 2)) ∧
    (raise ts d s).mon.flagMissedLoad = (s.mon.flagMissedLoad || decide (d.code = 3)) ∧
    (raise ts d s).chain.flagFrameLength = (s.chain.flagFrameLength || decide (d.code = 4)) := by
  cases d <;> simp [raise, setSticky, Diag.code]

/-! ### The shift chain -/

@[simp] theorem shiftRegs_length (b : Bool) (l : List PixelWord) : (shiftRegs b l).length = l.length := by
  induction l generalizing b with
  | nil => rfl
  | cons a r ih => simp [shiftRegs, ih]

theorem shiftRegs_append (b : Bool) (l : List PixelWord) (a : PixelWord) :
    shiftRegs b (l ++ [a]) = shiftRegs b l ++ shiftRegs (l.foldl (fun _ x => topBit x) b) [a] := by
  induction l generalizing b with
  | nil => rfl
  | cons x r ih => simp [shiftRegs, ih]

/-- R121, register by register: each takes the bit its neighbour held before the step. -/
theorem shiftRegs_get (b : Bool) (l : List PixelWord) (k : Nat) (hk : k < l.length) :
    (shiftRegs b l).getD k 0 =
      (l.getD k 0 <<< 1 ||| BitVec.setWidth 24 (BitVec.ofBool (if k = 0 then b else topBit (l.getD (k - 1) 0)))) := by
  induction l generalizing b k with
  | nil => simp at hk
  | cons a r ih =>
    cases k with
    | zero => simp [shiftRegs]
    | succ k =>
      have hk' : k < r.length := by simpa using hk
      rw [shiftRegs, List.getD_cons_succ, ih (topBit a) k hk', List.getD_cons_succ]
      cases k <;> simp

@[simp] theorem shiftChain_acc_length (b : Bool) (s : State) :
    (shiftChain b s).2.chain.acc.length = s.chain.acc.length := by
  simp [shiftChain]; omega

@[simp] theorem loadedLat_length (s : State) (h : s.chain.acc.length = 16) (h' : s.chain.lat.length = 16) :
    (loadedLat s).length = 16 := by
  simp [loadedLat, h, h']; omega

@[simp] theorem checkFrame_cfg (ts : Option Nat) (s : State) : (checkFrame ts s).cfg = s.cfg := by
  unfold checkFrame; split <;> simp
@[simp] theorem checkFrame_enc (ts : Option Nat) (s : State) : (checkFrame ts s).enc = s.enc := by
  unfold checkFrame; split <;> simp [raise, setSticky]
@[simp] theorem checkFrame_hold (ts : Option Nat) (s : State) : (checkFrame ts s).hold = s.hold := by
  unfold checkFrame; split <;> simp
@[simp] theorem checkFrame_mon (ts : Option Nat) (s : State) : (checkFrame ts s).mon = s.mon := by
  unfold checkFrame; split <;> simp [raise, setSticky]
@[simp] theorem checkFrame_tick (ts : Option Nat) (s : State) : (checkFrame ts s).tick = s.tick := by
  unfold checkFrame; split <;> simp
@[simp] theorem checkFrame_env (ts : Option Nat) (s : State) : (checkFrame ts s).env = s.env := by
  unfold checkFrame; split <;> simp
@[simp] theorem checkFrame_acc (ts : Option Nat) (s : State) : (checkFrame ts s).chain.acc = s.chain.acc := by
  unfold checkFrame; split <;> simp
@[simp] theorem checkFrame_log_frames (ts : Option Nat) (s : State) :
    (checkFrame ts s).log.frames = s.log.frames := by
  unfold checkFrame; split <;> simp
theorem checkFrame_complete (ts : Option Nat) (s : State) (h : frameIsComplete s = true) : checkFrame ts s = s := by
  simp [checkFrame, h]

@[simp] theorem loadChain_cfg (ts : Option Nat) (s : State) : (loadChain ts s).cfg = s.cfg := checkFrame_cfg ts s
@[simp] theorem loadChain_enc (ts : Option Nat) (s : State) : (loadChain ts s).enc = s.enc := checkFrame_enc ts s
@[simp] theorem loadChain_hold (ts : Option Nat) (s : State) : (loadChain ts s).hold = s.hold := checkFrame_hold ts s
@[simp] theorem loadChain_mon (ts : Option Nat) (s : State) : (loadChain ts s).mon = s.mon := checkFrame_mon ts s
@[simp] theorem loadChain_tick (ts : Option Nat) (s : State) : (loadChain ts s).tick = s.tick := checkFrame_tick ts s
@[simp] theorem loadChain_env (ts : Option Nat) (s : State) : (loadChain ts s).env = s.env := checkFrame_env ts s
@[simp] theorem loadChain_acc (ts : Option Nat) (s : State) : (loadChain ts s).chain.acc = s.chain.acc :=
  checkFrame_acc ts s
@[simp] theorem loadChain_lat (ts : Option Nat) (s : State) : (loadChain ts s).chain.lat = loadedLat s := rfl
@[simp] theorem loadChain_bits (ts : Option Nat) (s : State) : (loadChain ts s).chain.bitsSinceLoad = 0 := rfl
theorem loadChain_frames (ts : Option Nat) (s : State) : (loadChain ts s).log.frames =
    s.log.frames ++ [{ ts := ts, frame := loadedFrame s, complete := frameIsComplete s }] := by
  simp [loadChain]

@[simp] theorem latch_cfg (ts : Option Nat) (s : State) : (latch ts s).cfg = s.cfg := loadChain_cfg ts s
@[simp] theorem latch_enc (ts : Option Nat) (s : State) : (latch ts s).enc = s.enc := loadChain_enc ts s
@[simp] theorem latch_hold (ts : Option Nat) (s : State) : (latch ts s).hold = s.hold := loadChain_hold ts s
@[simp] theorem latch_tick (ts : Option Nat) (s : State) : (latch ts s).tick = s.tick := loadChain_tick ts s
@[simp] theorem latch_env (ts : Option Nat) (s : State) : (latch ts s).env = s.env := loadChain_env ts s
@[simp] theorem latch_chain (ts : Option Nat) (s : State) : (latch ts s).chain = (loadChain ts s).chain := rfl
@[simp] theorem latch_out (ts : Option Nat) (s : State) : (latch ts s).out = (loadChain ts s).out := rfl
@[simp] theorem latch_log (ts : Option Nat) (s : State) : (latch ts s).log = (loadChain ts s).log := rfl
theorem latch_mon (ts : Option Nat) (s : State) : (latch ts s).mon = { s.mon with pending := false } := by
  simp [latch]

/-! ### Reports -/

@[simp] theorem latchFrame_cfg (ts : Nat) (s : State) : (latchFrame ts s).cfg = s.cfg := latch_cfg _ s
@[simp] theorem latchFrame_enc (ts : Nat) (s : State) : (latchFrame ts s).enc = s.enc := latch_enc _ s
@[simp] theorem latchFrame_hold (ts : Nat) (s : State) : (latchFrame ts s).hold = s.hold := latch_hold _ s
@[simp] theorem latchFrame_tick (ts : Nat) (s : State) : (latchFrame ts s).tick = s.tick := latch_tick _ s
@[simp] theorem latchFrame_env (ts : Nat) (s : State) : (latchFrame ts s).env = s.env := latch_env _ s
theorem latchFrame_mon (ts : Nat) (s : State) : (latchFrame ts s).mon = { s.mon with pending := false } := latch_mon _ s
@[simp] theorem latchFrame_chain (ts : Nat) (s : State) : (latchFrame ts s).chain = (loadChain (some ts) s).chain := rfl

@[simp] theorem checkRise_cfg (ts : Nat) (s : State) : (checkRise ts s).cfg = s.cfg := by
  unfold checkRise; split <;> split <;> simp
@[simp] theorem checkRise_enc (ts : Nat) (s : State) : (checkRise ts s).enc = s.enc := by
  unfold checkRise; split <;> split <;> simp [raise, setSticky]
@[simp] theorem checkRise_hold (ts : Nat) (s : State) : (checkRise ts s).hold = s.hold := by
  unfold checkRise; split <;> split <;> simp
@[simp] theorem checkRise_chain (ts : Nat) (s : State) : (checkRise ts s).chain = s.chain := by
  unfold checkRise; split <;> split <;> simp [raise, setSticky]
@[simp] theorem checkRise_tick (ts : Nat) (s : State) : (checkRise ts s).tick = s.tick := by
  unfold checkRise; split <;> split <;> simp
@[simp] theorem checkRise_env (ts : Nat) (s : State) : (checkRise ts s).env = s.env := by
  unfold checkRise; split <;> split <;> simp
/-- The checks of a rising edge set sticky flags and nothing else of the monitor. -/
theorem checkRise_mon (ts : Nat) (s : State) : (checkRise ts s).mon =
    { s.mon with flagBitPeriod := s.mon.flagBitPeriod || bitPeriodBad ts s,
                 flagMissedLoad := s.mon.flagMissedLoad || loadMissed ts s } := by
  unfold checkRise; split <;> split <;> simp_all [raise, setSticky]

@[simp] theorem takeRise_cfg (ts : Nat) (s : State) : (takeRise ts s).cfg = s.cfg := checkRise_cfg ts s
@[simp] theorem takeRise_enc (ts : Nat) (s : State) : (takeRise ts s).enc = s.enc := checkRise_enc ts s
@[simp] theorem takeRise_hold (ts : Nat) (s : State) : (takeRise ts s).hold = s.hold := checkRise_hold ts s
@[simp] theorem takeRise_chain (ts : Nat) (s : State) : (takeRise ts s).chain = s.chain := checkRise_chain ts s
@[simp] theorem takeRise_tick (ts : Nat) (s : State) : (takeRise ts s).tick = s.tick := checkRise_tick ts s
@[simp] theorem takeRise_env (ts : Nat) (s : State) : (takeRise ts s).env = s.env := checkRise_env ts s
theorem takeRise_mon (ts : Nat) (s : State) : (takeRise ts s).mon =
    { s.mon with flagBitPeriod := s.mon.flagBitPeriod || bitPeriodBad ts s,
                 flagMissedLoad := s.mon.flagMissedLoad || loadMissed ts s, riseTs := ts, phase := .high } := by
  simp [takeRise, checkRise_mon]

@[simp] theorem takeBadPulse_cfg (ts : Nat) (s : State) : (takeBadPulse ts s).cfg = s.cfg := by
  unfold takeBadPulse; split <;> simp
@[simp] theorem takeBadPulse_enc (ts : Nat) (s : State) : (takeBadPulse ts s).enc = s.enc := by
  unfold takeBadPulse; split <;> simp [raise, setSticky]
@[simp] theorem takeBadPulse_hold (ts : Nat) (s : State) : (takeBadPulse ts s).hold = s.hold := by
  unfold takeBadPulse; split <;> simp
@[simp] theorem takeBadPulse_tick (ts : Nat) (s : State) : (takeBadPulse ts s).tick = s.tick := by
  unfold takeBadPulse; split <;> simp
@[simp] theorem takeBadPulse_env (ts : Nat) (s : State) : (takeBadPulse ts s).env = s.env := by
  unfold takeBadPulse; split <;> simp

/-- Sub-step 2 of a report is the work of DEC and CHAIN alone. -/
theorem takeLevel_others (ts : Nat) (level : Bool) (s : State) :
    (takeLevel ts level s).cfg = s.cfg ∧ (takeLevel ts level s).enc = s.enc ∧ (takeLevel ts level s).hold = s.hold ∧
    (takeLevel ts level s).tick = s.tick ∧ (takeLevel ts level s).env = s.env := by
  unfold takeLevel; split
  · simp
  · split
    · simp
    · split
      · simp
      · split <;> simp

/-- A report is the work of DEC and CHAIN alone (R61). -/
theorem takeReport_others (ts : Nat) (level : Bool) (s : State) :
    (takeReport ts level s).cfg = s.cfg ∧ (takeReport ts level s).enc = s.enc ∧ (takeReport ts level s).hold = s.hold ∧
    (takeReport ts level s).tick = s.tick ∧ (takeReport ts level s).env = s.env := by
  have h := takeLevel_others ts level
  simp only [takeReport, h]
  split <;> simp

/-- A report out of order is refused (R131). -/
theorem processReport_refused (ts : Nat) (level : Bool) (s : State) (h : ts < s.mon.lastTs) :
    processReport ts level s = .refused (.reportOutOfOrder ts s.mon.lastTs) := inOrder_late _ h

/-- What a report can do: in order it answers a next state, ignored or taken (R130, R143). -/
theorem processReport_next {ts : Nat} {level : Bool} {s t : State} :
    processReport ts level s = .next t ↔
      s.mon.lastTs ≤ ts ∧ t = if s.mon.cfgSet then takeReport ts level s else s := by
  simp only [processReport, inOrder_next, Host.Outcome.next.injEq]
  exact and_congr_right fun _ => eq_comm

/-! ### Writes -/

/-- What a delivered pixel write can do: it takes its step, or it waits last (R152). -/
theorem deliverWrite_cases (k : Nat) (v : RegValue) (s : State) :
    (s.hold.valid = false ∧ s.env.held = [] ∧ deliverWrite k v s = writePix k v s) ∨
    (¬ (s.hold.valid = false ∧ s.env.held = []) ∧
      deliverWrite k v s = { s with env := { s.env with held := s.env.held ++ [{ k := k, v := v }] } }) := by
  by_cases h : s.hold.valid = false ∧ s.env.held = []
  · exact .inl ⟨h.1, h.2, by simp [deliverWrite, h]⟩
  · exact .inr ⟨h, by unfold deliverWrite; rw [if_neg h]⟩

/-- What the release of a waiting write can do: nothing, or fill the free holding register with the first. -/
theorem releaseHeld_cases (s : State) :
    ((s.hold.valid = true ∨ s.env.held = []) ∧ releaseHeld s = s) ∨
    (∃ w ws, s.hold.valid = false ∧ s.env.held = w :: ws ∧
      releaseHeld s = { writePix w.k w.v s with env := { s.env with held := ws } }) := by
  unfold releaseHeld
  split
  · rename_i h; exact .inl ⟨.inl h, rfl⟩
  · rename_i h
    split
    · rename_i h'; exact .inl ⟨.inr h', rfl⟩
    · rename_i w ws h'; exact .inr ⟨w, ws, by simpa using h, h', rfl⟩

/-- Releasing a waiting write touches the holding register and the list of those that wait. -/
theorem releaseHeld_others (s : State) :
    releaseHeld s = { s with hold := (releaseHeld s).hold, env := { s.env with held := (releaseHeld s).env.held } } := by
  rcases releaseHeld_cases s with ⟨-, h⟩ | ⟨w, ws, -, -, h⟩ <;> rw [h]
  rfl

/-- With nothing waiting, the end of a tick lets time go on and nothing else. -/
theorem endTick_nothing_held (s : State) (h : s.env.held = []) : endTick s = { s with tick := s.tick + 1 } := by
  have : releaseHeld s = s := by unfold releaseHeld; split <;> simp [h]
  simp only [endTick, this]

/-- The end of a tick fills the holding register and lets time go on. -/
theorem endTick_others (s : State) : endTick s =
    { s with hold := (releaseHeld s).hold, env := { s.env with held := (releaseHeld s).env.held }, tick := s.tick + 1 } := by
  unfold endTick
  rw [releaseHeld_others s]

@[simp] theorem endTick_cfg (s : State) : (endTick s).cfg = s.cfg := by rw [endTick_others]
@[simp] theorem endTick_enc (s : State) : (endTick s).enc = s.enc := by rw [endTick_others]
@[simp] theorem endTick_chain (s : State) : (endTick s).chain = s.chain := by rw [endTick_others]
@[simp] theorem endTick_mon (s : State) : (endTick s).mon = s.mon := by rw [endTick_others]
@[simp] theorem endTick_out (s : State) : (endTick s).out = s.out := by rw [endTick_others]
@[simp] theorem endTick_log (s : State) : (endTick s).log = s.log := by rw [endTick_others]
@[simp] theorem endTick_tick (s : State) : (endTick s).tick = s.tick + 1 := by rw [endTick_others]
@[simp] theorem endTick_reportTime (s : State) : (endTick s).reportTime = s.reportTime + 1 := by rw [endTick_others]; rfl
@[simp] theorem endTick_par (s : State) : (endTick s).env.par = s.env.par := by rw [endTick_others]
@[simp] theorem endTick_stream (s : State) : (endTick s).env.stream = s.env.stream := by rw [endTick_others]
@[simp] theorem endTick_producer (s : State) : (endTick s).env.producer = s.env.producer := by rw [endTick_others]

/-! ### Reset -/

@[simp] theorem resetAll_env (s : State) : (resetAll s).env = s.env := rfl
@[simp] theorem resetButMonitor_env (s : State) : (resetButMonitor s).env = s.env := rfl
@[simp] theorem resetButMonitor_cfg (s : State) : (resetButMonitor s).cfg = State.reset.cfg := rfl
@[simp] theorem resetButMonitor_enc (s : State) : (resetButMonitor s).enc = State.reset.enc := rfl
@[simp] theorem resetButMonitor_hold (s : State) : (resetButMonitor s).hold = State.reset.hold := rfl
@[simp] theorem resetButMonitor_chain (s : State) : (resetButMonitor s).chain = s.chain := rfl
@[simp] theorem resetButMonitor_mon (s : State) : (resetButMonitor s).mon = { s.mon with tsBase := s.reportTime } := rfl
@[simp] theorem resetButMonitor_frames (s : State) : (resetButMonitor s).log.frames = s.log.frames := rfl
@[simp] theorem resetButMonitor_tick (s : State) : (resetButMonitor s).tick = 0 := rfl
/-- The monitor's time goes on over the reset that does not reset it (R186). -/
@[simp] theorem resetButMonitor_reportTime (s : State) : (resetButMonitor s).reportTime = s.reportTime := rfl

end Sys2Proof.Machine
end

