-- ==== Sys2Proof/Laws/Chain.lean ====
section
/-! SUPPORT. The chain as one long shift register: bit `j` of the chain is bit `j % 24` of register `j / 24`. -/

namespace Sys2Proof.Machine

/-- Bit `j` of a chain of registers, bit 0 being the newest. -/
def chainBit (l : List PixelWord) (j : Nat) : Bool := (l.getD (j / 24) 0).getLsbD (j % 24)

/-- One bit into a register (R121). -/
theorem shifted_getLsbD (w : PixelWord) (b : Bool) (k : Nat) (hk : k < 24) :
    (w <<< 1 ||| BitVec.setWidth 24 (BitVec.ofBool b)).getLsbD k = if k = 0 then b else w.getLsbD (k - 1) := by
  simp only [BitVec.getLsbD_or, BitVec.getLsbD_shiftLeft, BitVec.getLsbD_setWidth, hk, decide_true, Bool.true_and]
  rcases Nat.eq_zero_or_pos k with rfl | h
  · cases b <;> simp
  · have : ¬ k < 1 := by omega
    rw [if_neg (by omega)]
    simp [this, BitVec.getLsbD_ofBool]; omega

/-- R121: a shift moves every bit of the chain one place on, and the new bit is bit 0. -/
theorem shiftRegs_chainBit (b : Bool) (l : List PixelWord) (j : Nat) (hj : j < 24 * l.length) :
    chainBit (shiftRegs b l) j = if j = 0 then b else chainBit l (j - 1) := by
  unfold chainBit
  have hk : j / 24 < l.length := by omega
  rw [shiftRegs_get b l _ hk, shifted_getLsbD _ _ _ (by omega)]
  by_cases h0 : j = 0
  · simp [h0]
  · rw [if_neg h0]
    by_cases hm : j % 24 = 0
    · have h1 : (j - 1) / 24 = j / 24 - 1 := by omega
      have h2 : (j - 1) % 24 = 23 := by omega
      rw [if_pos hm, if_neg (by omega), h1, h2]; rfl
    · have h1 : (j - 1) / 24 = j / 24 := by omega
      have h2 : (j - 1) % 24 = j % 24 - 1 := by omega
      rw [if_neg hm, h1, h2]

/-- The registers after bits shifted one after another. -/
def shiftBits (bs : List Bool) (l : List PixelWord) : List PixelWord := bs.foldl (fun l b => shiftRegs b l) l

@[simp] theorem shiftBits_nil (l : List PixelWord) : shiftBits [] l = l := rfl

@[simp] theorem shiftBits_cons (b : Bool) (bs : List Bool) (l : List PixelWord) :
    shiftBits (b :: bs) l = shiftBits bs (shiftRegs b l) := rfl

@[simp] theorem shiftBits_length (bs : List Bool) (l : List PixelWord) : (shiftBits bs l).length = l.length := by
  induction bs generalizing l with
  | nil => rfl
  | cons b bs ih => rw [shiftBits_cons, ih, shiftRegs_length]

/-- After a sequence of shifts the newest bits are those shifted in, and behind them stand the older ones. -/
theorem shiftBits_chainBit (bs : List Bool) (l : List PixelWord) (j : Nat) (hj : j < 24 * l.length) :
    chainBit (shiftBits bs l) j =
      if j < bs.length then bs.getD (bs.length - 1 - j) false else chainBit l (j - bs.length) := by
  induction bs generalizing l with
  | nil => simp
  | cons b bs ih =>
    rw [shiftBits_cons, ih _ (by simpa using hj)]
    by_cases h1 : j < bs.length
    · have : (b :: bs).length - 1 - j = (bs.length - 1 - j) + 1 := by simp; omega
      rw [if_pos h1, if_pos (by simp; omega), this, List.getD_cons_succ]
    · rw [if_neg h1, shiftRegs_chainBit _ _ _ (by omega)]
      by_cases h2 : j = bs.length
      · subst h2; simp
      · rw [if_neg (by omega), if_neg (by simp; omega)]
        congr 1

/-- Shifts invoked one after another (R121), the chain being no longer than its registers. -/
theorem execAll_chainShift (bs : List Bool) (s : State) (h : s.mon.N ≤ s.chain.acc.length) :
    execAll (bs.map .chainShift) s = .next { s with chain := { s.chain with
      acc := shiftBits bs (s.chain.acc.take s.mon.N) ++ s.chain.acc.drop s.mon.N
      bitsSinceLoad := s.chain.bitsSinceLoad + bs.length } } := by
  induction bs generalizing s with
  | nil => simp [execAll]
  | cons b bs ih =>
    have h1 : (shiftRegs b (s.chain.acc.take s.mon.N)).length = s.mon.N := by simp [h]
    have hrun : execAll ((b :: bs).map .chainShift) s = execAll (bs.map .chainShift) (shiftChain b s).2 := rfl
    rw [hrun, ih (shiftChain b s).2 (by rw [shiftChain_acc_length]; exact h)]
    have e1 : (shiftChain b s).2.chain.acc.take s.mon.N = shiftRegs b (s.chain.acc.take s.mon.N) := by
      simp only [shiftChain]; rw [List.take_left' h1]
    have e2 : (shiftChain b s).2.chain.acc.drop s.mon.N = s.chain.acc.drop s.mon.N := by
      simp only [shiftChain]; rw [List.drop_left' h1]
    have e3 : (shiftChain b s).2.mon.N = s.mon.N := rfl
    rw [e3, e1, e2]
    simp only [shiftChain, List.length_cons, shiftBits_cons, Nat.add_assoc, Nat.add_comm 1]

theorem wordBits_length (w : PixelWord) : (wordBits w).length = 24 := by simp [wordBits]

theorem wordBits_getD (w : PixelWord) (j : Nat) (hj : j < 24) : (wordBits w).getD j false = w.getLsbD (23 - j) := by
  simp [wordBits, List.getD, hj]

/-- Bit `24 * i + j` of the bits of words in order is bit `23 - j` of word `i` (R73). -/
theorem flatMap_wordBits_getD (ws : List PixelWord) (i j : Nat) (hi : i < ws.length) (hj : j < 24) :
    (ws.flatMap wordBits).getD (24 * i + j) false = (ws.getD i 0).getLsbD (23 - j) := by
  induction ws generalizing i with
  | nil => simp at hi
  | cons w ws ih =>
    rw [List.flatMap_cons]
    cases i with
    | zero =>
      rw [List.getD_append _ _ _ _ (by rw [wordBits_length]; omega), Nat.mul_zero, Nat.zero_add, wordBits_getD w j hj,
        List.getD_cons_zero]
    | succ i =>
      rw [List.getD_append_right _ _ _ _ (by rw [wordBits_length]; omega), wordBits_length, List.getD_cons_succ,
        ← ih i (by simpa using hi)]
      congr 1; omega

theorem flatMap_wordBits_length (ws : List PixelWord) : (ws.flatMap wordBits).length = 24 * ws.length := by
  induction ws with
  | nil => rfl
  | cons w ws ih => rw [List.flatMap_cons, List.length_append, wordBits_length, ih, List.length_cons]; omega

end Sys2Proof.Machine
end

