-- ==== Sys2Proof/Laws/Decode.lean ====
section
/-! SUPPORT. The byte fields of a stimulus: what is written is read, and what is read was written. -/

namespace Sys2Proof

@[simp] theorem leBytes_length (n x : Nat) : (leBytes n x).length = n := by
  induction n generalizing x with
  | zero => rfl
  | succ n ih => simp [leBytes, ih]

theorem leNat_lt (bs : List Byte) : leNat bs < 256 ^ bs.length := by
  induction bs with
  | nil => simp [leNat]
  | cons b bs ih =>
    have := b.isLt
    simp only [leNat, List.length_cons, Nat.pow_succ]; omega

/-- Reading what was written gives the number back, where it fits. -/
theorem leNat_leBytes (n x : Nat) (h : x < 256 ^ n) : leNat (leBytes n x) = x := by
  induction n generalizing x with
  | zero => simp at h; simp [leBytes, leNat, h]
  | succ n ih =>
    rw [Nat.pow_succ] at h
    have := ih (x / 256) (by omega)
    simp only [leBytes, leNat, this, BitVec.toNat_ofNat]; omega

/-- Writing what was read gives the bytes back. -/
theorem leBytes_leNat (bs : List Byte) : leBytes bs.length (leNat bs) = bs := by
  induction bs with
  | nil => rfl
  | cons b bs ih =>
    have hb := b.isLt
    have h1 : (b.toNat + 256 * leNat bs) / 256 = leNat bs := by omega
    have h2 : BitVec.ofNat 8 (b.toNat + 256 * leNat bs) = b := by
      apply BitVec.eq_of_toNat_eq
      rw [BitVec.toNat_ofNat]; omega
    simp only [List.length_cons, leNat, leBytes, h1, h2, ih]

theorem leBytes_leNat' (n : Nat) (bs : List Byte) (h : bs.length = n) : leBytes n (leNat bs) = bs := h ▸ leBytes_leNat bs

theorem numAt_lt (off len : Nat) (r : List Byte) : numAt off len r < 256 ^ len := by
  have h1 := leNat_lt ((r.drop off).take len)
  exact Nat.lt_of_lt_of_le h1 (Nat.pow_le_pow_right (by omega) (by simp))

/-- A number that stands after a prefix. -/
theorem numAt_append (pre r : List Byte) (n x : Nat) (h : x < 256 ^ n) :
    numAt pre.length n (pre ++ (leBytes n x ++ r)) = x := by
  unfold numAt
  rw [List.drop_left', List.take_left' (leBytes_length n x), leNat_leBytes n x h]
  rfl

/-- The bytes of a field, written again from its number. -/
theorem leBytes_numAt (off len : Nat) (r : List Byte) (h : off + len ≤ r.length) :
    leBytes len (numAt off len r) = (r.drop off).take len :=
  leBytes_leNat' len _ (by simp; omega)

/-! ### Numbers of any size -/

/-- The bound on the recursion does not show, once it is large enough. -/
theorem natGroups_bound (n m x : Nat) (hn : x < 2 ^ (n + 1)) (hm : x < 2 ^ (m + 1)) : natGroups n x = natGroups m x := by
  induction n generalizing m x with
  | zero =>
    cases m with
    | zero => rfl
    | succ m => simp only [natGroups]; rw [if_pos (by omega)]
  | succ n ih =>
    cases m with
    | zero => simp only [natGroups]; rw [if_pos (by omega)]
    | succ m =>
      rw [Nat.pow_succ] at hn hm
      simp only [natGroups]
      split
      · rfl
      · rw [ih m (x / 128) (by omega) (by omega)]

theorem natBytes_small (x : Nat) (h : x < 128) : natBytes x = [BitVec.ofNat 8 x] := by
  unfold natBytes
  cases x.log2 with
  | zero => rfl
  | succ n => simp only [natGroups]; rw [if_pos h]

theorem natBytes_large (x : Nat) (h : 128 ≤ x) :
    natBytes x = BitVec.ofNat 8 (x % 128 + 128) :: natBytes (x / 128) := by
  have h1 : x < 2 ^ (x.log2 + 1) := Nat.lt_log2_self
  unfold natBytes
  cases hl : x.log2 with
  | zero => rw [hl] at h1; omega
  | succ n =>
    rw [hl, Nat.pow_succ] at h1
    simp only [natGroups]
    rw [if_neg (by omega), natGroups_bound n (x / 128).log2 (x / 128) (by omega) Nat.lt_log2_self]

/-- Reading a number that was written gives it back, and the bytes after it. -/
theorem readNat_natBytes (x : Nat) (r : List Byte) : readNat (natBytes x ++ r) = some (x, r) := by
  induction x using Nat.strongRecOn with
  | _ x ih =>
    by_cases h : x < 128
    · have hb : (BitVec.ofNat 8 x).toNat = x := by rw [BitVec.toNat_ofNat]; omega
      rw [natBytes_small x h]
      simp only [List.cons_append, List.nil_append, readNat, hb, if_pos h]
    · have hb : (BitVec.ofNat 8 (x % 128 + 128)).toNat = x % 128 + 128 := by rw [BitVec.toNat_ofNat]; omega
      rw [natBytes_large x (by omega)]
      simp only [List.cons_append, readNat, hb, ih (x / 128) (by omega)]
      rw [if_neg (by omega), if_neg (by omega), show x % 128 + 128 - 128 + 128 * (x / 128) = x by omega]

/-- A number that is read was written, with the bytes after it. -/
theorem natBytes_of_readNat {bs r : List Byte} {x : Nat} (h : readNat bs = some (x, r)) : bs = natBytes x ++ r := by
  induction bs generalizing x with
  | nil => simp [readNat] at h
  | cons b bs ih =>
    have hb := b.isLt
    unfold readNat at h
    split at h
    · rename_i hlt
      simp only [Option.some.injEq, Prod.mk.injEq] at h
      obtain ⟨rfl, rfl⟩ := h
      rw [natBytes_small _ hlt]; simp
    · split at h
      · cases h
      · rename_i y rest hy
        split at h
        · cases h
        · simp only [Option.some.injEq, Prod.mk.injEq] at h
          obtain ⟨rfl, rfl⟩ := h
          rw [natBytes_large _ (by omega), ih hy, show (b.toNat - 128 + 128 * y) / 128 = y by omega,
            show (b.toNat - 128 + 128 * y) % 128 + 128 = b.toNat by omega]
          simp

/-- The number that is all of the bytes left. -/
@[simp] theorem lastNat_natBytes (tag x : Nat) (f : Nat → Except DecodeError Instr) : lastNat tag (natBytes x) f = f x := by
  have := readNat_natBytes x []
  rw [List.append_nil] at this
  simp [lastNat, this]

/-- Where the bytes left are read as one number, they are its bytes. -/
theorem lastNat_ok {tag : Nat} {r : List Byte} {f : Nat → Except DecodeError Instr} {i : Instr} (h : lastNat tag r f = .ok i) :
    ∃ x, r = natBytes x ∧ f x = .ok i := by
  unfold lastNat at h
  split at h
  · rename_i x hx
    exact ⟨x, by simpa using natBytes_of_readNat hx, h⟩
  · cases h

theorem natBytes_ne_nil (x : Nat) : natBytes x ≠ [] := by
  by_cases h : x < 128
  · simp [natBytes_small x h]
  · simp [natBytes_large x (by omega)]

/-- A number after a prefix of `n` bytes: the prefix is whole. -/
theorem length_of_drop {n x : Nat} {r : List Byte} (h : r.drop n = natBytes x) : n < r.length := by
  by_contra hn
  exact natBytes_ne_nil x (by rw [← h]; exact List.drop_eq_nil_of_le (by omega))

/-! ### The operation of each tag that has operand bytes of its own -/

theorem decode_cell (p : Params) (r : List Byte) : decode p (1 :: r) = decodeCell r := rfl

theorem decode_word (p : Params) (r : List Byte) : decode p (2 :: r) =
    lastNat 2 (r.drop 3) fun t0 => .ok (.wordPixel (pixelOfWord (numAt 0 3 r)) t0) := rfl

theorem decode_gap (p : Params) (r : List Byte) : decode p (3 :: r) = decodeGap r := rfl

theorem decode_regConfig (p : Params) (r : List Byte) : decode p (4 :: r) =
    sized 4 4 r (.ok (.regConfig (BitVec.ofNat 32 (numAt 0 4 r)))) := rfl

theorem decode_regPixel (p : Params) (r : List Byte) : decode p (5 :: r) =
    sized 5 5 r (decodePixReg p r) := rfl

theorem decode_item (p : Params) (r : List Byte) : decode p (6 :: r) =
    lastNat 6 (r.drop 5) fun notBefore => below 16 (numAt 3 1 r) (below 8 (numAt 4 1 r)
      (.ok (.itemStream ((numAt 4 1 r).testBit 2) (itemOf r) notBefore))) := rfl

theorem decode_shift (p : Params) (r : List Byte) : decode p (32 :: r) =
    sized 32 1 r (withBit (numAt 0 1 r) fun b => .ok (.chainShift b)) := rfl

theorem decode_monConfig (p : Params) (r : List Byte) : decode p (55 :: r) =
    sized 55 2 r (below 16 (numAt 1 1 r)
      (.ok (.monConfig (BitVec.ofNat 8 (numAt 0 1 r)) (BitVec.ofNat 4 (numAt 1 1 r))))) := rfl

theorem decode_write (p : Params) (r : List Byte) : decode p (64 :: r) =
    lastNat 64 (r.drop 4) fun offset => .ok (selectWrite p offset (BitVec.ofNat 32 (numAt 0 4 r))) := rfl

/-! ### Fields in place -/

theorem numAt_cons (off len : Nat) (b : Byte) (r : List Byte) : numAt (off + 1) len (b :: r) = numAt off len r := rfl

theorem numAt_head (b : Byte) (r : List Byte) : numAt 0 1 (b :: r) = b.toNat := by simp [numAt, leNat]

theorem numAt_leBytes (n x : Nat) (r : List Byte) (h : x < 256 ^ n) : numAt 0 n (leBytes n x ++ r) = x :=
  numAt_append [] r n x h

theorem numAt_leBytes_end (n x : Nat) (h : x < 256 ^ n) : numAt 0 n (leBytes n x) = x := by
  simpa using numAt_leBytes n x [] h

theorem numAt_skip (n off len x : Nat) (r : List Byte) : numAt (n + off) len (leBytes n x ++ r) = numAt off len r := by
  unfold numAt
  rw [← List.drop_drop, List.drop_left' (leBytes_length n x)]

theorem flagByte_toNat (first last valid : Bool) :
    (flagByte first last valid).toNat = first.toNat + 2 * last.toNat + 4 * valid.toNat := by
  cases first <;> cases last <;> cases valid <;> rfl

/-- The item read from the bytes of an item is that item. -/
theorem itemOf_itemBytes (it : Item) (valid : Bool) (r : List Byte) : itemOf (itemBytes it valid ++ r) = it := by
  cases it with
  | mk red green blue pos first last =>
    have hf : (flagByte first last valid).toNat.testBit 0 = first ∧ (flagByte first last valid).toNat.testBit 1 = last := by
      cases first <;> cases last <;> cases valid <;> decide
    simp only [itemOf, itemBytes, List.cons_append, List.nil_append, numAt_head, numAt_cons, BitVec.ofNat_toNat,
      BitVec.setWidth_eq, hf, Item.mk.injEq, true_and, and_true]
    simp

/-- The pixel read from a pixel word is that pixel (R72). -/
theorem pixelOfWord_wordOfPixel (px : Pixel) : pixelOfWord (wordOfPixel px) = px := by
  cases px with
  | mk g r b =>
    have := g.isLt
    have := r.isLt
    have := b.isLt
    simp only [pixelOfWord, wordOfPixel, Pixel.mk.injEq]
    refine ⟨?_, ?_, ?_⟩ <;> apply BitVec.eq_of_toNat_eq <;> rw [BitVec.toNat_ofNat] <;> omega

/-- The word of the pixel read from a 24-bit word is that word (R72). -/
theorem wordOfPixel_pixelOfWord (w : Nat) (h : w < 2 ^ 24) : wordOfPixel (pixelOfWord w) = w := by
  simp only [pixelOfWord, wordOfPixel, BitVec.toNat_ofNat]; omega

theorem wordOfPixel_lt (px : Pixel) : wordOfPixel px < 256 ^ 3 := by
  have := px.green.isLt
  have := px.red.isLt
  have := px.blue.isLt
  unfold wordOfPixel
  omega

/-! ### The register map -/

/-- The offset of a position's pixel register leads back to the position (R51). -/
theorem pixRegIndex_of_pixRegOffset {p : Params} {k offset : Nat} (hw : p.wf = true) (h : p.pixRegOffset k = some offset) :
    p.pixRegIndex offset = some k := by
  simp only [Params.wf, Bool.and_eq_true, decide_eq_true_eq] at hw
  obtain ⟨hk, he⟩ := List.getElem?_eq_some_iff.1 h
  unfold Params.pixRegIndex
  rw [List.idxOf?_eq_some_iff]
  refine ⟨hk, he, ?_⟩
  intro j hj hj'
  have := (List.Nodup.getElem_inj_iff hw.1.2).1 (hj'.trans he.symm)
  omega

/-- An offset that leads to a position is that position's. -/
theorem pixRegOffset_of_pixRegIndex {p : Params} {k offset : Nat} (h : p.pixRegIndex offset = some k) :
    p.pixRegOffset k = some offset := by
  unfold Params.pixRegIndex at h
  rw [List.idxOf?_eq_some_iff] at h
  obtain ⟨hk, he, -⟩ := h
  exact List.getElem?_eq_some_iff.2 ⟨hk, he⟩

/-- A pixel register's offset is not 0. -/
theorem pixRegOffset_ne_zero {p : Params} {k offset : Nat} (hw : p.wf = true) (h : p.pixRegOffset k = some offset) :
    offset ≠ 0 := by
  simp only [Params.wf, Bool.and_eq_true, List.all_eq_true, decide_eq_true_eq] at hw
  exact hw.2 offset (List.mem_of_getElem? h)

end Sys2Proof
end

