-- ==== Sys2Proof/Laws/Exec.lean ====
section
/-! SUPPORT. What one operation, one tick and one step can do: the elementary updates that every one of them is made of. -/

namespace Sys2Proof.Machine

/-- The elementary updates of a report, each with the condition under which a report makes it. -/
inductive SubStep : State → State → Prop where
  /-- The outputs of the report before are gone. -/
  | clear (s : State) : SubStep s s.clearOut
  /-- A report in order gives its timestamp. -/
  | accept (s : State) (ts : Nat) (h : s.mon.lastTs ≤ ts) : SubStep s (acceptTs ts s)
  /-- The report just accepted latches. -/
  | latch (s : State) (h : timeoutDue s.mon.lastTs s = true) : SubStep s (latchFrame s.mon.lastTs s)
  /-- The report just accepted is a rising edge. -/
  | rise (s : State) (h : s.mon.phase ≠ .high) : SubStep s (takeRise s.mon.lastTs s)
  /-- The report just accepted ends a pulse that is a bit. -/
  | fall (s : State) (b : Bool) (h : s.mon.phase = .high) : SubStep s (endPulse s.mon.lastTs (takeBit b s))
  /-- The report just accepted ends a pulse that is no bit. -/
  | badFall (s : State) (h : s.mon.phase = .high) :
      SubStep s (endPulse s.mon.lastTs (takeBadPulse s.mon.lastTs s))

/-- The elementary updates of the machine, each with the condition under which an operation makes it. SYS.RESET is not among
them. -/
inductive Micro : State → State → Prop where
  /-- Part of a report. -/
  | report {s t : State} (h : SubStep s t) : Micro s t
  /-- An input leaves the list of those to come. -/
  | input (s : State) (rest : List Pending) : Micro s { s with env := { s.env with pending := rest } }
  /-- One operation of the encoder. -/
  | encoder {s t : State} (i : Instr) (hi : i.isEnc = true) (h : exec i s = .next t) : Micro s t
  /-- A shift. -/
  | shift (s : State) (b : Bool) : Micro s (shiftChain b s).2
  /-- A load invoked directly. -/
  | load (s : State) : Micro s (latch none s)
  /-- The monitor's configuration is taken. -/
  | monitorTaken (s : State) (d : Byte) (l : BitVec 4) (h : quiescent s = true) :
      Micro s { s with mon := { s.mon with S := subPeriod d, N := chainLength l, cfgSet := true } }
  /-- The monitor's configuration is rejected. -/
  | monitorRejected (s : State) : Micro s { s with mon := { s.mon with cfgReject := true } }
  /-- A configuration write is delivered. -/
  | configWrite (s : State) (v : RegValue) : Micro s (writeCfg v s)
  /-- A pixel write is delivered: the facade is the producer. -/
  | pixelWrite (s : State) (k : Nat) (v : RegValue) (h : s.env.producer ≠ some .stream) :
      Micro s (deliverWrite k v { s with env := { s.env with producer := some .facade } })
  /-- The holding register is freed. -/
  | free (s : State) : Micro s (freeHold s)
  /-- The producer's item passes on. -/
  | pop (s : State) : Micro s (popStream s)
  /-- The external producer queues an item. -/
  | queue (s : State) (q : Queued) (h : s.env.producer ≠ some .facade) :
      Micro s { s with env := { s.env with producer := some .stream, stream := s.env.stream ++ [q] } }
  /-- The external producer withdraws what it has queued. -/
  | withdraw (s : State) : Micro s { s with env := { s.env with stream := [] } }
  /-- The tick ends. -/
  | timePasses (s : State) : Micro s (endTick s)

/-- A sequence of the updates of reports. -/
abbrev SubSteps (s t : State) : Prop := Relation.ReflTransGen SubStep s t

/-- A sequence of elementary updates. -/
abbrev Micros (s t : State) : Prop := Relation.ReflTransGen Micro s t

theorem SubSteps.micros {s t : State} (h : SubSteps s t) : Micros s t := by
  induction h with
  | refl => exact .refl
  | tail _ h ih => exact .tail ih (.report h)

/-- What each update keeps, a sequence of them keeps. -/
theorem Micros.keeps {P : State → Prop} {s t : State} (h : Micros s t) (hs : P s)
    (hP : ∀ u v, Micro u v → P u → P v) : P t := by
  induction h with
  | refl => exact hs
  | tail _ h ih => exact hP _ _ h ih

/-- What each update of a report keeps, a sequence of them keeps. -/
theorem SubSteps.keeps {P : State → Prop} {s t : State} (h : SubSteps s t) (hs : P s)
    (hP : ∀ u v, SubStep u v → P u → P v) : P t := by
  induction h with
  | refl => exact hs
  | tail _ h ih => exact hP _ _ h ih

/-- A reflexive and transitive relation that holds of each update holds of a sequence of them. -/
theorem Micros.related {R : State → State → Prop} {s t : State} (h : Micros s t) (hr : ∀ u, R u u)
    (ht : ∀ u v w, R u v → R v w → R u w) (hR : ∀ u v, Micro u v → R u v) : R s t := by
  induction h with
  | refl => exact hr s
  | tail _ h ih => exact ht _ _ _ ih (hR _ _ h)

/-! ### Reports -/

theorem takeLevel_subSteps (level : Bool) (s : State) : SubSteps s (takeLevel s.mon.lastTs level s) := by
  unfold takeLevel
  split
  · exact .refl
  · rename_i hl
    cases level with
    | true => exact .single (.rise s (by simpa [heldLevel] using hl))
    | false =>
      have hp : s.mon.phase = .high := by simpa [heldLevel] using hl
      simp only [Bool.false_eq_true, if_false]
      split
      · exact .single (.fall s false hp)
      · split
        · exact .single (.fall s true hp)
        · exact .single (.badFall s hp)

theorem takeReport_subSteps {ts : Nat} (level : Bool) {s : State} (h : s.mon.lastTs ≤ ts) :
    SubSteps s (takeReport ts level s) := by
  have h0 : SubSteps s (acceptTs ts s.clearOut) := .tail (.single (.clear s)) (.accept _ ts h)
  simp only [takeReport]
  split
  · rename_i hd
    refine .trans (.tail h0 (.latch (acceptTs ts s.clearOut) hd)) ?_
    have := takeLevel_subSteps level (latchFrame ts (acceptTs ts s.clearOut))
    rwa [latchFrame_mon] at this
  · exact .trans h0 (takeLevel_subSteps level (acceptTs ts s.clearOut))

theorem processReport_subSteps {ts : Nat} {level : Bool} {s t : State} (h : processReport ts level s = .next t) :
    SubSteps s t := by
  obtain ⟨h1, rfl⟩ := processReport_next.1 h
  split
  · exact takeReport_subSteps level h1
  · exact .refl

theorem wireCell_subSteps {b : Bool} {t0 : Nat} {s t : State} (h : wireCell b t0 s = .next t) : SubSteps s t := by
  obtain ⟨s1, h1, h2⟩ := andThen_next.1 h
  exact .trans (processReport_subSteps h1) (processReport_subSteps h2)

theorem wireCells_subSteps {w : PixelWord} {S n t0 : Nat} {s t : State} (h : wireCells w S n t0 s = .next t) :
    SubSteps s t := by
  induction n generalizing t0 s with
  | zero => simp only [wireCells, Host.Outcome.next.injEq] at h; exact h ▸ .refl
  | succ n ih =>
    obtain ⟨s1, h1, h2⟩ := andThen_next.1 h
    exact .trans (wireCell_subSteps h1) (ih h2)

/-! ### Operations -/

theorem deliverPixel_micros {k : Nat} {v : RegValue} {s t : State} (h : deliverPixel k v s = .next t) : Micros s t := by
  unfold deliverPixel at h
  split at h
  · split at h
    · cases h
    · rename_i hp
      simp only [Host.Outcome.next.injEq] at h
      exact h ▸ .single (.pixelWrite s k v hp)
  · cases h

theorem memWrite_micros {offset : Nat} {v : RegValue} {s t : State} (h : memWrite offset v s = .next t) :
    Micros s t := by
  unfold memWrite at h
  split at h
  · simp only [Host.Outcome.next.injEq] at h; exact h ▸ .single (.configWrite s v)
  · split at h
    · exact deliverPixel_micros h
    · simp only [Host.Outcome.next.injEq] at h; exact h ▸ .refl

/-- Every operation by which a report, or a part of one, reaches the monitor is a sequence of the updates of reports. -/
theorem exec_subSteps {i : Instr} {s t : State} (h : exec i s = .next t) (hi : i.isReport = true) : SubSteps s t := by
  cases i <;> simp only [Instr.isReport, Bool.false_eq_true] at hi <;> clear hi
  case cellBit0 => exact wireCell_subSteps h
  case cellBit1 => exact wireCell_subSteps h
  case wordPixel => exact wireCells_subSteps h
  case frameGap => exact processReport_subSteps h
  case report => exact processReport_subSteps h
  case decIgnore =>
    simp only [exec, execDecIgnore, inOrder_next, selectedWhen_next] at h; exact h.2.2 ▸ .refl
  case decTimeout ts _ =>
    simp only [exec, execDecTimeout, inOrder_next, selectedWhen_next] at h
    obtain ⟨h0, ⟨-, h1⟩, rfl⟩ := h
    exact .tail (.single (.accept s ts h0)) (.latch _ h1)
  case decRise ts _ =>
    simp only [exec, execDecRise, inOrder_next, selectedWhen_next] at h
    obtain ⟨h0, ⟨-, -, h1⟩, rfl⟩ := h
    exact .tail (.single (.accept s ts h0)) (.rise _ h1)
  case decFall0 ts _ =>
    simp only [exec, execDecFall0, inOrder_next, selectedWhen_next] at h
    obtain ⟨h0, ⟨-, -, h1, -⟩, rfl⟩ := h
    exact .tail (.single (.accept s ts h0)) (.fall _ _ h1)
  case decFall1 ts _ =>
    simp only [exec, execDecFall1, inOrder_next, selectedWhen_next] at h
    obtain ⟨h0, ⟨-, -, h1, -⟩, rfl⟩ := h
    exact .tail (.single (.accept s ts h0)) (.fall _ _ h1)
  case decFallX ts _ =>
    simp only [exec, execDecFallX, inOrder_next, selectedWhen_next] at h
    obtain ⟨h0, ⟨-, -, h1, -⟩, rfl⟩ := h
    exact .tail (.single (.accept s ts h0)) (.badFall _ h1)
  case decHold ts _ =>
    simp only [exec, execDecHold, inOrder_next, selectedWhen_next] at h
    obtain ⟨h0, -, rfl⟩ := h
    exact .single (.accept s ts h0)

/-- Every operation but SYS.RESET is a sequence of elementary updates. -/
theorem exec_micros {i : Instr} {s t : State} (h : exec i s = .next t) (hr : i ≠ .sysReset) : Micros s t := by
  by_cases hi : i.isEnc = true
  · exact .single (.encoder i hi h)
  by_cases hs : i.isReport = true
  · exact (exec_subSteps h hs).micros
  · cases i <;> simp only [Instr.isEnc, Instr.isReport, not_true_eq_false] at hi hs <;> clear hi hs
    case regConfig v => exact memWrite_micros (offset := 0) (v := v) h
    case regPixel =>
      simp only [exec, execRegPixel] at h
      split at h
      · exact memWrite_micros h
      · cases h
    case itemStream =>
      simp only [exec, execItemStream] at h
      split at h
      · split at h
        · cases h
        · rename_i hp
          simp only [Host.Outcome.next.injEq] at h
          exact h ▸ .single (.queue s _ hp)
      · simp only [Host.Outcome.next.injEq] at h; exact h ▸ .single (.withdraw s)
    case chainShift =>
      simp only [exec, execChainShift, Host.Outcome.next.injEq] at h; exact h ▸ .single (.shift s _)
    case chainLoad =>
      simp only [exec, execChainLoad, Host.Outcome.next.injEq] at h; exact h ▸ .single (.load s)
    case monConfig d l =>
      simp only [exec, execMonConfig, Host.Outcome.next.injEq] at h
      split at h
      · rename_i hq; exact h ▸ .single (.monitorTaken s d l hq)
      · exact h ▸ .single (.monitorRejected s)
    case regfWrCfg v =>
      simp only [exec, execRegfWrCfg, Host.Outcome.next.injEq] at h; exact h ▸ .single (.configWrite s v)
    case regfWrPix => exact deliverPixel_micros h
    case regfXfer =>
      simp only [exec, execRegfXfer, selectedWhen_next] at h; exact h.2 ▸ .single (.free s)
    case regfWrNone =>
      simp only [exec, execRegfWrNone, selectedWhen_next] at h; exact h.2 ▸ .refl
    case sysReset => exact absurd rfl hr

/-! ### Ticks and steps -/

/-- A tick is its four phases (R157). -/
theorem tick_next {s t : State} : tick s = .next t ↔
    ∃ s1 s2 s3, monitorPhase s = .next s1 ∧ transferPhase s1 = .next s2 ∧ exec (encOp s) s2 = .next s3 ∧
      endTick s3 = t := by
  simp only [tick, andThen_next, Host.Outcome.next.injEq, exists_and_left]

/-- The encoder's operation of a tick is one of ENC. -/
theorem encOp_isEnc (s : State) : (encOp s).isEnc = true := by
  unfold encOp
  split <;> (repeat' split) <;> rfl

theorem monitorPhase_subSteps {s t : State} (h : monitorPhase s = .next t) : SubSteps s t := by
  unfold monitorPhase at h
  split at h
  · exact processReport_subSteps h
  · simp only [Host.Outcome.next.injEq] at h; exact h ▸ .refl

theorem transferPhase_micros {s t : State} (h : transferPhase s = .next t) : Micros s t := by
  unfold transferPhase at h
  split at h
  · split at h
    · exact exec_micros h (by simp)
    · simp only [Host.Outcome.next.injEq] at h; exact h ▸ .single (.pop s)
  · simp only [Host.Outcome.next.injEq] at h; exact h ▸ .refl

theorem tick_micros {s t : State} (h : tick s = .next t) : Micros s t := by
  obtain ⟨s1, s2, s3, h1, h2, h3, rfl⟩ := tick_next.1 h
  exact .tail (.tail (.trans (monitorPhase_subSteps h1).micros (transferPhase_micros h2))
    (.encoder _ (encOp_isEnc s) h3)) (.timePasses s3)

/-- What a step can do: deliver the first input, or let a tick pass (R84). -/
theorem step_cases {s t : State} (h : step s = .next t) :
    (∃ i s1, fetch s.clearOut = some (.ok i, s1) ∧ exec i s1 = .next t) ∨
    (fetch s.clearOut = none ∧ tick s.clearOut = .next t) := by
  unfold step advance at h
  split at h
  · rename_i hf; exact .inr ⟨hf, h⟩
  · rename_i i s1 hf; exact .inl ⟨i, s1, hf, h⟩
  · cases h

/-- Fetching takes the first input away and nothing else. -/
theorem fetch_some {s s1 : State} {r : Except DecodeError Instr} (h : fetch s = some (r, s1)) :
    ∃ p rest, s.env.pending = p :: rest ∧ p.due ≤ s.tick ∧ r = decode s.env.par p.bytes ∧
      s1 = { s with env := { s.env with pending := rest } } := by
  unfold fetch at h
  split at h
  · cases h
  · rename_i p rest hp
    split at h
    · rename_i hd
      simp only [Option.some.injEq, Prod.mk.injEq] at h
      exact ⟨p, rest, hp, hd, h.1.symm, h.2.symm⟩
    · cases h

/-- Every step that does not deliver SYS.RESET is a sequence of elementary updates. -/
theorem step_micros {s t : State} (h : step s = .next t) (hr : ¬ s.delivers .sysReset) : Micros s t := by
  rcases step_cases h with ⟨i, s1, hf, he⟩ | ⟨-, ht⟩
  · obtain ⟨p, rest, -, -, -, rfl⟩ := fetch_some hf
    refine .trans (.tail (.single (.report (.clear s))) (.input s.clearOut rest)) (exec_micros he ?_)
    rintro rfl; exact hr ⟨_, hf⟩
  · exact .trans (.single (.report (.clear s))) (tick_micros ht)

/-- A step that delivers SYS.RESET. -/
theorem step_reset {s t : State} (h : step s = .next t) (hr : s.delivers .sysReset) :
    ∃ rest, t = if s.env.par.resetsMonitor then resetAll { s.clearOut with env := { s.env with pending := rest } }
      else resetButMonitor { s.clearOut with env := { s.env with pending := rest } } := by
  obtain ⟨s1, hf⟩ := hr
  have he : exec .sysReset s1 = .next t := by simpa [step, advance, hf] using h
  obtain ⟨p, rest, -, -, -, rfl⟩ := fetch_some hf
  simp only [exec, execSysReset, Host.Outcome.next.injEq] at he
  exact ⟨rest, he.symm⟩

end Sys2Proof.Machine
end

