-- ==== Sys2Proof/Laws/PerInstr.lean ====
section
/-! SUPPORT. The shape of every operation's stimulus, constructor by constructor. -/

namespace Sys2Proof.Laws.EncodeShape

/-- The stimulus of an operation is its tag, the same under any parameters, and its operand bytes. -/
def Statement (i : Instr) : Prop := ∃ tag : Byte, ∀ p : Params, ∃ r : List Byte, encode p i = tag :: r

theorem of_cons {i : Instr} (tag : Byte) (r : Params → List Byte) (h : ∀ p, encode p i = tag :: r p) : Statement i :=
  ⟨tag, fun p => ⟨r p, h p⟩⟩

theorem cellBit0 (t0 : Nat) : Statement (.cellBit0 t0) :=
  of_cons 1 _ (fun _ => rfl)

theorem cellBit1 (t0 : Nat) : Statement (.cellBit1 t0) :=
  of_cons 1 _ (fun _ => rfl)

theorem wordPixel (px : Pixel) (t0 : Nat) : Statement (.wordPixel px t0) :=
  of_cons 2 _ (fun _ => rfl)

theorem frameGap (t0 extra : Nat) : Statement (.frameGap t0 extra) :=
  of_cons 3 _ (fun _ => rfl)

theorem regConfig (v : RegValue) : Statement (.regConfig v) :=
  of_cons 4 _ (fun _ => rfl)

theorem regPixel (k : Nat) (v : RegValue) : Statement (.regPixel k v) :=
  of_cons 5 _ (fun _ => rfl)

theorem itemStream (valid : Bool) (it : Item) (notBefore : Nat) : Statement (.itemStream valid it notBefore) :=
  of_cons 6 _ (fun _ => rfl)

theorem report (ts : Nat) (level : Bool) : Statement (.report ts level) :=
  of_cons 7 _ (fun _ => rfl)

theorem encIdleHold : Statement .encIdleHold :=
  of_cons 16 _ (fun _ => rfl)

theorem encAcceptFirst (it : Item) : Statement (.encAcceptFirst it) :=
  of_cons 17 _ (fun _ => rfl)

theorem encReject (it : Item) : Statement (.encReject it) :=
  of_cons 18 _ (fun _ => rfl)

theorem encHighTick : Statement .encHighTick :=
  of_cons 19 _ (fun _ => rfl)

theorem encHighEnd : Statement .encHighEnd :=
  of_cons 20 _ (fun _ => rfl)

theorem encLowTick : Statement .encLowTick :=
  of_cons 21 _ (fun _ => rfl)

theorem encNextBit : Statement .encNextBit :=
  of_cons 22 _ (fun _ => rfl)

theorem encAcceptNext (it : Item) : Statement (.encAcceptNext it) :=
  of_cons 23 _ (fun _ => rfl)

theorem encUnderrun : Statement .encUnderrun :=
  of_cons 24 _ (fun _ => rfl)

theorem encWaitHold : Statement .encWaitHold :=
  of_cons 25 _ (fun _ => rfl)

theorem encGapStart : Statement .encGapStart :=
  of_cons 26 _ (fun _ => rfl)

theorem encGapTick : Statement .encGapTick :=
  of_cons 27 _ (fun _ => rfl)

theorem encGapEnd : Statement .encGapEnd :=
  of_cons 28 _ (fun _ => rfl)

theorem encFaultHold : Statement .encFaultHold :=
  of_cons 29 _ (fun _ => rfl)

theorem chainShift (bitIn : Bool) : Statement (.chainShift bitIn) :=
  of_cons 32 _ (fun _ => rfl)

theorem chainLoad : Statement .chainLoad :=
  of_cons 33 _ (fun _ => rfl)

theorem decIgnore (ts : Nat) (level : Bool) : Statement (.decIgnore ts level) :=
  of_cons 48 _ (fun _ => rfl)

theorem decTimeout (ts : Nat) (level : Bool) : Statement (.decTimeout ts level) :=
  of_cons 49 _ (fun _ => rfl)

theorem decRise (ts : Nat) (level : Bool) : Statement (.decRise ts level) :=
  of_cons 50 _ (fun _ => rfl)

theorem decFall0 (ts : Nat) (level : Bool) : Statement (.decFall0 ts level) :=
  of_cons 51 _ (fun _ => rfl)

theorem decFall1 (ts : Nat) (level : Bool) : Statement (.decFall1 ts level) :=
  of_cons 52 _ (fun _ => rfl)

theorem decFallX (ts : Nat) (level : Bool) : Statement (.decFallX ts level) :=
  of_cons 53 _ (fun _ => rfl)

theorem decHold (ts : Nat) (level : Bool) : Statement (.decHold ts level) :=
  of_cons 54 _ (fun _ => rfl)

theorem monConfig (divider : Byte) (lastLed : BitVec 4) : Statement (.monConfig divider lastLed) :=
  of_cons 55 _ (fun _ => rfl)

theorem regfWrCfg (v : RegValue) : Statement (.regfWrCfg v) :=
  of_cons 64 _ (fun _ => rfl)

theorem regfWrPix (k : Nat) (v : RegValue) : Statement (.regfWrPix k v) :=
  of_cons 64 _ (fun _ => rfl)

theorem regfXfer : Statement .regfXfer :=
  of_cons 65 _ (fun _ => rfl)

theorem regfWrNone (offset : Nat) (v : RegValue) : Statement (.regfWrNone offset v) :=
  of_cons 64 _ (fun _ => rfl)

theorem sysReset : Statement .sysReset :=
  of_cons 80 _ (fun _ => rfl)

end Sys2Proof.Laws.EncodeShape
end

