-- ==== Sys2Proof/Laws/Report.lean ====
section
/-! SUPPORT. What a report does to the monitor, and the reports of a legal waveform in closed form. -/

namespace Sys2Proof.Machine

/-! ### Times of a cell -/

/-- High time of a cell: `(1 + b) * S` (R79). -/
theorem highTime_eq (b : Bool) (S : Nat) : highTime b S = (1 + b.toNat) * S := by
  cases b <;> simp [highTime]

/-- Low time of a cell: `(2 - b) * S` (R79). -/
theorem lowTime_eq (b : Bool) (S : Nat) : lowTime b S = (2 - b.toNat) * S := by
  cases b <;> simp [lowTime, highTime] <;> omega

theorem highTime_add_lowTime (b : Bool) (S : Nat) : highTime b S + lowTime b S = 3 * S := by
  cases b <;> simp [lowTime, highTime] <;> omega

theorem highTime_bounds (b : Bool) (S : Nat) : S ≤ highTime b S ∧ highTime b S ≤ 2 * S := by
  cases b <;> simp [highTime] <;> omega

theorem lowTime_bounds (b : Bool) (S : Nat) : S ≤ lowTime b S ∧ lowTime b S ≤ 2 * S := by
  cases b <;> simp [lowTime, highTime] <;> omega

theorem subPeriod_bounds (d : Byte) : 1 ≤ subPeriod d ∧ subPeriod d ≤ 256 := by
  have := d.isLt; unfold subPeriod; omega

theorem chainLength_bounds (l : BitVec 4) : 1 ≤ chainLength l ∧ chainLength l ≤ 16 := by
  have := l.isLt; unfold chainLength; omega

/-- The first bit on the wire of a pixel is green's highest (R72, R73). -/
theorem topBit_pixelWord (px : Pixel) : topBit (pixelWord px) = px.green.getLsbD 7 := by
  unfold topBit pixelWord
  rw [BitVec.getLsbD_append, if_neg (by omega), BitVec.getLsbD_append, if_neg (by omega)]

/-- A latched word gives the pixel back (R72, R123). -/
theorem unpackWord_pixelWord (px : Pixel) : unpackWord (pixelWord px) = px := by
  cases px with
  | mk g r b =>
    simp only [unpackWord, pixelWord, Pixel.mk.injEq]
    refine ⟨?_, ?_, ?_⟩ <;> apply BitVec.eq_of_getLsbD_eq <;> intro i hi <;>
      simp only [BitVec.getLsbD_extractLsb', BitVec.getLsbD_append, hi, decide_true, Bool.true_and]
    · rw [if_neg (by omega), if_neg (by omega)]; congr 1; omega
    · rw [if_neg (by omega), if_pos (by omega)]; congr 1; omega
    · rw [if_pos (by omega)]; congr 1; omega

/-! ### The comparisons -/

theorem within_iff (x k S : Nat) : within x k S = true ↔ 10 * x ≤ 10 * (k * S) + S ∧ 10 * (k * S) ≤ 10 * x + S := by
  unfold within absDiff; rw [decide_eq_true_eq]; show 10 * _ ≤ S ↔ _; omega

theorem outside_iff (x k S : Nat) : outside x k S = true ↔ 10 * (k * S) + S < 10 * x ∨ 10 * x + S < 10 * (k * S) := by
  unfold outside absDiff; rw [decide_eq_true_eq]; show S < 10 * _ ↔ _; omega

theorem zeroBand_iff (h S : Nat) : zeroBand h S = true ↔ 10 * h ≤ 11 * S ∧ 9 * S ≤ 10 * h := by
  unfold zeroBand; rw [within_iff]; show 10 * h ≤ 10 * (1 * S) + S ∧ 10 * (1 * S) ≤ 10 * h + S ↔ _; omega

theorem oneBand_iff (h S : Nat) : oneBand h S = true ↔ 10 * h ≤ 21 * S ∧ 19 * S ≤ 10 * h := by
  unfold oneBand; rw [within_iff]; show 10 * h ≤ 10 * (2 * S) + S ∧ 10 * (2 * S) ≤ 10 * h + S ↔ _; omega

theorem latchExceeded_iff (low S : Nat) : latchExceeded low S = true ↔ 120 * S < low := by
  unfold latchExceeded; rw [decide_eq_true_eq]

theorem missedExceeded_iff (bp S : Nat) : missedExceeded bp S = true ↔ 5 * S < bp := by
  unfold missedExceeded; rw [decide_eq_true_eq]

theorem nearerBit_iff (h S : Nat) : nearerBit h S = true ↔ 3 * S ≤ 2 * h := by
  unfold nearerBit; rw [decide_eq_true_eq]; omega

/-! ### The bands -/

/-- A legal high time is in its own band and in no other (R80). -/
theorem bands_of_highTime (b : Bool) (S : Nat) (h : 1 ≤ S) :
    zeroBand (highTime b S) S = !b ∧ oneBand (highTime b S) S = b := by
  cases b <;> simp [zeroBand, oneBand, within, highTime, absDiff] <;> omega

/-! ### A report -/

theorem takeLevel_config (ts : Nat) (level : Bool) (s : State) :
    (takeLevel ts level s).mon.S = s.mon.S ∧ (takeLevel ts level s).mon.N = s.mon.N ∧
    (takeLevel ts level s).mon.cfgSet = s.mon.cfgSet ∧ (takeLevel ts level s).mon.cfgReject = s.mon.cfgReject ∧
    (takeLevel ts level s).mon.lastTs = s.mon.lastTs ∧ (takeLevel ts level s).mon.tsBase = s.mon.tsBase ∧
    (takeLevel ts level s).mon.phase = if level then .high else if s.mon.phase = .idle then .idle else .low := by
  unfold takeLevel
  split
  · rename_i h
    cases level <;> cases hp : s.mon.phase <;> simp_all [heldLevel]
  · rename_i h
    cases level with
    | true => simp [takeRise_mon]
    | false =>
      have hp : s.mon.phase = .high := by simpa [heldLevel] using h
      simp only [Bool.false_eq_true, if_false, hp]
      split
      · simp [endPulse, takeBit, shiftChain]
      · split
        · simp [endPulse, takeBit, shiftChain]
        · simp only [endPulse, takeBadPulse]
          split <;> simp [raise, setSticky, takeBit, shiftChain]

/-- A report leaves the monitor's configuration alone, takes its timestamp, and leaves the phase its level says (R35, R130). -/
theorem takeReport_config (ts : Nat) (level : Bool) (s : State) :
    (takeReport ts level s).mon.S = s.mon.S ∧ (takeReport ts level s).mon.N = s.mon.N ∧
    (takeReport ts level s).mon.cfgSet = s.mon.cfgSet ∧ (takeReport ts level s).mon.cfgReject = s.mon.cfgReject ∧
    (takeReport ts level s).mon.lastTs = ts ∧ (takeReport ts level s).mon.tsBase = s.mon.tsBase ∧
    (takeReport ts level s).mon.phase = if level then .high else if s.mon.phase = .idle then .idle else .low := by
  have h := takeLevel_config ts level
  simp only [takeReport, h]
  split
  · simp only [latchFrame_mon, acceptTs, clearOut_mon, and_self]
  · exact ⟨rfl, rfl, rfl, rfl, rfl, rfl, rfl⟩

theorem processReport_config {ts : Nat} {level : Bool} {s t : State} (h : processReport ts level s = .next t) :
    t.mon.S = s.mon.S ∧ t.mon.N = s.mon.N ∧ t.mon.cfgSet = s.mon.cfgSet ∧ t.mon.cfgReject = s.mon.cfgReject ∧
    t.mon.lastTs ≤ ts ∧ t.mon.tsBase = s.mon.tsBase := by
  obtain ⟨h0, rfl⟩ := processReport_next.1 h
  split
  · have := takeReport_config ts level s
    simp [this]
  · simp [h0]

theorem processReport_others {ts : Nat} {level : Bool} {s t : State} (h : processReport ts level s = .next t) :
    t.cfg = s.cfg ∧ t.enc = s.enc ∧ t.hold = s.hold ∧ t.tick = s.tick ∧ t.env = s.env := by
  obtain ⟨h0, rfl⟩ := processReport_next.1 h
  split
  · exact takeReport_others ts level s
  · simp

/-! ### The reports of a legal waveform -/

/-- No latch is due at a rise that comes in time. -/
theorem timeoutDue_false {ts : Nat} {s : State}
    (h : s.mon.pending = true → s.mon.phase = .low → ts - s.mon.fallTs ≤ 120 * s.mon.S) : timeoutDue ts s = false := by
  simp only [timeoutDue, latchExceeded, Bool.and_eq_false_iff, decide_eq_false_iff_not, Config.decLatchSp]
  by_cases hp : s.mon.phase = .low
  · by_cases hq : s.mon.pending = true
    · right; have := h hq hp; omega
    · left; right; simpa using hq
  · left; left; exact hp

/-- A report of the level held, with no latch due, gives its timestamp and nothing else (R142). -/
theorem takeReport_hold (ts : Nat) (level : Bool) (s : State) (hl : level = heldLevel s)
    (h : s.mon.pending = true → s.mon.phase = .low → ts - s.mon.fallTs ≤ 120 * s.mon.S) :
    takeReport ts level s = { s with out := ReportOut.none, mon := { s.mon with lastTs := ts } } := by
  have hd : timeoutDue ts (acceptTs ts s.clearOut) = false := timeoutDue_false h
  have hl' : level = heldLevel (acceptTs ts s.clearOut) := hl
  simp only [takeReport, hd, Bool.false_eq_true, if_false, takeLevel, if_pos hl']
  rfl

/-- A rising edge in time: the first of a frame, or exactly a bit period after the one before (R134, R135, R136). -/
theorem takeReport_rise (ts : Nat) (s : State) (hp : s.mon.phase ≠ .high)
    (h : s.mon.pending = true → s.mon.phase = .low →
      ts - s.mon.riseTs = 3 * s.mon.S ∧ ts - s.mon.fallTs ≤ 120 * s.mon.S) :
    takeReport ts true s =
      { s with out := ReportOut.none, mon := { s.mon with lastTs := ts, riseTs := ts, phase := .high } } := by
  have hd : timeoutDue ts (acceptTs ts s.clearOut) = false := timeoutDue_false fun h1 h2 => (h h1 h2).2
  have hl : ¬ true = heldLevel (acceptTs ts s.clearOut) := by
    show ¬ true = decide (s.mon.phase = .high)
    simp [hp]
  have hb : bitPeriodBad ts (acceptTs ts s.clearOut) = false ∧ loadMissed ts (acceptTs ts s.clearOut) = false := by
    show (decide (s.mon.phase = .low) && s.mon.pending && outside (ts - s.mon.riseTs) 3 s.mon.S) = false ∧
      (decide (s.mon.phase = .low) && s.mon.pending && missedExceeded (ts - s.mon.riseTs) s.mon.S) = false
    by_cases h1 : s.mon.phase = .low
    · by_cases h2 : s.mon.pending = true
      · rw [(h h2 h1).1]
        simp [outside, missedExceeded, absDiff]; omega
      · simp [h2]
    · simp [h1]
  simp only [takeReport, hd, Bool.false_eq_true, if_false, takeLevel, if_neg hl, if_true, takeRise, checkRise, hb.1, hb.2]
  rfl

/-- A falling edge that ends the legal pulse of bit `b` (R138, R139). -/
theorem takeReport_fall (b : Bool) (s : State) (hp : s.mon.phase = .high) (hS : 1 ≤ s.mon.S) :
    takeReport (s.mon.riseTs + highTime b s.mon.S) false s =
      { s with
        out := ReportOut.none
        chain := (shiftChain b s).2.chain
        mon := { s.mon with lastTs := s.mon.riseTs + highTime b s.mon.S, pending := true,
                            fallTs := s.mon.riseTs + highTime b s.mon.S, phase := .low } } := by
  let ts := s.mon.riseTs + highTime b s.mon.S
  have hd : timeoutDue ts (acceptTs ts s.clearOut) = false := timeoutDue_false fun _ h2 => by simp [hp] at h2
  have hl : ¬ false = heldLevel (acceptTs ts s.clearOut) := by
    show ¬ false = decide (s.mon.phase = .high)
    simp [hp]
  have hb := bands_of_highTime b s.mon.S hS
  have hz : zeroBand (highFor ts (acceptTs ts s.clearOut)) (acceptTs ts s.clearOut).mon.S = !b := by
    have : highFor ts (acceptTs ts s.clearOut) = highTime b s.mon.S := by
      show s.mon.riseTs + highTime b s.mon.S - s.mon.riseTs = _; omega
    rw [this]; exact hb.1
  have ho : oneBand (highFor ts (acceptTs ts s.clearOut)) (acceptTs ts s.clearOut).mon.S = b := by
    have : highFor ts (acceptTs ts s.clearOut) = highTime b s.mon.S := by
      show s.mon.riseTs + highTime b s.mon.S - s.mon.riseTs = _; omega
    rw [this]; exact hb.2
  show takeReport ts false s = _
  simp only [takeReport, hd, Bool.false_eq_true, if_false, takeLevel, if_neg hl, hz, ho]
  cases b <;> rfl

/-- A legal cell, first of its frame or in time, shifts its bit and raises nothing. -/
theorem wireCell_legal (b : Bool) (t0 : Nat) (s : State) (h0 : s.mon.lastTs ≤ t0) (hc : s.mon.cfgSet = true)
    (hp : s.mon.phase ≠ .high) (hS : 1 ≤ s.mon.S)
    (h : s.mon.pending = true → s.mon.phase = .low →
      t0 - s.mon.riseTs = 3 * s.mon.S ∧ t0 - s.mon.fallTs ≤ 120 * s.mon.S) :
    wireCell b t0 s = .next { s with
      out := ReportOut.none
      chain := (shiftChain b s).2.chain
      mon := { s.mon with riseTs := t0, lastTs := t0 + highTime b s.mon.S, pending := true,
                          fallTs := t0 + highTime b s.mon.S, phase := .low } } := by
  unfold wireCell pulse
  rw [processReport_next.2 ⟨h0, rfl⟩, if_pos hc, takeReport_rise t0 s hp h, andThen_next_left]
  refine processReport_next.2 ⟨by simp, ?_⟩
  rw [if_pos (by exact hc)]
  exact (takeReport_fall b { s with
    out := ReportOut.none, mon := { s.mon with lastTs := t0, riseTs := t0, phase := .high } } rfl hS).symm

end Sys2Proof.Machine
end

