-- ==== Sys2Proof/Laws/Tick.lean ====
section
/-! SUPPORT. The phases of a tick, and what the encoder's operation reads. -/

namespace Sys2Proof.Machine

/-- The transfer's phase always runs, and touches the holding register and the queue alone (R153, R84). -/
theorem transferPhase_next (s : State) : ∃ t, transferPhase s = .next t ∧
    t = { s with hold := t.hold, env := { s.env with stream := t.env.stream } } ∧
    (s.transfers = false → t = s) ∧
    (s.transfers = true → s.hold.valid = true → t = freeHold s) ∧
    (s.transfers = true → s.hold.valid = false → t = popStream s) := by
  unfold transferPhase
  split
  · rename_i ht
    split
    · rename_i hv
      exact ⟨freeHold s, by simp [exec, execRegfXfer, ht, hv], rfl, by simp [ht], fun _ _ => rfl, by simp [hv]⟩
    · rename_i hv
      exact ⟨popStream s, rfl, rfl, by simp [ht], fun _ h => absurd h hv, fun _ _ => rfl⟩
  · rename_i ht
    exact ⟨s, rfl, rfl, fun _ => rfl, fun h => absurd h ht, fun h => absurd h ht⟩

/-- The operation chosen for the encoder reads the configuration register, the encoder and the tick number, and of the stream
inputs only whether an item is there when none is taken: it runs wherever these are as they were chosen from, and does the same
to the encoder and to `violLog`. -/
theorem encOp_at {s u : State} (he : u.enc = s.enc) (hc : u.cfg = s.cfg) (ht : u.tick = s.tick)
    (hp : s.transfers = false → u.presented = s.presented) :
    ∃ (e : EncRegs) (l : List ViolEntry),
      exec (encOp s) s = .next { s with enc := e, log := { s.log with viols := s.log.viols ++ l } } ∧
      exec (encOp s) u = .next { u with enc := e, log := { u.log with viols := u.log.viols ++ l } } := by
  have ready_of : u.ready = s.ready := by simp [State.ready, State.pixelEnd, he, hc]
  have items : u.itemN = s.itemN ∧ u.itemExp = s.itemExp := by simp [State.itemN, State.itemExp, he, hc]
  have reject : ∀ it, s.ready = true → ¬ itemOk it s.itemN s.itemExp = true →
      ∃ (e : EncRegs) (l : List ViolEntry),
        exec (.encReject it) s = .next { s with enc := e, log := { s.log with viols := s.log.viols ++ l } } ∧
        exec (.encReject it) u = .next { u with enc := e, log := { u.log with viols := u.log.viols ++ l } } := by
    intro it hr hok
    refine ⟨(if s.enc.phase = .idle then takeConfig s else s).enc |> fun x => { x with seqErr := true, phase := .fault },
      [{ ts := some s.tick, diag := .protocolSequence s.itemExp it.pos.toNat it.first it.last }], ?_, ?_⟩
    · simp only [exec, execEncReject, selectedWhen_next]
      refine ⟨⟨hr, hok⟩, ?_⟩
      by_cases h : s.enc.phase = .idle <;> simp [h, takeConfig, raise, setSticky, Diag.violMask]
    · simp only [exec, execEncReject, selectedWhen_next, ready_of, items, he, hc, ht]
      refine ⟨⟨hr, hok⟩, ?_⟩
      by_cases h : s.enc.phase = .idle <;> simp [h, he, hc, ht, takeConfig, raise, setSticky, Diag.violMask]
  have plain : ∀ (i : Instr) (e : EncRegs), exec i s = .next { s with enc := e } → exec i u = .next { u with enc := e } →
      ∃ (e : EncRegs) (l : List ViolEntry),
        exec i s = .next { s with enc := e, log := { s.log with viols := s.log.viols ++ l } } ∧
        exec i u = .next { u with enc := e, log := { u.log with viols := u.log.viols ++ l } } :=
    fun i e h1 h2 => ⟨e, [], by simpa using h1, by simpa using h2⟩
  have same : ∀ i : Instr, exec i s = .next s → exec i u = .next u →
      ∃ (e : EncRegs) (l : List ViolEntry),
        exec i s = .next { s with enc := e, log := { s.log with viols := s.log.viols ++ l } } ∧
        exec i u = .next { u with enc := e, log := { u.log with viols := u.log.viols ++ l } } :=
    fun i h1 h2 => plain i s.enc h1 (by rw [h2, ← he])
  have end_of : u.pixelEnd = s.pixelEnd := by simp [State.pixelEnd, he]
  unfold encOp
  split
  · rename_i hph
    split
    · rename_i hpr
      have := hp (by simp [State.transfers, hpr])
      exact same _ (by simp [exec, execEncIdleHold, hph, hpr]) (by simp [exec, execEncIdleHold, he, hph, this, hpr])
    · split
      · rename_i hset
        split
        · rename_i hok
          exact plain _ _ (by simp only [exec, execEncAcceptFirst]; exact selectedWhen_of _ ⟨hph, hset, hok⟩)
            (by
              simp only [exec, execEncAcceptFirst, selectedWhen_next, he, hc]
              exact ⟨⟨hph, hset, hok⟩, by simp [beginPixel, takeConfig, he, hc]⟩)
        · rename_i hok
          exact reject _ (by simp [State.ready, hph, hset]) (by simpa [State.itemN, State.itemExp, hph] using hok)
      · rename_i hset
        exact same _ (by simp [exec, execEncIdleHold, hph, hset]) (by simp [exec, execEncIdleHold, he, hc, hph, hset])
  · rename_i hph
    split
    · rename_i h0
      exact plain _ _ (by simp only [exec, execEncHighTick]; exact selectedWhen_of _ ⟨hph, h0⟩)
        (by simp [exec, execEncHighTick, he, hph, h0])
    · rename_i h0
      exact plain _ _ (by simp only [exec, execEncHighEnd]; exact selectedWhen_of _ ⟨hph, by omega⟩)
        (by simp only [exec, execEncHighEnd, selectedWhen_next, he]; exact ⟨⟨hph, by omega⟩, trivial⟩)
  · rename_i hph
    split
    · rename_i h0
      exact plain _ _ (by simp only [exec, execEncLowTick]; exact selectedWhen_of _ ⟨hph, h0⟩)
        (by simp [exec, execEncLowTick, he, hph, h0])
    · rename_i h0
      split
      · rename_i h1
        exact plain _ _ (by simp only [exec, execEncNextBit]; exact selectedWhen_of _ ⟨hph, by omega, h1⟩)
          (by simp only [exec, execEncNextBit, selectedWhen_next, he]; exact ⟨⟨hph, by omega, h1⟩, trivial⟩)
      · rename_i h1
        have hend : s.pixelEnd = true := by simp [State.pixelEnd, hph]; omega
        split
        · rename_i hl
          exact plain _ _ (by simp only [exec, execEncGapStart]; exact selectedWhen_of _ ⟨hend, hl⟩)
            (by simp only [exec, execEncGapStart, selectedWhen_next, end_of, he]; exact ⟨⟨hend, hl⟩, trivial⟩)
        · rename_i hl
          have hl : s.enc.last = false := by simpa using hl
          split
          · rename_i hpr
            have := hp (by simp [State.transfers, hpr])
            exact plain _ _ (by simp only [exec, execEncUnderrun]; exact selectedWhen_of _ ⟨hend, hl, hpr⟩)
              (by
                simp only [exec, execEncUnderrun, selectedWhen_next, end_of, he, this]
                exact ⟨⟨hend, hl, hpr⟩, trivial⟩)
          · split
            · rename_i hok
              exact plain _ _ (by simp only [exec, execEncAcceptNext]; exact selectedWhen_of _ ⟨.inl ⟨hend, hl⟩, hok⟩)
                (by
                  simp only [exec, execEncAcceptNext, selectedWhen_next, end_of, he]
                  exact ⟨⟨.inl ⟨hend, hl⟩, hok⟩, by simp [beginPixel, he]⟩)
            · rename_i hok
              exact reject _ (by simp [State.ready, hend, hl]) (by simpa [State.itemN, State.itemExp, hph] using hok)
  · rename_i hph
    split
    · rename_i hpr
      have := hp (by simp [State.transfers, hpr])
      exact same _ (by simp [exec, execEncWaitHold, hph, hpr]) (by simp [exec, execEncWaitHold, he, hph, this, hpr])
    · split
      · rename_i hok
        exact plain _ _ (by simp only [exec, execEncAcceptNext]; exact selectedWhen_of _ ⟨.inr hph, hok⟩)
          (by
            simp only [exec, execEncAcceptNext, selectedWhen_next, end_of, he]
            exact ⟨⟨.inr hph, hok⟩, by simp [beginPixel, he]⟩)
      · rename_i hok
        exact reject _ (by simp [State.ready, hph]) (by simpa [State.itemN, State.itemExp, hph] using hok)
  · rename_i hph
    split
    · rename_i h0
      exact plain _ _ (by simp only [exec, execEncGapTick]; exact selectedWhen_of _ ⟨hph, h0⟩)
        (by simp [exec, execEncGapTick, he, hph, h0])
    · rename_i h0
      exact plain _ _ (by simp only [exec, execEncGapEnd]; exact selectedWhen_of _ ⟨hph, by omega⟩)
        (by simp only [exec, execEncGapEnd, selectedWhen_next, he]; exact ⟨⟨hph, by omega⟩, trivial⟩)
  · rename_i hph
    exact same _ (by simp [exec, execEncFaultHold, hph]) (by simp [exec, execEncFaultHold, he, hph])

/-- What a tick does once its report is processed: the encoder's part is that of its operation at the state before, and what the
monitor's part leaves is kept (R157). -/
theorem tick_of_report {s s1 : State} (h : monitorPhase s = .next s1) :
    ∃ (e : EncRegs) (l : List ViolEntry) (s2 : State),
      exec (encOp s) s = .next { s with enc := e, log := { s.log with viols := s.log.viols ++ l } } ∧
      transferPhase s1 = .next s2 ∧
      tick s = .next (endTick { s2 with enc := e, log := { s2.log with viols := s2.log.viols ++ l } }) := by
  have h1 : s1.cfg = s.cfg ∧ s1.enc = s.enc ∧ s1.hold = s.hold ∧ s1.tick = s.tick ∧ s1.env = s.env := by
    unfold monitorPhase at h
    split at h
    · exact processReport_others h
    · simp only [Host.Outcome.next.injEq] at h; subst h; simp
  obtain ⟨h1c, h1e, h1h, h1t, h1v⟩ := h1
  obtain ⟨s2, h2, h2eq, h2same, -, -⟩ := transferPhase_next s1
  have hs : s1.transfers = s.transfers ∧ s1.presented = s.presented := by
    simp [State.transfers, State.ready, State.pixelEnd, State.presented, h1c, h1e, h1h, h1t, h1v]
  obtain ⟨e, l, he1, he2⟩ := encOp_at (s := s) (u := s2) (by rw [h2eq]; exact h1e) (by rw [h2eq]; exact h1c)
    (by rw [h2eq]; exact h1t) (fun hf => by rw [h2same (hs.1.trans hf)]; exact hs.2)
  refine ⟨e, l, s2, he1, h2, ?_⟩
  simp [tick, h, h2, he2]

end Sys2Proof.Machine
end

