-- ==== Sys2Proof/Laws/Run.lean ====
section
/-! SUPPORT. Runs of ticks with nothing to deliver: the encoder's registers tick by tick, and one cell of a legal waveform as the
attached monitor sees it. -/

namespace Sys2Proof.Machine

/-! ### Runs -/

theorem run_succ (M : Host.Core) {n : Nat} {s t : M.State} (h : M.step s = .next t) : M.run (n + 1) s = M.run n t := by
  simp only [Host.Core.run, h]

theorem run_add (M : Host.Core) {m n : Nat} {s t : M.State} (h : M.run m s = .next t) : M.run (m + n) s = M.run n t := by
  induction m generalizing s with
  | zero =>
    simp only [Host.Core.run, Host.Outcome.next.injEq] at h
    rw [h, Nat.zero_add]
  | succ m ih =>
    cases hs : M.step s with
    | next u =>
      rw [run_succ M hs] at h
      rw [Nat.succ_add, run_succ M hs, ih h]
    | fault e => simp only [Host.Core.run, hs, reduceCtorEq] at h
    | refused e => simp only [Host.Core.run, hs, reduceCtorEq] at h

theorem core_run_zero (s : State) : core.run 0 s = .next s := rfl

theorem core_run_succ {n : Nat} {s t : State} (h : step s = .next t) : core.run (n + 1) s = core.run n t :=
  run_succ core h

theorem core_run_add {m n : Nat} {s t : State} (h : core.run m s = .next t) : core.run (m + n) s = core.run n t :=
  run_add core h

theorem core_run_one {s t : State} (h : step s = .next t) : core.run 1 s = .next t := core_run_succ h

/-- With nothing to deliver, a step is a tick. -/
theorem step_of_no_input {s : State} (h : s.env.pending = []) : step s = tick s.clearOut := by
  simp [step, advance, fetch, h]

/-- Attached, with an idle encoder that nothing configures, a step is the report of a low wire. -/
theorem step_idle {s : State} (hp : s.enc.phase = .idle) (hc : s.cfg.isSet = false) (hn : s.env.pending = [])
    (ha : s.env.par.attached = true) (hm : s.mon.cfgSet = true) (ho : s.mon.lastTs ≤ s.reportTime) :
    step s = .next (endTick (takeReport s.reportTime false s)) := by
  have hw : s.clearOut.wire = false := by simp [State.wire, hp]
  have h1 : monitorPhase s.clearOut = .next (takeReport s.reportTime false s) := by
    unfold monitorPhase
    rw [if_pos (by exact ha)]
    refine processReport_next.2 ⟨ho, ?_⟩
    rw [if_pos (by exact hm), hw]
    rfl
  obtain ⟨tc, te, -⟩ := takeReport_others s.reportTime false s
  have hr : (takeReport s.reportTime false s).transfers = false := by
    simp [State.transfers, State.ready, State.pixelEnd, tc, te, hp, hc]
  have he : encOp s.clearOut = .encIdleHold := by
    simp only [encOp, clearOut_enc, hp, clearOut_cfg, hc]
    split <;> simp
  rw [step_of_no_input hn]
  simp only [tick, h1, andThen_next_left, transferPhase, hr, he]
  rw [if_neg (by simp)]
  simp only [andThen_next_left, exec, execEncIdleHold]
  rw [selectedWhen_of _ (by rw [te, tc]; exact ⟨hp, by simp [hc]⟩)]
  rfl

/-! ### The encoder's registers -/

/-- With nothing to deliver and the report in order, a step runs: the encoder's registers are what its operation makes of them, and the
next step is again of this kind. -/
theorem step_runs (s : State) (hp : s.env.pending = []) (ho : s.env.par.attached = true → s.mon.lastTs ≤ s.reportTime) :
    ∃ (t : State) (e : EncRegs) (l : List ViolEntry),
      exec (encOp s) s = .next { s with enc := e, log := { s.log with viols := s.log.viols ++ l } } ∧
      step s = .next t ∧ t.enc = e ∧ t.tick = s.tick + 1 ∧ t.env.pending = [] ∧ t.env.par = s.env.par ∧
      (t.env.par.attached = true → t.mon.lastTs ≤ t.reportTime) := by
  obtain ⟨s1, h1, hlast⟩ : ∃ s1, monitorPhase s.clearOut = .next s1 ∧
      (s.env.par.attached = true → s1.mon.lastTs ≤ s.reportTime) := by
    unfold monitorPhase
    by_cases ha : s.env.par.attached = true
    · refine ⟨_, by rw [if_pos (by exact ha)]; exact processReport_next.2 ⟨ho ha, rfl⟩, fun _ => ?_⟩
      split
      · exact Nat.le_of_eq (takeReport_config _ _ _).2.2.2.2.1
      · exact ho ha
    · exact ⟨s.clearOut, by rw [if_neg (by exact ha)], fun h => absurd h ha⟩
  have hoth : s1.enc = s.enc ∧ s1.tick = s.tick ∧ s1.env = s.env ∧ s1.mon.tsBase = s.mon.tsBase := by
    unfold monitorPhase at h1
    split at h1
    · have := processReport_others h1; exact ⟨this.2.1, this.2.2.2.1, this.2.2.2.2, (processReport_config h1).2.2.2.2.2⟩
    · simp only [Host.Outcome.next.injEq] at h1; subst h1; exact ⟨rfl, rfl, rfl, rfl⟩
  obtain ⟨e, l, s2, he, h2, h3⟩ := tick_of_report h1
  obtain ⟨s2', h2', heq, -⟩ := transferPhase_next s1
  rw [h2] at h2'
  simp only [Host.Outcome.next.injEq] at h2'
  subst h2'
  obtain ⟨e', l', he', -⟩ := encOp_at (s := s) (u := s) rfl rfl rfl fun _ => rfl
  have hsame : e' = e ∧ l' = l := by
    obtain ⟨e2, l2, ha, hb⟩ := encOp_at (s := s) (u := s.clearOut) rfl rfl rfl fun _ => rfl
    have hx : encOp s = encOp s.clearOut := rfl
    rw [he'] at ha
    rw [hx, he] at hb
    simp only [Host.Outcome.next.injEq, State.mk.injEq, Histories.mk.injEq, List.append_cancel_left_eq] at ha hb
    exact ⟨ha.2.1.trans hb.2.1.symm, ha.2.2.2.2.2.2.1.1.trans hb.2.2.2.2.2.2.1.1.symm⟩
  obtain ⟨rfl, rfl⟩ := hsame
  have hpend : ∀ u : State, (endTick u).env.pending = u.env.pending := fun u => by rw [endTick_others]
  have htick : s2.tick = s.tick := by rw [heq]; exact hoth.2.1
  have hmon : s2.mon = s1.mon := by rw [heq]
  have henv : s2.env.pending = [] ∧ s2.env.par = s.env.par := by rw [heq]; simp [hoth.2.2.1, hp]
  refine ⟨_, e', l', he', by rw [step_of_no_input hp]; exact h3, by rw [endTick_enc], ?_, ?_, ?_, ?_⟩
  · rw [endTick_tick]; exact congrArg (· + 1) htick
  · rw [hpend]; exact henv.1
  · rw [endTick_par]; exact henv.2
  · intro ha
    rw [endTick_par] at ha
    have h4 := hlast (henv.2 ▸ ha)
    rw [endTick_mon, endTick_reportTime]
    show s2.mon.lastTs ≤ s2.mon.tsBase + s2.tick + 1
    rw [hmon, htick, hoth.2.2.2]; exact Nat.le_succ_of_le h4

/-! ### The attached monitor -/

/-- What holds between ticks while nothing comes from outside but queued items, with the monitor attached and configured, and no
report late. -/
structure Quiet (s : State) : Prop where
  noInputs : s.env.pending = []
  noneHeld : s.env.held = []
  noHold : s.hold.valid = false
  attached : s.env.par.attached = true
  configured : s.mon.cfgSet = true
  inOrder : s.mon.lastTs ≤ s.reportTime

/-- One quiet step: the report of this tick, the encoder's operation, and the queue without the item taken. -/
theorem step_quiet {s : State} (q : Quiet s) {e : EncRegs} (he : exec (encOp s) s = .next { s with enc := e }) :
    step s = .next { takeReport s.reportTime s.wire s with
      enc := e
      tick := s.tick + 1
      env := { s.env with stream := if s.transfers then s.env.stream.tail else s.env.stream } } := by
  have h1 : monitorPhase s.clearOut = .next (takeReport s.reportTime s.wire s) := by
    unfold monitorPhase
    rw [if_pos (by exact q.attached)]
    refine processReport_next.2 ⟨q.inOrder, ?_⟩
    rw [if_pos (by exact q.configured)]
    rfl
  obtain ⟨hc, henc, hh, ht, hv⟩ := takeReport_others s.reportTime s.wire s
  have hs : (takeReport s.reportTime s.wire s).transfers = s.transfers := by
    simp [State.transfers, State.ready, State.pixelEnd, State.presented, hc, henc, hh, ht, hv]
  obtain ⟨s2, h2, -, h2same, -, h2pop⟩ := transferPhase_next (takeReport s.reportTime s.wire s)
  have h2eq : s2 = { takeReport s.reportTime s.wire s with
      env := { s.env with stream := if s.transfers then s.env.stream.tail else s.env.stream } } := by
    by_cases htr : s.transfers = true
    · rw [h2pop (hs.trans htr) (by rw [hh]; exact q.noHold), if_pos htr]
      simp only [popStream, hv]
    · rw [h2same (by rw [hs]; simpa using htr), if_neg htr]
      simp only [← hv]
  have hx : encOp s.clearOut = encOp s := rfl
  obtain ⟨e2, l2, ha, hb⟩ := encOp_at (s := s) (u := s2) (by rw [h2eq]; exact henc) (by rw [h2eq]; exact hc)
    (by rw [h2eq]; exact ht) (fun hf => by rw [h2eq]; simp [State.presented, hh, ht, hf])
  rw [he] at ha
  simp only [Host.Outcome.next.injEq, State.mk.injEq, true_and, and_true] at ha
  obtain ⟨rfl, hl⟩ := ha
  have hl2 : l2 = [] := by simpa using congrArg Histories.viols hl
  subst hl2
  rw [step_of_no_input q.noInputs]
  simp only [tick, h1, andThen_next_left, h2, hx, hb, List.append_nil]
  rw [endTick_nothing_held _ (by rw [h2eq]; exact q.noneHeld), h2eq]
  simp only [ht]

/-! ### One cell -/

/-- The high time of the cell that begins. -/
def cellHigh (s : State) : Nat := highTime (topBit s.enc.word) s.enc.S

/-- A cell of a legal frame begins at this tick: the first of its frame, or a bit period after the one before. -/
structure CellStart (s : State) : Prop where
  quiet : Quiet s
  high : s.enc.phase = .high
  timer : s.enc.tmr = cellHigh s - 1
  positive : 1 ≤ s.enc.S
  same : s.mon.S = s.enc.S
  low : s.mon.phase ≠ .high
  inTime : s.mon.pending = true → s.mon.phase = .low →
    s.reportTime - s.mon.riseTs = 3 * s.mon.S ∧ s.reportTime - s.mon.fallTs ≤ 120 * s.mon.S

/-- The encoder `k` ticks into the cell. -/
def cellEnc (s : State) (k : Nat) : EncRegs :=
  { s.enc with
    phase := if k < cellHigh s then .high else .low
    tmr := if k < cellHigh s then cellHigh s - 1 - k else 3 * s.enc.S - 1 - k }

/-- The monitor after `k` reports of the cell. -/
def cellMon (s : State) (k : Nat) : MonRegs :=
  if k = 0 then s.mon
  else if k ≤ cellHigh s then { s.mon with lastTs := s.reportTime + k - 1, riseTs := s.reportTime, phase := .high }
  else { s.mon with lastTs := s.reportTime + k - 1, riseTs := s.reportTime, fallTs := s.reportTime + cellHigh s, pending := true, phase := .low }

/-- The machine `k` ticks into the cell. -/
def cellState (s : State) (k : Nat) : State :=
  { s with
    out := if k = 0 then s.out else ReportOut.none
    enc := cellEnc s k
    chain := if k ≤ cellHigh s then s.chain else (shiftChain (topBit s.enc.word) s).2.chain
    mon := cellMon s k
    tick := s.tick + k }

theorem cellHigh_bounds (s : State) : s.enc.S ≤ cellHigh s ∧ cellHigh s ≤ 2 * s.enc.S := highTime_bounds _ _

theorem cellState_zero {s : State} (h : CellStart s) : cellState s 0 = s := by
  have hb := cellHigh_bounds s
  have hp := h.positive
  have he : cellEnc s 0 = s.enc := by
    unfold cellEnc
    rw [if_pos (by omega), if_pos (by omega), Nat.sub_zero, ← h.timer, ← h.high]
  simp only [cellState, he, cellMon, if_true, Nat.zero_le, Nat.add_zero]

theorem cellState_high {s : State} {k : Nat} (h0 : 0 < k) (h1 : k ≤ cellHigh s) :
    cellState s k = { s with
      out := ReportOut.none
      enc := cellEnc s k
      mon := { s.mon with lastTs := s.reportTime + k - 1, riseTs := s.reportTime, phase := .high }
      tick := s.tick + k } := by
  simp [cellState, cellMon, Nat.ne_of_gt h0, h1]

theorem cellState_low {s : State} {k : Nat} (h1 : cellHigh s < k) :
    cellState s k = { s with
      out := ReportOut.none
      enc := cellEnc s k
      chain := (shiftChain (topBit s.enc.word) s).2.chain
      mon := { s.mon with
        lastTs := s.reportTime + k - 1, riseTs := s.reportTime, fallTs := s.reportTime + cellHigh s, pending := true, phase := .low }
      tick := s.tick + k } := by
  have h0 : k ≠ 0 := by omega
  simp [cellState, cellMon, h0, Nat.not_le.2 h1]

/-- The report of tick `k` of a cell. -/
theorem cell_report {s : State} (h : CellStart s) (k : Nat) (hk : k < 3 * s.enc.S) :
    takeReport (s.reportTime + k) (cellState s k).wire (cellState s k) =
      { cellState s (k + 1) with enc := cellEnc s k, tick := s.tick + k } := by
  have hb := cellHigh_bounds s
  have hp := h.positive
  have hw : (cellState s k).wire = decide (k < cellHigh s) := by
    simp only [State.wire, cellState, cellEnc]
    by_cases h1 : k < cellHigh s <;> simp [h1]
  rw [hw]
  rcases Nat.eq_zero_or_pos k with rfl | hk0
  · have he : cellEnc s 0 = s.enc := congrArg State.enc (cellState_zero h)
    rw [cellState_zero h, decide_eq_true (by omega), Nat.add_zero, takeReport_rise s.reportTime s h.low h.inTime,
      cellState_high (by omega) (by omega), he]
    rfl
  · by_cases h1 : k < cellHigh s
    · rw [cellState_high hk0 (by omega), cellState_high (by omega) (by omega), decide_eq_true h1,
        takeReport_hold _ _ _ (by rfl) (by intro _ h2; cases h2)]
      rfl
    · rw [decide_eq_false h1]
      by_cases h2 : k = cellHigh s
      · have hts : s.reportTime + k = s.reportTime + highTime (topBit s.enc.word) s.mon.S := by rw [h.same, h2]; rfl
        rw [cellState_high hk0 (by omega), cellState_low (by omega)]
        have hf := takeReport_fall (topBit s.enc.word) { s with
          out := ReportOut.none
          enc := cellEnc s k
          mon := { s.mon with lastTs := s.reportTime + k - 1, riseTs := s.reportTime, phase := .high }
          tick := s.tick + k } rfl (by show 1 ≤ s.mon.S; rw [h.same]; exact hp)
        have hf' := hf
        simp only [← hts] at hf'
        rw [hf', h2]
        rfl
      · rw [cellState_low (by omega), cellState_low (by omega),
          takeReport_hold _ _ _ (by rfl) (by
            intro _ _; show s.reportTime + k - (s.reportTime + cellHigh s) ≤ 120 * s.mon.S; rw [h.same]; omega)]
        rfl

theorem cellState_reportTime (s : State) (k : Nat) : (cellState s k).reportTime = s.reportTime + k := by
  have : (cellMon s k).tsBase = s.mon.tsBase := by unfold cellMon; split <;> (try split) <;> rfl
  show (cellMon s k).tsBase + (s.tick + k) = _
  rw [this]; exact (Nat.add_assoc _ _ _).symm

theorem cellState_enc (s : State) (k : Nat) : (cellState s k).enc = cellEnc s k := rfl

/-- The encoder's operation inside a cell only counts, or ends the high part; no item is taken. -/
theorem cell_encoder {s : State} (k : Nat) (hk : k + 1 < 3 * s.enc.S) :
    exec (encOp (cellState s k)) (cellState s k) = .next { cellState s k with enc := cellEnc s (k + 1) } ∧
      (cellState s k).transfers = false := by
  have hb := cellHigh_bounds s
  have he := cellState_enc s k
  have hlow := highTime_add_lowTime (topBit s.enc.word) s.enc.S
  generalize hd : cellState s k = d at *
  by_cases h1 : k < cellHigh s
  · have e1 : d.enc = { s.enc with phase := .high, tmr := cellHigh s - 1 - k } := by
      rw [he]; simp [cellEnc, h1]
    refine ⟨?_, by simp [State.transfers, State.ready, State.pixelEnd, e1]⟩
    by_cases h2 : k + 1 < cellHigh s
    · have e2 : cellEnc s (k + 1) = { s.enc with phase := .high, tmr := cellHigh s - 1 - k - 1 } := by
        simp [cellEnc, h2]; omega
      have h3 : 0 < cellHigh s - 1 - k := by omega
      simp [encOp, e1, h3, exec, execEncHighTick, e2]
    · have e2 : cellEnc s (k + 1) = { s.enc with phase := .low, tmr := lowTime (topBit s.enc.word) s.enc.S - 1 } := by
        have : cellHigh s = highTime (topBit s.enc.word) s.enc.S := rfl
        simp [cellEnc, h2]; omega
      have h3 : ¬ 0 < cellHigh s - 1 - k := by omega
      have h4 : cellHigh s - 1 - k = 0 := by omega
      simp [encOp, e1, h4, exec, execEncHighEnd, e2]
  · have e1 : d.enc = { s.enc with phase := .low, tmr := 3 * s.enc.S - 1 - k } := by
      rw [he]; simp [cellEnc, h1]
    have h3 : 0 < 3 * s.enc.S - 1 - k := by omega
    refine ⟨?_, by simp [State.transfers, State.ready, State.pixelEnd, e1]; omega⟩
    have e2 : cellEnc s (k + 1) = { s.enc with phase := .low, tmr := 3 * s.enc.S - 1 - k - 1 } := by
      simp [cellEnc, show ¬ k + 1 < cellHigh s by omega]; omega
    simp [encOp, e1, h3, exec, execEncLowTick, e2]

theorem cell_quiet {s : State} (h : CellStart s) (k : Nat) : Quiet (cellState s k) := by
  have hb := cellHigh_bounds s
  have hp := h.positive
  have q := h.quiet
  refine ⟨q.noInputs, q.noneHeld, q.noHold, q.attached, ?_, ?_⟩
  · show (cellMon s k).cfgSet = true
    unfold cellMon; split
    · exact q.configured
    · split <;> exact q.configured
  · show (cellMon s k).lastTs ≤ (cellState s k).reportTime
    rw [cellState_reportTime]
    unfold cellMon; split
    · have := q.inOrder; omega
    · split <;> simp

/-- A cell of a legal frame, tick by tick, up to its last tick. -/
theorem cell_run {s : State} (h : CellStart s) (k : Nat) (hk : k < 3 * s.enc.S) :
    core.run k s = .next (cellState s k) := by
  induction k with
  | zero => rw [cellState_zero h]; rfl
  | succ k ih =>
    have hrun := ih (by omega)
    rw [core_run_add hrun, core_run_succ (n := 0) (step_quiet (cell_quiet h k) (cell_encoder k hk).1)]
    rw [core_run_zero]
    congr 1
    have hr := cell_report h k (by omega)
    rw [cellState_reportTime, hr, (cell_encoder k hk).2]
    rfl

/-- The last tick of a cell, in which the encoder goes on as `e`. -/
theorem cell_end {s : State} (h : CellStart s) {e : EncRegs}
    (he : exec (encOp (cellState s (3 * s.enc.S - 1))) (cellState s (3 * s.enc.S - 1)) =
      .next { cellState s (3 * s.enc.S - 1) with enc := e }) :
    core.run (3 * s.enc.S) s = .next { s with
      out := ReportOut.none
      enc := e
      chain := (shiftChain (topBit s.enc.word) s).2.chain
      mon := { s.mon with
        lastTs := s.reportTime + 3 * s.enc.S - 1, riseTs := s.reportTime, fallTs := s.reportTime + cellHigh s, pending := true, phase := .low }
      tick := s.tick + 3 * s.enc.S
      env := { s.env with stream :=
        if (cellState s (3 * s.enc.S - 1)).transfers then s.env.stream.tail else s.env.stream } } := by
  have hb := cellHigh_bounds s
  have hp := h.positive
  have hn : 3 * s.enc.S = (3 * s.enc.S - 1) + 1 := by omega
  have hrun := cell_run h (3 * s.enc.S - 1) (by omega)
  have hr := cell_report h (3 * s.enc.S - 1) (by omega)
  have hgo : core.run (3 * s.enc.S) s = core.run 1 (cellState s (3 * s.enc.S - 1)) := by
    conv_lhs => rw [hn]
    exact core_run_add hrun
  rw [hgo, core_run_succ (n := 0) (step_quiet (cell_quiet h _) he), core_run_zero]
  congr 1
  rw [cellState_reportTime, hr, ← hn, cellState_low (by omega)]
  simp only [show (cellState s (3 * s.enc.S - 1)).tick + 1 = s.tick + 3 * s.enc.S by
    show s.tick + (3 * s.enc.S - 1) + 1 = _
    omega]
  rfl

/-! ### The gap -/

/-- The machine `k` ticks later in the gap, with no latch due so far. -/
def gapState (s : State) (k : Nat) : State :=
  { s with
    out := if k = 0 then s.out else ReportOut.none
    enc := { s.enc with tmr := s.enc.tmr - k }
    mon := { s.mon with lastTs := if k = 0 then s.mon.lastTs else s.reportTime + k - 1 }
    tick := s.tick + k }

theorem gapState_reportTime (s : State) (k : Nat) : (gapState s k).reportTime = s.reportTime + k :=
  (Nat.add_assoc _ _ _).symm

/-- The gap, tick by tick, up to its last tick or to the report that latches. -/
theorem gap_run {s : State} (q : Quiet s) (hp : s.enc.phase = .gap) (hm : s.mon.phase ≠ .high) (k : Nat) (hk : k ≤ s.enc.tmr)
    (hl : s.mon.pending = true → s.mon.phase = .low → s.reportTime + k ≤ s.mon.fallTs + 120 * s.mon.S + 1) :
    core.run k s = .next (gapState s k) := by
  induction k with
  | zero => simp [gapState, core_run_zero]
  | succ k ih =>
    rw [core_run_add (ih (by omega) (fun h1 h2 => by have := hl h1 h2; omega))]
    have q' : Quiet (gapState s k) := by
      refine ⟨q.noInputs, q.noneHeld, q.noHold, q.attached, q.configured, ?_⟩
      have := q.inOrder
      rw [gapState_reportTime]
      simp only [gapState]
      split <;> omega
    have h0 : 0 < s.enc.tmr - k := by omega
    have he : exec (encOp (gapState s k)) (gapState s k) =
        .next { gapState s k with enc := { s.enc with tmr := s.enc.tmr - (k + 1) } } := by
      simp [encOp, gapState, hp, h0, exec, execEncGapTick, Nat.sub_sub]
    rw [core_run_succ (n := 0) (step_quiet q' he), core_run_zero]
    have hw : (gapState s k).wire = false := by simp [State.wire, gapState, hp]
    have hr := takeReport_hold (gapState s k).reportTime false (gapState s k) (by simp [heldLevel, gapState, hm]) (by
      intro h1 h2
      have := hl h1 h2
      rw [gapState_reportTime]; simp only [gapState]; omega)
    have ht : (gapState s k).transfers = false := by simp [State.transfers, State.ready, State.pixelEnd, gapState, hp]
    rw [hw, hr, ht, gapState_reportTime]
    simp [gapState, Nat.add_assoc]

end Sys2Proof.Machine
end

