-- ==== Sys2Proof/Tests/Slice0.lean ====
section
/-! SUPPORT. Tests: ill-formed operations, words written out from the spec's encodings, single operations against the vectors of
95_test_vectors.md, and for every statement with hypotheses a state that meets them. -/

namespace Sys2Proof.Tests

open Sys2Proof.Machine

/-- The next state of an outcome, to compare fields of. -/
def got (r : Result) : Option State :=
  match r with
  | .next s => some s
  | .fault _ => none
  | .refused _ => none

/-- The refusal of an outcome. -/
def refusal (r : Result) : Option Refusal :=
  match r with
  | .next _ => none
  | .fault _ => none
  | .refused e => some e

/-- The operation decoded from bytes under the suggested parameters. -/
def decoded (bs : List Byte) : Option Instr :=
  match decode Params.suggested bs with
  | .ok i => some i
  | .error _ => none

/-- The error of bytes that are no operation. -/
def decodeError (bs : List Byte) : Option DecodeError :=
  match decode Params.suggested bs with
  | .ok _ => none
  | .error e => some e

/-! ### Well-formedness: an ill-formed term for each check -/

theorem test_wf_no_pixel_register : (Instr.regPixel 8 0).wellFormed Params.suggested = false ∧
    (Instr.regfWrPix 8 0).wellFormed Params.suggested = false := by decide

theorem test_wf_mapped_offset : (Instr.regfWrNone 0 0).wellFormed Params.suggested = false ∧
    (Instr.regfWrNone 8 0).wellFormed Params.suggested = false ∧
    (Instr.regfWrNone 9 0).wellFormed Params.suggested = true := by decide

/-- R51, D36: one to fifteen registers, at offsets that differ and are not 0. -/
theorem test_wf_parameters : Params.suggested.wf = true ∧ ({ Params.suggested with pixRegOffsets := [] }).wf = false ∧
    ({ Params.suggested with pixRegOffsets := [4, 8, 4] }).wf = false ∧
    ({ Params.suggested with pixRegOffsets := [0, 1] }).wf = false ∧
    ({ Params.suggested with pixRegOffsets := (List.range 15).map (· + 1) }).wf = true ∧
    ({ Params.suggested with pixRegOffsets := (List.range 16).map (· + 1) }).wf = false := by decide

/-! ### Decoding: words written out bit by bit -/

/-- R71: `H L L` is `100`, `H H L` is `110`; R72: the word of (r, g, b) = (128, 64, 32) is 0x408020 (S2); R76: the pixel register's
value 0x00204080 (S3). -/
theorem test_decode_table_words :
    decodeTableWord 8 0b00000100 = some (.cellBit0 0) ∧ decodeTableWord 8 0b00000110 = some (.cellBit1 0) ∧
    decodeTableWord 8 0b00000101 = none ∧
    decodeTableWord 24 0b010000001000000000100000 = some (.wordPixel { red := 128, green := 64, blue := 32 } 0) ∧
    decodeTableWord 32 0b00000000001000000100000010000000 = some (.regPixel 0 0x00204080) := by decide

/-- The formats of R74, R75, R77 and R78: a gap from tick 0x0201 with 3 more, the configuration write 0x00020002 (S3), an item
(r, g, b) = (1, 2, 3) of position 2 with `isLast` and `valid` from tick 5, a report (0x0102, 1). -/
theorem test_decode_formats :
    decoded [3, 0x81, 0x04, 3] = some (.frameGap 0x0201 3) ∧
    decoded [4, 0x02, 0x00, 0x02, 0x00] = some (.regConfig 0x00020002) ∧
    decoded [6, 1, 2, 3, 2, 0b110, 5] =
      some (.itemStream true { red := 1, green := 2, blue := 3, pos := 2, first := false, last := true } 5) ∧
    decoded [7, 1, 0x82, 0x02] = some (.report 0x0102 true) := by decide

/-- The operations of ENC by their tags, the three with an item carrying (1, 2, 3) at position 0 with both flags. -/
theorem test_decode_encoder : decoded [16] = some .encIdleHold ∧
    decoded [17, 1, 2, 3, 0, 0b11] = some (.encAcceptFirst { red := 1, green := 2, blue := 3, pos := 0, first := true, last := true }) ∧
    decoded [18, 1, 2, 3, 0, 0b11] = some (.encReject { red := 1, green := 2, blue := 3, pos := 0, first := true, last := true }) ∧
    decoded [19] = some .encHighTick ∧ decoded [20] = some .encHighEnd ∧ decoded [21] = some .encLowTick ∧
    decoded [22] = some .encNextBit ∧
    decoded [23, 1, 2, 3, 1, 0b00] = some (.encAcceptNext { red := 1, green := 2, blue := 3, pos := 1, first := false, last := false }) ∧
    decoded [24] = some .encUnderrun ∧ decoded [25] = some .encWaitHold ∧ decoded [26] = some .encGapStart ∧
    decoded [27] = some .encGapTick ∧ decoded [28] = some .encGapEnd ∧ decoded [29] = some .encFaultHold := by decide

theorem test_decode_chain : decoded [32, 1] = some (.chainShift true) ∧ decoded [32, 0] = some (.chainShift false) ∧
    decoded [33] = some .chainLoad := by decide

theorem test_decode_decoder : decoded [48, 0, 1] = some (.decIgnore 1 false) ∧
    decoded [49, 0, 1] = some (.decTimeout 1 false) ∧
    decoded [50, 1, 0x80, 0x02] = some (.decRise 256 true) ∧
    decoded [51, 0, 1] = some (.decFall0 1 false) ∧
    decoded [52, 0, 1] = some (.decFall1 1 false) ∧
    decoded [53, 0, 1] = some (.decFallX 1 false) ∧
    decoded [54, 1, 0x80, 0x80, 0x80, 0x80, 0x80, 0x80, 0x80, 0x80, 0x80, 0x01] = some (.decHold (2 ^ 63) true) ∧
    decoded [55, 255, 15] = some (.monConfig 255 15) := by decide

/-- R150: offset 0, the offset of position 2 under the suggested map, and an offset that is no register. -/
theorem test_decode_facade : decoded [64, 0x02, 0x00, 0x02, 0x00, 0] = some (.regfWrCfg 0x00020002) ∧
    decoded [64, 0x80, 0x40, 0x20, 0x00, 3] = some (.regfWrPix 2 0x00204080) ∧
    decoded [64, 0, 0, 0, 0, 9] = some (.regfWrNone 9 0) ∧
    decoded [64, 0, 0, 0, 0, 0x80, 0x80, 0x80, 0x80, 0x80, 0x80, 0x80, 0x80, 0x80, 0x02] = some (.regfWrNone (2 ^ 64) 0) ∧
    decoded [65] = some .regfXfer ∧ decoded [80] = some .sysReset := by decide +kernel

theorem test_decode_refused : decodeError [] = some .empty ∧ decodeError [0] = some (.unknownTag 0) ∧
    decodeError [30] = some (.unknownTag 30) ∧ decodeError [16, 0] = some (.wrongLength 16) ∧
    decodeError [1, 0b111, 0] = some (.badCell 7) ∧ decodeError [1, 0b110] = some (.badNumber 1) ∧
    decodeError [1, 0b110, 0x80, 0] = some (.badNumber 1) ∧ decodeError [1, 0b110, 0, 0] = some (.badNumber 1) ∧
    decodeError [32, 2] = some (.badField 2) ∧
    decodeError [55, 0, 16] = some (.badField 16) ∧ decodeError [17, 0, 0, 0, 0, 4] = some (.badField 4) ∧
    decodeError [5, 0, 0, 0, 0, 8] = some (.noPixelRegister 8) := by decide

/-! ### States to test on -/

/-- Reset, then both configurations `(D, L)`. -/
def configured (d : Byte) (l : BitVec 4) : State :=
  { State.reset with
    cfg := { divider := d, lastLed := l, isSet := true }
    mon := { State.reset.mon with S := d.toNat + 1, N := l.toNat + 1, cfgSet := true } }

/-- The encoder at work: phase, timer, count, word, `enc_last`, at `S = 3`, `N = 3`, position 0 sent. -/
def atWork (p : EncPhase) (tmr cnt : Nat) (w : PixelWord) (last : Bool) : State :=
  { configured 2 2 with
    enc := { S := 3, N := 3, phase := p, word := w, cnt := cnt, tmr := tmr, last := last, seqErr := false,
             expPos := bif last then 0 else 1 } }

/-- The monitor at work at `S = 10`, `N = 2`: phase, pending flag, last rise, last fall, bits since the last load. -/
def watching (p : DecPhase) (pending : Bool) (rise fall bits : Nat) : State :=
  { configured 9 1 with
    mon := { (configured 9 1).mon with phase := p, pending := pending, riseTs := rise, fallTs := fall, lastTs := max rise fall }
    chain := { State.reset.chain with bitsSinceLoad := bits } }

/-- The chain with two registers in use. -/
def chainOf (a b c : PixelWord) : State :=
  { configured 9 1 with chain := { State.reset.chain with acc := [a, b, c] ++ List.replicate 13 0 } }

/-- An item queued by an external producer. -/
def presenting (s : State) (it : Item) : State :=
  { s with env := { s.env with producer := some .stream, stream := [{ notBefore := 0, item := it }] } }

/-- An item held by the facade. -/
def holding (s : State) (it : Item) : State :=
  { s with hold := { valid := true, item := it }, env := { s.env with producer := some .facade } }

/-- An input to come. -/
def coming (s : State) (due : Nat) (bs : List Byte) : State :=
  { s with env := { s.env with pending := [{ due := due, bytes := bs }] } }

def item0 : Item := { red := 0, green := 0, blue := 0, pos := 0, first := true, last := false }
def item1 : Item := { red := 255, green := 255, blue := 255, pos := 1, first := false, last := false }
def item2 : Item := { red := 1, green := 2, blue := 3, pos := 2, first := false, last := true }
def loneItem : Item := { red := 0x0F, green := 0xA5, blue := 0x80, pos := 0, first := true, last := true }

/-- A full holding register with a write behind it, at a tick that takes the held item. -/
def waiting : State :=
  { holding (configured 2 2) item0 with env := { (holding (configured 2 2) item0).env with held := [{ k := 1, v := 5 }] } }

/-! ### Reset (10_state.md R44) -/

theorem test_reset_encoder : State.reset.enc.S = 1 ∧ State.reset.enc.N = 1 ∧ State.reset.enc.phase = .idle ∧
    State.reset.wire = false ∧ State.reset.ready = false := by decide

/-- Z: a state at work goes back to the table. -/
theorem test_reset_clears : (got (exec .sysReset (atWork .fault 0 0 5 true))).map (fun t => (t.enc, t.mon, t.tick)) =
    some (State.reset.enc, State.reset.mon, 0) := by decide

/-- A run whose SYS.RESET does not reach the monitor (R186), at tick 1211, the latch being due. -/
def keptMonitor : State :=
  { watching .low true 0 10 1 with
    enc := (atWork .high 5 23 0 false).enc
    tick := 1211
    env := { Env.empty with par := { Params.suggested with resetsMonitor := false } } }

/-- Z3: the wire is low from the reset on and the tick number 0, and the report of that tick, `120 * S + 1` after the last fall by the
monitor's time, latches a short frame. -/
theorem test_reset_keeps_monitor : ((got (exec .sysReset keptMonitor)).map fun t => (t.wire, t.enc, t.cfg, t.tick)) =
      some (false, State.reset.enc, State.reset.cfg, 0) ∧
    (((got (exec .sysReset keptMonitor)).bind fun t => got (step t)).map fun t => (t.tick, t.mon.lastTs, t.log.viols)) =
      some (1, 1211, [{ ts := some 1211, diag := .frameLength 1 48 }]) := by decide

/-! ### The encoder (vectors E1, E2, E5 to E8) -/

/-- E1, tick 0: word 0xA50F80, timer 1, count 23. -/
theorem test_accept_first : (got (exec (.encAcceptFirst loneItem) (presenting (configured 0 0) loneItem))).map (·.enc) =
    some { S := 1, N := 1, phase := .high, word := 0xA50F80, cnt := 23, tmr := 1, last := true, expPos := 0, seqErr := false } := by
  decide

/-- E2, tick 216: the second pixel's timer is 5 (a 1-bit at `S = 3`) and the next position is 2. -/
theorem test_accept_next : (got (exec (.encAcceptNext item1) (presenting (atWork .low 0 0 0 false) item1))).map
    (fun t => (t.enc.word, t.enc.tmr, t.enc.expPos, t.enc.S)) = some (0xFFFFFF, 5, 2, 3) := by decide

/-- E5: position 2 before 0. -/
theorem test_reject_order : (got (exec (.encReject item2) (presenting (configured 2 2) item2))).map
    (fun t => (t.enc.phase, t.log.viols)) =
      some (.fault, [{ ts := some 0, diag := .protocolSequence 0 2 false true }]) := by decide

/-- E8: position 0 of a one-pixel chain without `isLast`; E7: with it in a chain of three. -/
theorem test_reject_flags : (got (exec (.encReject item0) (configured 0 0))).isSome = true ∧
    (got (exec (.encReject loneItem) (configured 2 2))).isSome = true ∧
    (got (exec (.encAcceptFirst loneItem) (configured 2 2))).isSome = false := by decide

theorem test_high_tick : (got (exec .encHighTick (atWork .high 2 23 0 false))).map (·.enc.tmr) = some 1 := by decide

/-- E2, tick 3: a 0-bit's low part is 6 ticks, timer 5; tick 429: a 1-bit's is 3, timer 2. -/
theorem test_high_end : (got (exec .encHighEnd (atWork .high 0 23 0 false))).map (·.enc.tmr) = some 5 ∧
    (got (exec .encHighEnd (atWork .high 0 0 0x800000 false))).map (·.enc.tmr) = some 2 := by decide

theorem test_low_tick : (got (exec .encLowTick (atWork .low 5 23 0 false))).map (·.enc.tmr) = some 4 := by decide

/-- E1, tick 3: 0xA50F80 becomes 0x4A1F00, count 22. -/
theorem test_next_bit : (got (exec .encNextBit (atWork .low 0 23 0xA50F80 true))).map
    (fun t => (t.enc.word, t.enc.cnt, t.enc.tmr)) = some (0x4A1F00, 22, 2) := by decide

/-- E2, tick 648: the gap's timer starts at 359. -/
theorem test_gap_start : (got (exec .encGapStart (atWork .low 0 0 0 true))).map (fun t => (t.enc.phase, t.enc.tmr)) =
    some (.gap, 359) := by decide

theorem test_gap_tick : (got (exec .encGapTick (atWork .gap 359 0 0 true))).map (·.enc.tmr) = some 358 := by decide

theorem test_gap_end : (got (exec .encGapEnd (atWork .gap 0 0 0 true))).map (·.enc.phase) = some .idle ∧
    (atWork .gap 0 0 0 true).ready = false := by decide

theorem test_underrun : (got (exec .encUnderrun (atWork .low 0 0 0 false))).map (·.enc.phase) = some .wait := by decide

theorem test_wait_hold : (got (exec .encWaitHold (atWork .wait 0 0 0 false))).map (·.enc) =
    some (atWork .wait 0 0 0 false).enc ∧ (atWork .wait 0 0 0 false).ready = true := by decide

theorem test_fault_hold : (got (exec .encFaultHold (atWork .fault 0 0 0 false))).map (·.enc.phase) = some .fault := by decide

/-- E3: an item at an encoder that is not configured is not taken. -/
theorem test_idle_hold : (got (exec .encIdleHold (presenting State.reset loneItem))).map (·.enc) = some State.reset.enc ∧
    refusal (exec .encIdleHold (presenting (configured 0 0) loneItem)) = some (.notSelected "ENC.IDLE_HOLD") := by decide

/-! ### The chain (vectors C1, C5, C9) -/

theorem test_shift : (got (exec (.chainShift true) (chainOf 0x800001 0x7FFFFF 0xABCDEF))).map (·.chain.acc.take 3) =
    some [0x000003, 0xFFFFFF, 0xABCDEF] ∧ (shiftChain true (chainOf 0x800001 0x7FFFFF 0)).1 = false := by decide

/-- The frame is the latches in reverse, each green 23:16, red 15:8, blue 7:0; no bits were shifted, so it is not complete. -/
theorem test_load : (got (exec .chainLoad (chainOf 0x445566 0x112233 0))).map (fun t => (t.log.frames, t.log.viols)) =
    some ([{ ts := none, frame := [{ red := 34, green := 17, blue := 51 }, { red := 85, green := 68, blue := 102 }],
             complete := false }], [{ ts := none, diag := .frameLength 0 48 }]) := by decide

/-- R36, R43: a load pending is no longer pending after a direct load, which clears `bitsSinceLoad`. -/
theorem test_load_clears_pending : (got (exec .chainLoad (watching .low true 0 10 1))).map
    (fun t => (t.mon.pending, t.chain.bitsSinceLoad, t.mon.phase)) = some (false, 0, .low) := by decide

/-! ### The monitor (vectors D1, D2, D4, D7) -/

/-- D1: the ends of the bands at `S = 10`. -/
theorem test_bands : [0, 8, 9, 11, 12, 18, 19, 21, 22].map (fun h => (zeroBand h 10, oneBand h 10)) =
    [(false, false), (false, false), (true, false), (true, false), (false, false), (false, false), (false, true),
     (false, true), (false, false)] := by decide

/-- D2: bit periods 29 and 31 raise nothing, 28 and 32 a BitPeriodViolation, 51 a MissedLoad as well. -/
theorem test_rise : [28, 29, 31, 32, 50, 51].map (fun bp =>
    (got (exec (.decRise bp true) (watching .low true 0 10 1))).map (·.log.viols.map (·.diag.code))) =
    [some [1], some [], some [], some [1], some [1], some [1, 3]] := by decide

theorem test_fall0 : (got (exec (.decFall0 110 false) (watching .high false 100 0 0))).map
    (fun t => (t.mon.phase, t.mon.pending, t.mon.fallTs, t.chain.bitsSinceLoad)) = some (.low, true, 110, 1) := by decide

theorem test_fall1 : (got (exec (.decFall1 121 false) (watching .high false 100 0 0))).map
    (fun t => t.chain.acc.take 2) = some [1, 0] := by decide

/-- D4: the pulse of 15 ticks; under `nearest` the tie goes to 1. -/
theorem test_fallx : (got (exec (.decFallX 145 false) (watching .high true 130 110 1))).map
    (fun t => (t.log.viols, t.chain.bitsSinceLoad)) = some ([{ ts := some 145, diag := .unclassifiable 15 }], 1) ∧
    (got (exec (.decFallX 145 false) { watching .high true 130 110 1 with
      env := { Env.empty with par := { Params.suggested with policy := .nearest } } })).map
    (fun t => (t.chain.bitsSinceLoad, t.chain.acc.take 1)) = some (2, [1]) := by decide

theorem test_hold : (got (exec (.decHold 40 false) (watching .low true 0 10 1))).map (fun t => (t.mon.lastTs, t.mon.fallTs)) =
    some (40, 10) := by decide

theorem test_ignore : (got (exec (.decIgnore 7 true) State.reset)).map (·.mon) = some State.reset.mon := by decide

/-- R133: low for exactly `120 * S` is no latch, one tick more is. -/
theorem test_timeout : refusal (exec (.decTimeout 1210 false) (watching .low true 0 10 1)) = some (.notSelected "DEC.TIMEOUT") ∧
    (got (exec (.decTimeout 1211 false) (watching .low true 0 10 1))).map
      (fun t => (t.mon.pending, t.out.frameValid, t.out.viol)) = some (false, true, 0b1000) := by decide

/-- R130: the latch comes before the edge, which then finds nothing pending. -/
theorem test_report : (got (exec (.report 1211 true) (watching .low true 0 10 48))).map
    (fun t => (t.log.frames.length, t.log.viols, t.mon.phase)) = some (1, [], .high) ∧
    refusal (exec (.report 9 false) (watching .low true 0 10 1)) = some (.reportOutOfOrder 9 10) := by decide

/-- R145: taken when quiescent, rejected in a frame. -/
theorem test_monitor_config : (got (exec (.monConfig 255 15) State.reset)).map (fun t => (t.mon.S, t.mon.N, t.mon.cfgSet)) =
    some (256, 16, true) ∧
    (got (exec (.monConfig 255 15) (watching .low true 0 10 1))).map (fun t => (t.mon.S, t.mon.cfgReject)) =
    some (10, true) := by decide

/-! ### The facade and the stream (vectors F6 to F8, R155) -/

/-- F6 and F7: both writes of the configuration register. -/
theorem test_config_write : (got (exec (.regConfig 0x000F00FF) State.reset)).map (·.cfg) =
    some { divider := 255, lastLed := 15, isSet := true } ∧
    (got (exec (.regfWrCfg 0xFFF2FF02) State.reset)).map (·.cfg) = some { divider := 2, lastLed := 2, isSet := true } := by decide

/-- F8, with `cfg.lastLed = 0`: the item is first and last; a second write waits. -/
theorem test_pixel_write : (got (exec (.regPixel 0 0xAB030201) State.reset)).map (·.hold) =
    some { valid := true, item := { red := 1, green := 2, blue := 3, pos := 0, first := true, last := true } } ∧
    (got (exec (.regfWrPix 1 7) (holding (configured 2 2) item0))).map (fun t => (t.hold.item, t.env.held)) =
    some (item0, [{ k := 1, v := 7 }]) := by decide

theorem test_transfer : (got (exec .regfXfer (holding (configured 2 2) item0))).map (·.hold.valid) = some false := by decide

theorem test_unmapped_write : (got (exec (.regfWrNone 9 1) (configured 2 2))) = some (configured 2 2) := by decide

theorem test_item_stream : (got (exec (.itemStream true item0 5) (configured 2 2))).map
    (fun t => (t.env.stream, t.presented)) = some ([{ notBefore := 5, item := item0 }], none) ∧
    refusal (exec (.itemStream true item0 5) (holding (configured 2 2) item0)) = some .mixedProducers := by decide

/-! ### The formats on the wire -/

/-- S1 at `S = 10`: a 0-bit is high 10 ticks, a 1-bit 20. -/
theorem test_cells : (got (exec (.cellBit0 100) (configured 9 1))).map (fun t => (t.mon.riseTs, t.mon.fallTs, t.chain.acc.take 1)) =
    some (100, 110, [0]) ∧
    (got (exec (.cellBit1 100) (configured 9 1))).map (fun t => (t.mon.riseTs, t.mon.fallTs, t.chain.acc.take 1)) =
    some (100, 120, [1]) := by decide

/-- R73: the word of (128, 64, 32) arrives as 0x408020. -/
theorem test_word : (got (exec (.wordPixel { red := 128, green := 64, blue := 32 } 0) (configured 0 0))).map
    (fun t => (t.chain.acc.take 1, t.chain.bitsSinceLoad, t.log.viols)) = some ([0x408020], 24, []) := by decide

theorem test_gap : (got (exec (.frameGap 30 0) (watching .low true 0 10 48))).map
    (fun t => t.log.frames.map (fun f => (f.ts, f.complete))) = some [(some 1230, true)] := by decide

/-! ### Stimuli (R84, R85) -/

/-- `WR 2^64 v` stays at its offset, and a position without a pixel register has no `WRPIX`. -/
theorem test_lines : (Line.bytes Params.suggested (.wr (2 ^ 64) 5)).bind decoded = some (.regfWrNone (2 ^ 64) 5) ∧
    (Line.bytes Params.suggested (.report (2 ^ 64) true)).bind decoded = some (.report (2 ^ 64) true) ∧
    Line.wrPix Params.suggested 7 { red := 1, green := 2, blue := 3 } = some (.wr 8 0x00030201) ∧
    Line.wrPix Params.suggested 8 { red := 1, green := 2, blue := 3 } = none := by decide +kernel

/-- R85, R77: the items of a frame of two pixels, and no line for one more pixel than `pos` can number. -/
theorem test_frame_line :
    Line.frame [{ red := 1, green := 2, blue := 3 }, { red := 4, green := 5, blue := 6 }] =
      some [.pix { red := 1, green := 2, blue := 3, pos := 0, first := true, last := false } 0,
        .pix { red := 4, green := 5, blue := 6, pos := 1, first := false, last := true } 0] ∧
    (Line.frame (List.replicate 16 { red := 1, green := 2, blue := 3 })).isSome = true ∧
    Line.frame (List.replicate 17 { red := 1, green := 2, blue := 3 }) = none := by decide

/-- R151: a configuration write behind a waiting pixel write is accepted at once. -/
theorem test_config_write_passes : (got (exec (.regfWrCfg 0x00020002) { waiting with cfg := State.reset.cfg })).map
    (fun t => (t.cfg.isSet, t.env.held)) = some (true, [{ k := 1, v := 5 }]) := by decide

/-! ### The step -/

/-- `withFetchWord` puts a cell before the machine, and the next step takes it: not configured, the monitor ignores it. -/
theorem test_fetch_word : (got (step (State.reset.withFetchWord 8 0b110))).map (fun t => (t.tick, t.env.pending)) =
    some (0, []) := by decide

/-- E1, tick 0 as a whole: the item is taken, the report of the low wire is held, time goes on. -/
theorem test_tick : (got (step (presenting (configured 0 0) loneItem))).map
    (fun t => (t.tick, t.enc.word, t.env.stream, t.mon.lastTs)) = some (1, 0xA50F80, [], 0) := by decide

theorem no_delivery {s : State} {i : Instr} (h : fetch s.clearOut = none) : ¬ s.delivers i := by
  rintro ⟨_, h'⟩
  rw [h] at h'
  cases h'

/-! ### Witnesses: a state that meets each statement's hypotheses -/

theorem test_witness_DecodeOfEncode : ∀ i ∈ [Instr.regfWrPix 7 5, .regfWrNone 9 5, .report (2 ^ 64) true, .frameGap 0 (2 ^ 64),
    .regPixel 0 0xFFFFFFFF], Params.suggested.wf = true ∧ i.wellFormed Params.suggested = true := by decide

theorem test_witness_EncodeOfDecode : Params.suggested.wf = true ∧ decode Params.suggested [19] = .ok .encHighTick := by decide

/-- The three clauses: offset 0, the last register's offset, and an offset beyond 64 bits. -/
theorem test_witness_OffsetSelectsTheWrite : Params.suggested.wf = true ∧ Params.suggested.pixRegOffset 7 = some 8 ∧
    (2 ^ 64 : Nat) ≠ 0 ∧ Params.suggested.pixRegIndex (2 ^ 64) = none := by decide

/-- The three clauses: an input due at this very tick, bytes that are no operation, an input of the next tick. -/
theorem test_witness_StepRunsTheDecoded :
    (coming State.reset 0 [19]).env.pending = [{ due := 0, bytes := [19] }] ∧ 0 ≤ (coming State.reset 0 [19]).tick ∧
    decode (coming State.reset 0 [19]).env.par [19] = .ok .encHighTick ∧
    decode (coming State.reset 0 [0]).env.par [0] = .error (.unknownTag 0) ∧
    (∀ p ∈ (coming State.reset 1 [19]).env.pending.head?, (coming State.reset 1 [19]).tick < p.due) ∧
    (∀ p ∈ State.reset.env.pending.head?, State.reset.tick < p.due) := by decide

/-- Attached and not; an item taken from the queue; an item taken from the holding register with a write behind it; a full register at a
tick that takes nothing. -/
theorem test_witness_TickComposesTheAgents : (∃ t, tick State.reset = .next t) ∧
    (∃ t, tick { State.reset with env := { Env.empty with par := { Params.suggested with attached := false } } } = .next t) ∧
    ((presenting (configured 2 2) item0).transfers = true ∧ (presenting (configured 2 2) item0).hold.valid = false ∧
      ∃ t, tick (presenting (configured 2 2) item0) = .next t) ∧
    (waiting.ready = true ∧ waiting.hold.valid = true ∧ waiting.env.held = [{ k := 1, v := 5 }] ∧ ∃ t, tick waiting = .next t) ∧
    ((holding State.reset item0).hold.valid = true ∧ (holding State.reset item0).ready = false ∧
      ∃ t, tick (holding State.reset item0) = .next t) :=
  ⟨⟨_, rfl⟩, ⟨_, rfl⟩, ⟨by decide, by decide, _, rfl⟩, ⟨by decide, by decide, rfl, _, rfl⟩, ⟨by decide, by decide, _, rfl⟩⟩

theorem test_witness_TickAlwaysRuns : State.reset.env.par.attached = true ∧ State.reset.mon.lastTs ≤ State.reset.reportTime := by decide

theorem test_witness_StepKeepsInvariants : State.reset.Inv ∧ ∃ t, step State.reset = .next t :=
  ⟨⟨by decide, by decide, by decide, by decide⟩, ⟨_, rfl⟩⟩

/-- With a load pending: a tick, and a direct CHAIN.LOAD. -/
theorem test_witness_StepKeepsR43 :
    ∀ s ∈ [{ watching .low true 0 10 1 with tick := 10 }, coming (watching .low true 0 10 1) 0 [33]],
      s.mon.pending = true ∧ s.PendingHasBits ∧ s.Inv ∧ ∃ t, step s = .next t := by
  simp only [List.mem_cons, List.not_mem_nil, or_false, forall_eq_or_imp, forall_eq]
  exact ⟨⟨rfl, by decide, ⟨by decide, by decide, by decide, by decide⟩, _, rfl⟩,
    rfl, by decide, ⟨by decide, by decide, by decide, by decide⟩, _, rfl⟩

theorem test_witness_StepKeepsFlagsMatchLog : State.reset.FlagsMatchLog ∧ ∃ t, step State.reset = .next t :=
  ⟨by simp [State.FlagsMatchLog, State.reset], ⟨_, rfl⟩⟩

/-- A SYS.RESET that does not reach the monitor, with one bit set to see it go on. -/
theorem test_reset_not_of_monitor : (coming keptMonitor 0 [80]).delivers .sysReset ∧
    ¬ (coming keptMonitor 0 [80]).deliversMonitorReset ∧
    (got (step (coming keptMonitor 0 [80]))).map (fun t => (t.enc.phase, t.mon.phase, t.mon.S)) = some (.idle, .low, 10) :=
  ⟨⟨_, rfl⟩, fun h => absurd h.2 (by decide), by decide⟩

/-- Every flag set at once, and a step that is not a reset. -/
theorem test_witness_OnlyResetClearsFlags : ∃ s : State, (∃ t, step s = .next t) ∧ ¬ s.delivers .sysReset ∧
    ¬ s.deliversMonitorReset ∧ s.enc.seqErr = true ∧
    s.mon.flagBitPeriod = true ∧ s.mon.flagUnclassifiable = true ∧ s.mon.flagMissedLoad = true ∧
    s.chain.flagFrameLength = true ∧ s.mon.cfgReject = true :=
  ⟨{ State.reset with
      enc := { State.reset.enc with seqErr := true, phase := .fault }
      chain := { State.reset.chain with flagFrameLength := true }
      mon := { State.reset.mon with
        flagBitPeriod := true, flagUnclassifiable := true, flagMissedLoad := true, cfgReject := true } },
    ⟨_, rfl⟩, no_delivery rfl, fun h => no_delivery rfl h.1, rfl, rfl, rfl, rfl, rfl, rfl⟩

theorem test_witness_FaultIsAbsorbing : (∃ t, step (atWork .fault 0 0 0 false) = .next t) ∧
    (atWork .fault 0 0 0 false).enc.phase = .fault ∧ ¬ (atWork .fault 0 0 0 false).delivers .sysReset :=
  ⟨⟨_, rfl⟩, rfl, no_delivery rfl⟩

theorem test_witness_DecoderIdleOnlyByReset : ∃ t, step State.reset = .next t ∧ ¬ State.reset.deliversMonitorReset ∧
    t.mon.phase = .idle :=
  ⟨_, rfl, fun h => no_delivery rfl h.1, rfl⟩

/-- The first two clauses: a frame that begins with a new configuration, and a MON.CONFIG that is taken, neither by a SYS.RESET. -/
theorem test_witness_ConfigurationChangesBetweenFrames :
    (got (step (presenting (configured 2 2) item0))).map (fun t => (t.enc.S, t.enc.N)) = some (3, 3) ∧
    (configured 2 2).enc.S = 1 ∧ (configured 2 2).enc.N = 1 ∧
    (got (step (coming State.reset 0 [55, 9, 1]))).map (fun t => (t.mon.S, t.mon.N)) = some (10, 2) := by decide

/-- A configuration write, and a direct CHAIN.LOAD with a load pending. -/
theorem test_witness_SingleOwner : (State.reset.env.par.wf = true ∧ ∃ t, exec (.regfWrCfg 5) State.reset = .next t ∧
    t.cfg ≠ State.reset.cfg) ∧ ((watching .low true 0 10 1).env.par.wf = true ∧
      ∃ t, exec .chainLoad (watching .low true 0 10 1) = .next t ∧ t.mon ≠ (watching .low true 0 10 1).mon) :=
  ⟨⟨by decide, _, rfl, by decide⟩, by decide, _, rfl, by decide⟩

/-- A shift, and a reset that does not reach the monitor. -/
theorem test_witness_RegistersOutsideChainKept : ((∃ t, exec (.chainShift true) (chainOf 1 2 3) = .next t) ∧
    ChainInv (chainOf 1 2 3) ∧ (chainOf 1 2 3).mon.N ≤ 2) ∧ (∃ t, exec .sysReset keptMonitor = .next t) ∧
    keptMonitor.env.par.resetsMonitor = false ∧ ChainInv keptMonitor ∧ keptMonitor.mon.N ≤ 2 :=
  ⟨⟨⟨_, rfl⟩, by decide, by decide⟩, ⟨_, rfl⟩, by decide, by decide, by decide⟩

/-- Both runs, and a monitor that was left alone, at a low wire and at a pulse the reset cut. -/
theorem test_witness_ResetLeavesTheTable : State.reset.env.par.resetsMonitor = true ∧ keptMonitor.env.par.resetsMonitor = false ∧
    ∀ p ∈ [DecPhase.low, .high], ∃ s, exec .sysReset { keptMonitor with tick := 1000, mon := { keptMonitor.mon with phase := p } } =
      .next s ∧ s.enc.phase = .idle ∧ s.cfg.isSet = false ∧ s.env.pending = [] ∧ s.env.par.attached = true ∧ s.mon.cfgSet = true ∧
      s.mon.lastTs ≤ s.mon.tsBase + s.tick ∧ s.mon.phase = p ∧ s.mon.pending = true ∧
      s.mon.tsBase + s.tick ≤ s.mon.fallTs + 120 * s.mon.S + 1 := by
  simp only [List.mem_cons, List.not_mem_nil, or_false, forall_eq_or_imp, forall_eq]
  exact ⟨by decide, by decide, ⟨_, rfl, by decide⟩, _, rfl, by decide⟩

/-- Without an item, and with the one presented. -/
theorem test_witness_ExactlyOneEncoderOperation : Instr.encHighTick.isEnc = true ∧ encOperand .encHighTick = none ∧
    (Instr.encAcceptFirst loneItem).isEnc = true ∧
    encOperand (.encAcceptFirst loneItem) = (presenting (configured 0 0) loneItem).presented := by decide

/-- Both clauses: an operation that logs nothing, and ENC.REJECT. -/
theorem test_witness_EncoderOperationsFrame : (Instr.encIdleHold.isEnc = true ∧ ∃ t, exec .encIdleHold State.reset = .next t) ∧
    ((Instr.encReject item2).isEnc = true ∧ ∃ t, exec (.encReject item2) (configured 2 2) = .next t) :=
  ⟨⟨rfl, _, rfl⟩, ⟨rfl, _, rfl⟩⟩

theorem test_witness_TransferEndsReady : (presenting (configured 0 0) loneItem).transfers = true ∧
    ∃ t, exec (encOp (presenting (configured 0 0) loneItem)) (presenting (configured 0 0) loneItem) = .next t := ⟨by decide, _, rfl⟩

/-- Each of the three phases, with one tick left. -/
theorem test_witness_TimedPhasesCountDown : ∀ p ∈ [EncPhase.high, .low, .gap], 0 < (atWork p 1 0 0 true).enc.tmr ∧
    (atWork p 1 0 0 true).enc.phase = p := by decide

theorem test_witness_HighPartEnds : (atWork .high 0 0 0 true).enc.phase = .high ∧ (atWork .high 0 0 0 true).enc.tmr = 0 := by
  decide

theorem test_witness_NextBitBegins : (atWork .low 0 1 0 true).enc.phase = .low ∧ (atWork .low 0 1 0 true).enc.tmr = 0 ∧
    0 < (atWork .low 0 1 0 true).enc.cnt := by decide

/-- A chain of one, where the first item is the last, and a chain of three. -/
theorem test_witness_FirstItemAccepted : ((configured 0 0).enc.phase = .idle ∧ (configured 0 0).cfg.isSet = true ∧ loneItem.pos = 0 ∧
    loneItem.first = true ∧ loneItem.last = decide ((configured 0 0).cfg.lastLed = 0)) ∧
    item0.pos = 0 ∧ item0.first = true ∧ item0.last = decide ((configured 2 2).cfg.lastLed = 0) := by decide

/-- At the end of a pixel, and after a wait. -/
theorem test_witness_NextItemAccepted : ∀ s ∈ [atWork .low 0 0 0 false, atWork .wait 0 0 0 false],
    ((s.enc.phase = .low ∧ s.enc.tmr = 0 ∧ s.enc.cnt = 0 ∧ s.enc.last = false) ∨ s.enc.phase = .wait) ∧
    item1.pos.toNat = s.enc.expPos ∧ item1.first = decide (item1.pos = 0) ∧
    item1.last = decide (item1.pos.toNat = s.enc.N - 1) := by decide

/-- Idle with position 2 expected 0, and waiting with position 2 expected 1. -/
theorem test_witness_BadItemRejected : ((configured 2 2).ready = true ∧ (configured 2 2).enc.phase = .idle ∧
    3 = (configured 2 2).cfg.lastLed.toNat + 1 ∧
    ¬ (item2.pos.toNat = 0 ∧ item2.first = decide (item2.pos.toNat = 0) ∧ item2.last = decide (item2.pos.toNat = 3 - 1))) ∧
    (atWork .wait 0 0 0 false).ready = true ∧ (atWork .wait 0 0 0 false).enc.phase ≠ .idle ∧
    (atWork .wait 0 0 0 false).enc.expPos = 1 ∧
    ¬ (item2.pos.toNat = 1 ∧ item2.first = decide (item2.pos.toNat = 0) ∧ item2.last = decide (item2.pos.toNat = 3 - 1)) := by
  decide

/-- The tick that takes it, from the queue and from the holding register. -/
theorem test_witness_BadItemRejected_tick : ∀ s ∈ [presenting (configured 2 2) item2, holding (configured 2 2) item2],
    s.ready = true ∧ s.presented = some item2 ∧ s.env.held = [] ∧ (got (tick s)).isSome = true := by decide

/-- The four clauses, and both reasons of the first. -/
theorem test_witness_EncoderWaits : (State.reset.enc.phase = .idle ∧ State.reset.cfg.isSet = false) ∧
    (configured 2 2).presented = none ∧
    ((atWork .low 0 0 0 false).enc.phase = .low ∧ (atWork .low 0 0 0 false).enc.last = false ∧
      (atWork .low 0 0 0 false).presented = none) ∧
    ((atWork .wait 0 0 0 false).enc.phase = .wait ∧ (atWork .wait 0 0 0 false).presented = none) ∧
    (atWork .fault 0 0 0 false).enc.phase = .fault := by decide

theorem test_witness_GapBeginsAndEnds : ((atWork .low 0 0 0 true).enc.tmr = 0 ∧ (atWork .low 0 0 0 true).enc.phase = .low ∧
    (atWork .low 0 0 0 true).enc.cnt = 0 ∧ (atWork .low 0 0 0 true).enc.last = true ∧ EncInv (atWork .low 0 0 0 true) ∧
    (atWork .low 0 0 0 true).env.pending = [] ∧ (atWork .low 0 0 0 true).mon.lastTs ≤ (atWork .low 0 0 0 true).reportTime) ∧
    (atWork .gap 0 0 0 true).enc.tmr = 0 ∧ (atWork .gap 0 0 0 true).enc.phase = .gap := by decide

/-- The last tick of the last cell is among those spoken of. -/
theorem test_witness_PixelOnTheWire : (atWork .high 5 23 0xFFFFFF false).env.pending = [] ∧
    (atWork .high 5 23 0xFFFFFF false).mon.lastTs ≤ (atWork .high 5 23 0xFFFFFF false).reportTime ∧
    1 ≤ (atWork .high 5 23 0xFFFFFF false).enc.S ∧ (atWork .high 5 23 0xFFFFFF false).enc.phase = .high ∧
    (atWork .high 5 23 0xFFFFFF false).enc.cnt = 23 ∧
    (atWork .high 5 23 0xFFFFFF false).enc.tmr = (1 + ((0xFFFFFF : PixelWord).getLsbD 23).toNat) * 3 - 1 ∧
    23 < 24 ∧ 8 < 3 * (atWork .high 5 23 0xFFFFFF false).enc.S := by decide

/-- One register of sixteen in use, and all of them. -/
theorem test_witness_ShiftMovesOneBit : ∀ s ∈ [configured 0 0, configured 0 15], 1 ≤ s.mon.N ∧ s.mon.N ≤ s.chain.acc.length := by
  decide

/-- Chains of one and of sixteen; a frame that is complete and one that is not. -/
theorem test_witness_LoadLatchesTheFrame : (∀ s ∈ [configured 0 0, configured 0 15], ChainInv s ∧ 1 ≤ s.mon.N ∧ s.mon.N ≤ 16) ∧
    (watching .low true 0 10 48).chain.bitsSinceLoad = 24 * (watching .low true 0 10 48).mon.N ∧
    (watching .low true 0 10 47).chain.bitsSinceLoad ≠ 24 * (watching .low true 0 10 47).mon.N := by decide

theorem test_witness_SecondLoadChangesNoValue : (ChainInv (chainOf 1 2 3) ∧ 1 ≤ (chainOf 1 2 3).mon.N ∧ (chainOf 1 2 3).mon.N ≤ 16 ∧
    ∃ t u, exec .chainLoad (chainOf 1 2 3) = .next t ∧ exec .chainLoad t = .next u) ∧
    (watching .low true 0 10 1).PendingHasBits ∧ ∃ t, exec (.decTimeout 1211 false) (watching .low true 0 10 1) = .next t :=
  ⟨⟨by decide, by decide, by decide, _, _, rfl, rfl⟩, by decide, _, rfl⟩

theorem test_witness_FullFrameLandsInChain : [0x112233, 0x445566].length = (chainOf 1 2 3).mon.N ∧
    (chainOf 1 2 3).mon.N ≤ (chainOf 1 2 3).chain.acc.length := by decide

theorem test_witness_LateReportRefused : 9 < (watching .low true 0 10 1).mon.lastTs := by decide

/-- A monitor that is not configured; a latch that is due; the longest low time that does not latch. -/
theorem test_witness_ReportRunsItsSubSteps : (State.reset.mon.lastTs ≤ 0 ∧ State.reset.mon.cfgSet = false) ∧
    ((watching .low true 0 10 1).mon.lastTs ≤ 1211 ∧ (watching .low true 0 10 1).mon.cfgSet = true ∧
      120 * (watching .low true 0 10 1).mon.S < 1211 - (watching .low true 0 10 1).mon.fallTs) ∧
    ¬ 120 * (watching .low true 0 10 1).mon.S < 1210 - (watching .low true 0 10 1).mon.fallTs := by decide

/-- The longest low time that does not latch, and the shortest that does. -/
theorem test_witness_TimeoutLatches : (watching .low true 0 10 48).mon.lastTs ≤ 1210 ∧ (watching .low true 0 10 48).mon.fallTs ≤ 1210 ∧
    (watching .low true 0 10 48).mon.cfgSet = true ∧ (watching .low true 0 10 48).mon.phase = .low ∧
    (watching .low true 0 10 48).mon.pending = true ∧ ChainInv (watching .low true 0 10 48) ∧
    1 ≤ (watching .low true 0 10 48).mon.N ∧ (watching .low true 0 10 48).mon.N ≤ 16 ∧
    1210 - (watching .low true 0 10 48).mon.fallTs ≤ 120 * (watching .low true 0 10 48).mon.S ∧
    120 * (watching .low true 0 10 48).mon.S < 1211 - (watching .low true 0 10 48).mon.fallTs := by
  decide

/-- Three low reports, the second of which latches; and with nothing pending. -/
theorem test_witness_OneGapOneLoad : (∀ b ∈ [true, false], (watching .low b 0 10 48).mon.phase ≠ .high ∧
      (got (execAll ([1210, 1211, 9999].map fun ts => .report ts false) (watching .low b 0 10 48))).isSome = true) ∧
    (got (execAll ([1210, 1211, 9999].map fun ts => .report ts false) (watching .low true 0 10 48))).map (·.log.frames.length) =
      some 1 ∧ (watching .low true 0 10 48).log.frames.length = 0 ∧ (watching .low true 0 10 48).mon.cfgSet = true ∧
    (watching .low true 0 10 48).mon.phase = .low ∧ (watching .low true 0 10 48).mon.pending = true ∧
    ∃ ts ∈ [1210, 1211, 9999], 120 * (watching .low true 0 10 48).mon.S < ts - (watching .low true 0 10 48).mon.fallTs := by decide

/-- With bits pending, and as the first edge of a frame. -/
theorem test_witness_RisingEdge : (∀ s ∈ [watching .low true 0 10 1, configured 9 1], s.mon.lastTs ≤ 31 ∧ s.mon.riseTs ≤ 31 ∧
    s.mon.cfgSet = true ∧ s.mon.phase ≠ .high) := by decide

/-- The ends of both bands: 9 and 11 for a 0, 19 and 21 for a 1. -/
theorem test_witness_ClassifiedPulse : (watching .high false 100 0 0).mon.lastTs ≤ 109 ∧
    (watching .high false 100 0 0).mon.riseTs ≤ 109 ∧ (watching .high false 100 0 0).mon.cfgSet = true ∧
    (watching .high false 100 0 0).mon.phase = .high ∧ 1 ≤ (watching .high false 100 0 0).mon.S ∧
    (∀ ts ∈ [109, 111], 10 * ((ts - 100 : Int) - 10).natAbs ≤ (watching .high false 100 0 0).mon.S) ∧
    (∀ ts ∈ [119, 121], 10 * ((ts - 100 : Int) - 2 * 10).natAbs ≤ (watching .high false 100 0 0).mon.S) := by decide

/-- The nearest values outside both bands, under both policies. -/
theorem test_witness_UnclassifiablePulse : (watching .high true 100 0 0).mon.lastTs ≤ 112 ∧
    (watching .high true 100 0 0).mon.cfgSet = true ∧ (watching .high true 100 0 0).mon.phase = .high ∧
    (∀ ts ∈ [108, 112, 118, 122], (watching .high true 100 0 0).mon.S < 10 * ((ts - 100 : Int) - 10).natAbs ∧
      (watching .high true 100 0 0).mon.S < 10 * ((ts - 100 : Int) - 2 * 10).natAbs) ∧
    (watching .high true 100 0 0).env.par.policy = .drop ∧ ({ Params.suggested with policy := .nearest }).policy = .nearest := by
  decide

/-- Not configured; the level held in each phase. -/
theorem test_witness_IgnoreAndHold : (State.reset.mon.lastTs ≤ 0 ∧ State.reset.mon.cfgSet = false) ∧
    (watching .low true 0 10 1).mon.lastTs ≤ 10 ∧ (watching .low true 0 10 1).mon.cfgSet = true ∧
    (false = true ↔ (watching .low true 0 10 1).mon.phase = .high) ∧
    (true = true ↔ (watching .high true 0 10 1).mon.phase = .high) := by decide

theorem test_witness_DiagnosticsOfOneReport : ∃ t, exec (.report 51 true) (watching .low true 0 10 1) = .next t := ⟨_, rfl⟩

theorem test_witness_ToleranceIsExact : (1 : Nat) ≤ 1 := by decide

/-- `S = 9`, where each band is one value, and `S = 10`, where it is not. -/
theorem test_witness_BandsOfAPulse : (1 : Nat) ≤ 9 ∧ (9 : Nat) < 10 ∧ (1 : Nat) ≤ 10 := by decide

/-- Both ends of the sub-period's range and of the chain's length. -/
theorem test_witness_SaturationIsInvisible : (∀ S ∈ [1, 256], 1 ≤ S ∧ S ≤ 256) ∧ ∀ N ∈ [1, 16], N ≤ 16 := by decide

/-- Late by 1, 2, 20 and 21 ticks at `S = 10` (vector E11). -/
theorem test_witness_LateRiseIsReported : ∀ d ∈ [1, 2, 20, 21], (watching .low true 0 20 1).mon.cfgSet = true ∧
    (watching .low true 0 20 1).mon.phase = .low ∧ (watching .low true 0 20 1).mon.pending = true ∧
    (watching .low true 0 20 1).mon.riseTs + 3 * (watching .low true 0 20 1).mon.S + d - (watching .low true 0 20 1).mon.fallTs
      ≤ 120 * (watching .low true 0 20 1).mon.S ∧
    (got (exec (.report ((watching .low true 0 20 1).mon.riseTs + 3 * (watching .low true 0 20 1).mon.S + d) true)
      (watching .low true 0 20 1))).isSome = true := by decide

/-- Quiescent, and not for each of the three reasons. -/
theorem test_witness_MonitorConfiguration : (State.reset.mon.pending = false ∧ State.reset.chain.bitsSinceLoad = 0 ∧
    State.reset.mon.phase ≠ .high) ∧ (∀ s ∈ [watching .low true 0 10 0, watching .low false 0 10 1, watching .high false 0 0 0],
      ¬ (s.mon.pending = false ∧ s.chain.bitsSinceLoad = 0 ∧ s.mon.phase ≠ .high)) := by decide

/-- The last register there is; the holding register free, full, and free with a write that waits. -/
theorem test_witness_PixelWrite : (∀ s ∈ [State.reset, holding (configured 2 2) item0,
      { waiting with hold := State.reset.hold }], s.env.par.wf = true ∧ 7 < s.env.par.pixRegCount ∧ s.env.producer ≠ some .stream) ∧
    (State.reset.hold.valid = false ∧ State.reset.env.held = []) ∧ (holding (configured 2 2) item0).hold.valid = true ∧
    ({ waiting with hold := State.reset.hold } : State).hold.valid = false ∧
    ({ waiting with hold := State.reset.hold } : State).env.held ≠ [] := by decide

/-- A tick that takes the held item, one with the register free, and one that leaves it full. -/
theorem test_witness_WaitingWriteIsReleased : ∀ s ∈ [waiting, { waiting with hold := State.reset.hold },
      { waiting with cfg := State.reset.cfg }], s.env.held = [{ k := 1, v := 5 }] ∧ (got (tick s)).isSome = true ∧
    ((s.hold.valid = false ∨ s.ready = true) ∨ (s.hold.valid = true ∧ s.ready = false)) := by decide

theorem test_witness_TransferAndUnmappedWrite : ((holding (configured 2 2) item0).ready = true ∧
    (holding (configured 2 2) item0).hold.valid = true) ∧ (9 : Nat) ≠ 0 ∧ State.reset.env.par.pixRegIndex 9 = none := by decide

theorem test_witness_ItemPresented : State.reset.env.producer ≠ some .facade ∧ State.reset.env.stream = [] ∧
    State.reset.hold.valid = false := by decide

theorem test_witness_MixedProducersRefused : (holding (configured 2 2) item0).env.producer = some .facade ∧
    (presenting (configured 2 2) item0).env.producer = some .stream ∧ (presenting (configured 2 2) item0).env.par.wf = true ∧
    7 < (presenting (configured 2 2) item0).env.par.pixRegCount := by decide

theorem test_witness_CellIsTwoReports : (configured 9 1).mon.lastTs ≤ 0 := by decide

/-- As the first word of a frame, and exactly in time after the word before. -/
theorem test_witness_WordOnTheWire : ((configured 9 1).mon.lastTs ≤ 0 ∧ (configured 9 1).mon.cfgSet = true ∧
    (configured 9 1).mon.phase ≠ .high ∧ 1 ≤ (configured 9 1).mon.S ∧ (configured 9 1).mon.pending = false) ∧
    (watching .low true 0 20 24).mon.lastTs ≤ 30 ∧ (watching .low true 0 20 24).mon.pending = true ∧
    (watching .low true 0 20 24).mon.phase = .low ∧
    30 = (watching .low true 0 20 24).mon.riseTs + 3 * (watching .low true 0 20 24).mon.S ∧
    (watching .low true 0 20 24).mon.riseTs ≤ (watching .low true 0 20 24).mon.fallTs := by decide

theorem test_witness_GapLatches : (watching .low true 0 10 48).mon.lastTs ≤ 11 ∧ (watching .low true 0 10 48).mon.cfgSet = true ∧
    (watching .low true 0 10 48).mon.phase = .low ∧ (watching .low true 0 10 48).mon.pending = true ∧
    (watching .low true 0 10 48).mon.fallTs < 11 := by decide

/-- Chains of one and of sixteen. -/
theorem test_witness_MonitorDecodesLegalFrame : ∀ s ∈ [configured 0 0, configured 255 15], ChainInv s ∧ s.mon.cfgSet = true ∧
    1 ≤ s.mon.S ∧ 1 ≤ s.mon.N ∧ s.mon.N ≤ 16 ∧ (List.replicate s.mon.N ({ green := 1, red := 2, blue := 3 } : Pixel)).length = s.mon.N ∧
    s.mon.pending = false ∧ s.chain.bitsSinceLoad = 0 ∧ s.mon.phase ≠ .high ∧ s.mon.lastTs ≤ 0 := by decide

/-- The two frames of S7. -/
def framesOfS7 : List (List Pixel) :=
  [[{ red := 0, green := 0, blue := 0 }, { red := 255, green := 255, blue := 255 }, { red := 128, green := 64, blue := 32 }],
   [{ red := 1, green := 2, blue := 3 }, { red := 4, green := 5, blue := 6 }, { red := 7, green := 8, blue := 9 }]]

/-- S7: chain length 3, divider 2. -/
theorem test_witness_FrameRoundTrip : State.FramesReady
    { configured 2 2 with env := { Env.empty with producer := some .stream, stream := queuedFrames framesOfS7 } } framesOfS7 :=
  { noInputs := rfl, noneHeld := rfl, noHold := rfl, attached := rfl, idle := rfl, encoderConfigured := rfl,
    monitorConfigured := rfl, sameSubPeriod := rfl, sameLength := rfl, lengths := by decide, queued := rfl,
    between := by decide, registers := by decide }

end Sys2Proof.Tests
end

section
/-! PROOFS. The timed phases of the encoder and the gap between two frames (40_encoder.md R107, R110, R115, R116, R118). -/

namespace Sys2Proof.Machine

/-! ### The outputs phase by phase -/

/-- R102: the wire is high in `E_HIGH`. -/
theorem wire_of_high {s : State} (hp : s.enc.phase = .high) : s.wire = true := by simp [State.wire, hp]

/-- R102: the wire is low outside `E_HIGH`. -/
theorem wire_of_ne_high {s : State} (hp : s.enc.phase ≠ .high) : s.wire = false := by simp [State.wire, hp]

/-- R101: nothing is accepted in the gap. -/
theorem ready_of_gap {s : State} (hp : s.enc.phase = .gap) : s.ready = false := by
  simp [State.ready, State.pixelEnd, hp]

/-- R101: nothing is accepted in the low part of the last pixel's cells. -/
theorem ready_of_low_last {s : State} (hp : s.enc.phase = .low) (hl : s.enc.last = true) : s.ready = false := by
  simp [State.ready, hp, hl]

/-- R101: in `E_IDLE` an item is accepted once a configuration is set. -/
theorem ready_of_idle {s : State} (hp : s.enc.phase = .idle) : s.ready = s.cfg.isSet := by
  simp [State.ready, State.pixelEnd, hp]

theorem pixelEnd_of {s : State} (hp : s.enc.phase = .low) (ht : s.enc.tmr = 0) (hc : s.enc.cnt = 0) : s.pixelEnd = true := by
  simp [State.pixelEnd, hp, ht, hc]

/-! ### The operations where they are selected -/

theorem exec_encHighTick {s : State} (hp : s.enc.phase = .high) (ht : 0 < s.enc.tmr) :
    exec .encHighTick s = .next { s with enc := { s.enc with tmr := s.enc.tmr - 1 } } :=
  selectedWhen_of _ ⟨hp, ht⟩

theorem exec_encLowTick {s : State} (hp : s.enc.phase = .low) (ht : 0 < s.enc.tmr) :
    exec .encLowTick s = .next { s with enc := { s.enc with tmr := s.enc.tmr - 1 } } :=
  selectedWhen_of _ ⟨hp, ht⟩

theorem exec_encGapStart {s : State} (hp : s.enc.phase = .low) (ht : s.enc.tmr = 0) (hc : s.enc.cnt = 0)
    (hl : s.enc.last = true) :
    exec .encGapStart s = .next { s with enc := { s.enc with phase := .gap, tmr := 120 * s.enc.S - 1 } } :=
  selectedWhen_of _ ⟨pixelEnd_of hp ht hc, hl⟩

theorem exec_encGapTick {s : State} (hp : s.enc.phase = .gap) (ht : 0 < s.enc.tmr) :
    exec .encGapTick s = .next { s with enc := { s.enc with tmr := s.enc.tmr - 1 } } :=
  selectedWhen_of _ ⟨hp, ht⟩

theorem exec_encGapEnd {s : State} (hp : s.enc.phase = .gap) (ht : s.enc.tmr = 0) :
    exec .encGapEnd s = .next { s with enc := { s.enc with phase := .idle } } :=
  selectedWhen_of _ ⟨hp, ht⟩

/-! ### The selection before, in and at the end of the gap -/

theorem encOp_of_last_low_tick {s : State} (hp : s.enc.phase = .low) (ht : s.enc.tmr = 0) (hc : s.enc.cnt = 0)
    (hl : s.enc.last = true) : encOp s = .encGapStart := by
  simp [encOp, hp, ht, hc, hl]

theorem encOp_of_gap {s : State} (hp : s.enc.phase = .gap) (ht : 0 < s.enc.tmr) : encOp s = .encGapTick := by
  simp [encOp, hp, ht]

theorem encOp_of_gap_over {s : State} (hp : s.enc.phase = .gap) (ht : s.enc.tmr = 0) : encOp s = .encGapEnd := by
  simp [encOp, hp, ht]

/-! ### Steps without inputs -/

/-- No input is to come and no report is late: each step is a tick, and it runs. -/
structure Undisturbed (s : State) : Prop where
  noInputs : s.env.pending = []
  inOrder : s.env.par.attached = true → s.mon.lastTs ≤ s.reportTime

theorem monitorPhase_cfg {s t : State} (h : monitorPhase s = .next t) : t.cfg = s.cfg := by
  unfold monitorPhase at h
  split at h
  · exact (processReport_others h).1
  · cases h; rfl

/-- A tick leaves the configuration register alone (R61). -/
theorem tick_cfg {s t : State} (h : tick s = .next t) : t.cfg = s.cfg := by
  obtain ⟨s1, -, -, hmon, -⟩ := tick_next.1 h
  obtain ⟨e, l, s2, -, htransfer, htick⟩ := tick_of_report hmon
  obtain ⟨s2', htransfer', hframe, -⟩ := transferPhase_next s1
  obtain rfl : s2 = s2' := by simpa [htransfer] using htransfer'
  have hcfg : s2.cfg = s1.cfg := by rw [hframe]
  obtain rfl : _ = t := by simpa [h] using htick.symm
  simpa [hcfg] using monitorPhase_cfg hmon

/-- An undisturbed step makes of the encoder's registers what its operation makes of them, keeps `cfg`, and is followed by a step
again undisturbed. -/
theorem step_undisturbed {s : State} (h : Undisturbed s) {e : EncRegs}
    (he : exec (encOp s) s = .next { s with enc := e }) :
    ∃ t, step s = .next t ∧ t.enc = e ∧ t.cfg = s.cfg ∧ Undisturbed t := by
  obtain ⟨t, e', l, he', hstep, henc, -, hpending, -, horder⟩ := step_runs s h.noInputs h.inOrder
  obtain rfl : e = e' := by
    rw [he, Host.Outcome.next.injEq] at he'
    exact congrArg State.enc he'
  exact ⟨t, hstep, henc, tick_cfg (s := s.clearOut) ((step_of_no_input h.noInputs).symm.trans hstep), hpending, horder⟩

/-! ### The gap of any undisturbed machine -/

/-- `k` ticks into the gap only the timer has moved (R116), whether or not a monitor is attached and latches meanwhile. -/
theorem gap_counts_down {s : State} (h : Undisturbed s) (hp : s.enc.phase = .gap) (k : Nat) (hk : k ≤ s.enc.tmr) :
    ∃ t, core.run k s = .next t ∧ t.enc = { s.enc with tmr := s.enc.tmr - k } ∧ t.cfg = s.cfg ∧ Undisturbed t := by
  induction k with
  | zero => exact ⟨s, rfl, rfl, rfl, h⟩
  | succ k ih =>
    obtain ⟨t, hrun, henc, hcfg, ht⟩ := ih (by omega)
    have hphase : t.enc.phase = .gap := by rw [henc]; exact hp
    have htmr : 0 < t.enc.tmr := by rw [henc]; show 0 < s.enc.tmr - k; omega
    have hop : exec (encOp t) t = .next { t with enc := { t.enc with tmr := t.enc.tmr - 1 } } := by
      rw [encOp_of_gap hphase htmr]; exact exec_encGapTick hphase htmr
    obtain ⟨u, hstep, huenc, hucfg, hu⟩ := step_undisturbed ht hop
    refine ⟨u, ?_, ?_, hucfg.trans hcfg, hu⟩
    · rw [core_run_add hrun, core_run_one hstep]
    · rw [huenc, henc, Nat.sub_sub]

/-- R118: the gap ends one tick after its timer has run down, in `E_IDLE`, nothing else of the encoder being written. -/
theorem gap_ends {s : State} (h : Undisturbed s) (hp : s.enc.phase = .gap) :
    ∃ t, core.run (s.enc.tmr + 1) s = .next t ∧ t.enc = { s.enc with tmr := 0, phase := .idle } ∧ t.cfg = s.cfg := by
  obtain ⟨t, hrun, henc, hcfg, ht⟩ := gap_counts_down h hp s.enc.tmr le_rfl
  have hphase : t.enc.phase = .gap := by rw [henc]; exact hp
  have htmr : t.enc.tmr = 0 := by rw [henc]; exact Nat.sub_self _
  have hop : exec (encOp t) t = .next { t with enc := { t.enc with phase := .idle } } := by
    rw [encOp_of_gap_over hphase htmr]; exact exec_encGapEnd hphase htmr
  obtain ⟨u, hstep, huenc, hucfg, -⟩ := step_undisturbed ht hop
  refine ⟨u, ?_, ?_, hucfg.trans hcfg⟩
  · rw [core_run_add hrun, core_run_one hstep]
  · rw [huenc, henc, Nat.sub_self]

/-- R115: the step of the last tick of the last cell of the last pixel begins the gap. -/
theorem step_begins_gap {s : State} (h : Undisturbed s) (hp : s.enc.phase = .low) (ht : s.enc.tmr = 0)
    (hc : s.enc.cnt = 0) (hl : s.enc.last = true) :
    ∃ t, step s = .next t ∧ t.enc = { s.enc with phase := .gap, tmr := 120 * s.enc.S - 1 } ∧ t.cfg = s.cfg ∧
      Undisturbed t :=
  step_undisturbed h (by rw [encOp_of_last_low_tick hp ht hc hl]; exact exec_encGapStart hp ht hc hl)

/-- The gap tick by tick from the tick that begins it, and the state after it (R115, R116, R118). -/
theorem gap_lasts {s : State} (h : Undisturbed s) (hp : s.enc.phase = .low) (ht : s.enc.tmr = 0) (hc : s.enc.cnt = 0)
    (hl : s.enc.last = true) (hS : 1 ≤ s.enc.S) (hexp : s.enc.expPos = 0) :
    (∀ k < 120 * s.enc.S, ∃ t, core.run (1 + k) s = .next t ∧ t.enc.phase = .gap ∧ t.wire = false ∧ t.ready = false) ∧
    ∃ t, core.run (1 + 120 * s.enc.S) s = .next t ∧ t.enc.phase = .idle ∧ t.enc.expPos = 0 ∧ t.ready = s.cfg.isSet := by
  obtain ⟨g, hstep, henc, hcfg, hg⟩ := step_begins_gap h hp ht hc hl
  have hphase : g.enc.phase = .gap := by rw [henc]
  have htmr : g.enc.tmr + 1 = 120 * s.enc.S := by rw [henc]; show 120 * s.enc.S - 1 + 1 = _; omega
  have hrun := core_run_one hstep
  constructor
  · intro k hk
    obtain ⟨t, hrunk, htenc, -⟩ := gap_counts_down hg hphase k (by omega)
    have htphase : t.enc.phase = .gap := by rw [htenc]; exact hphase
    exact ⟨t, (core_run_add hrun).trans hrunk, htphase, wire_of_ne_high (by simp [htphase]), ready_of_gap htphase⟩
  · obtain ⟨t, hrunk, htenc, htcfg⟩ := gap_ends hg hphase
    have htphase : t.enc.phase = .idle := by rw [htenc]
    refine ⟨t, ?_, htphase, ?_, ?_⟩
    · rw [core_run_add hrun, ← htmr, hrunk]
    · rw [htenc, henc]; exact hexp
    · rw [ready_of_idle htphase, htcfg, hcfg]

/-! ### The obligations -/

/-- Settles O29: the gap is counted down by induction over its ticks, from the tick that begins it to the one that ends it. -/
theorem gapBeginsAndEnds : Obligations.GapBeginsAndEnds := by
  intro s ht
  refine ⟨fun hp hc hl => ⟨ready_of_low_last hp hl, exec_encGapStart hp ht hc hl⟩,
    fun hp => ⟨ready_of_gap hp, exec_encGapEnd hp ht⟩, fun hp hc hl hinv hpending horder => ?_⟩
  obtain ⟨⟨hS, -⟩, -, -, -, -, -, -, -, -, -, -, -, hpixel⟩ := hinv
  exact gap_lasts ⟨hpending, horder⟩ hp ht hc hl hS ((hpixel (.inr hp)).1 hl)

/-- Settles O22: each of the three operations where it is selected, with the outputs of its phase. -/
theorem timedPhasesCountDown : Obligations.TimedPhasesCountDown := by
  intro s ht
  exact ⟨fun hp => ⟨wire_of_high hp, exec_encHighTick hp ht⟩,
    fun hp => ⟨wire_of_ne_high (by simp [hp]), exec_encLowTick hp ht⟩,
    fun hp => ⟨wire_of_ne_high (by simp [hp]), ready_of_gap hp, exec_encGapTick hp ht⟩⟩

end Sys2Proof.Machine
end

section
/-! PROOFS. The stimulus encoding: `decode` and `encode` are inverse to each other (30_encoding.md R70 to R78, R83, R150; log 2). -/

namespace Sys2Proof

/-! ### What the readers of operand bytes accept -/

theorem sized_ok {tag n : Nat} {r : List Byte} {next : Except DecodeError Instr} {i : Instr} :
    sized tag n r next = .ok i ↔ r.length = n ∧ next = .ok i := by
  unfold sized; split <;> simp_all

theorem below_ok {bound x : Nat} {next : Except DecodeError Instr} {i : Instr} :
    below bound x next = .ok i ↔ x < bound ∧ next = .ok i := by
  unfold below; split <;> simp_all

theorem withBit_ok {x : Nat} {f : Bool → Except DecodeError Instr} {i : Instr} :
    withBit x f = .ok i ↔ ∃ b : Bool, x = b.toNat ∧ f b = .ok i := by
  match x with
  | 0 => simp [withBit]
  | 1 => simp [withBit]
  | x + 2 => simp [withBit]

/-- A one-byte field of a non-empty list is its byte. -/
theorem ofNat_numAt_head (b : Byte) (r : List Byte) : BitVec.ofNat 8 (numAt 0 1 (b :: r)) = b := by
  rw [numAt_head, BitVec.ofNat_toNat, BitVec.setWidth_eq]

/-- The flag byte is the number of its three bits. -/
theorem flagByte_testBit (b : Byte) (h : b.toNat < 8) :
    flagByte (b.toNat.testBit 0) (b.toNat.testBit 1) (b.toNat.testBit 2) = b := by
  apply BitVec.eq_of_toNat_eq
  rw [flagByte_toNat]
  interval_cases hb : b.toNat <;> rfl

/-- The bytes of the item that is read from five bytes in range are those five bytes (R77). -/
theorem itemBytes_itemOf {r : List Byte} (hl : 5 ≤ r.length) (hpos : numAt 3 1 r < 16) (hflags : numAt 4 1 r < 8) :
    itemBytes (itemOf r) ((numAt 4 1 r).testBit 2) = r.take 5 := by
  match r, hl with
  | red :: green :: blue :: pos :: flags :: rest, _ =>
    simp only [numAt_cons, numAt_head] at hpos hflags
    have hp : BitVec.setWidth 8 (BitVec.setWidth 4 pos) = pos := by
      apply BitVec.eq_of_toNat_eq
      simp only [BitVec.toNat_setWidth]; omega
    simp only [itemBytes, itemOf, numAt_cons, numAt_head, hp, flagByte_testBit flags hflags, List.take_succ_cons,
      List.take_zero, BitVec.ofNat_toNat, BitVec.setWidth_eq]

/-- The 32-bit value that is read from four bytes is written as those four bytes. -/
theorem leBytes_regValue {r : List Byte} (h : 4 ≤ r.length) :
    leBytes 4 (BitVec.ofNat 32 (numAt 0 4 r)).toNat = r.take 4 := by
  have hlt := numAt_lt 0 4 r
  rw [BitVec.toNat_ofNat, Nat.mod_eq_of_lt (by omega), leBytes_numAt 0 4 r (by omega), List.drop_zero]

theorem numAt_regValue (v : RegValue) (r : List Byte) : numAt 0 4 (leBytes 4 v.toNat ++ r) = v.toNat :=
  numAt_leBytes 4 v.toNat r v.isLt

/-! ### The shapes of operands, read and written -/

theorem decodePlain_ok {tag : Nat} {r : List Byte} {i j : Instr} : decodePlain tag r i = .ok j ↔ r = [] ∧ i = j := by
  simp [decodePlain, sized_ok]

theorem decodeItem_itemBytes (tag : Nat) (it : Item) (f : Item → Instr) :
    decodeItem tag (itemBytes it false) f = .ok (f it) := by
  have hpos : numAt 3 1 (itemBytes it false) < 16 := by
    have := it.pos.isLt
    simp only [itemBytes, numAt_cons, numAt_head, BitVec.toNat_ofNat]; omega
  have hflags : numAt 4 1 (itemBytes it false) < 4 := by
    have h1 := Bool.toNat_le it.first
    have h2 := Bool.toNat_le it.last
    simp only [itemBytes, numAt_cons, numAt_head, flagByte_toNat, Bool.toNat_false]; omega
  have hitem := itemOf_itemBytes it false []
  rw [List.append_nil] at hitem
  exact sized_ok.2 ⟨rfl, below_ok.2 ⟨hpos, below_ok.2 ⟨hflags, by rw [hitem]⟩⟩⟩

theorem decodeItem_ok {tag : Nat} {r : List Byte} {f : Item → Instr} {i : Instr} (h : decodeItem tag r f = .ok i) :
    ∃ it, r = itemBytes it false ∧ i = f it := by
  obtain ⟨hlen, h⟩ := sized_ok.1 h
  obtain ⟨hpos, h⟩ := below_ok.1 h
  obtain ⟨hflags, h⟩ := below_ok.1 h
  have hbytes := itemBytes_itemOf (by omega) hpos (by omega)
  have hvalid : (numAt 4 1 r).testBit 2 = false := Nat.testBit_lt_two_pow (by omega)
  rw [hvalid, List.take_of_length_le (by omega)] at hbytes
  exact ⟨itemOf r, hbytes.symm, by simpa using h.symm⟩

theorem decodeReport_reportBytes (tag ts : Nat) (level : Bool) (f : Nat → Bool → Instr) :
    decodeReport tag (reportBytes ts level) f = .ok (f ts level) := by
  have hlevel : numAt 0 1 (reportBytes ts level) = level.toNat := by
    rw [reportBytes, numAt_head]; cases level <;> rfl
  unfold decodeReport
  rw [hlevel, reportBytes, List.drop_one, List.tail_cons, lastNat_natBytes]
  exact withBit_ok.2 ⟨level, rfl, rfl⟩

theorem decodeReport_ok {tag : Nat} {r : List Byte} {f : Nat → Bool → Instr} {i : Instr} (h : decodeReport tag r f = .ok i) :
    ∃ ts level, r = reportBytes ts level ∧ i = f ts level := by
  obtain ⟨ts, hts, h⟩ := lastNat_ok h
  obtain ⟨level, hlevel, h⟩ := withBit_ok.1 h
  refine ⟨ts, level, ?_, (Except.ok.inj h).symm⟩
  cases r with
  | nil => exact absurd hts.symm (natBytes_ne_nil ts)
  | cons b r => rw [reportBytes, ← hlevel, ofNat_numAt_head, ← hts, List.drop_one, List.tail_cons]

/-! ### Register writes -/

/-- A write is read back as the operation its offset selects (R150). -/
theorem decode_writeBytes (p : Params) (offset : Nat) (v : RegValue) :
    decode p (writeBytes offset v) = .ok (selectWrite p offset v) := by
  rw [writeBytes, decode_write, List.drop_left' (leBytes_length 4 _), lastNat_natBytes, numAt_regValue,
    BitVec.ofNat_toNat, BitVec.setWidth_eq]

theorem selectWrite_zero (p : Params) (v : RegValue) : selectWrite p 0 v = .regfWrCfg v := rfl

theorem selectWrite_of_pixRegOffset {p : Params} {k offset : Nat} (hw : p.wf = true) (h : p.pixRegOffset k = some offset)
    (v : RegValue) : selectWrite p offset v = .regfWrPix k v := by
  unfold selectWrite
  rw [if_neg (pixRegOffset_ne_zero hw h), pixRegIndex_of_pixRegOffset hw h]

theorem unmapped_iff {p : Params} {offset : Nat} : unmapped p offset = true ↔ offset ≠ 0 ∧ p.pixRegIndex offset = none := by
  simp [unmapped]

theorem selectWrite_of_unmapped {p : Params} {offset : Nat} (h : unmapped p offset = true) (v : RegValue) :
    selectWrite p offset v = .regfWrNone offset v := by
  obtain ⟨h0, hidx⟩ := unmapped_iff.1 h
  unfold selectWrite
  rw [if_neg h0, hidx]

/-- An offset that is neither 0 nor a pixel register's is unmapped (R53). -/
theorem unmapped_of_ne {p : Params} {offset : Nat} (h0 : offset ≠ 0) (h : ∀ k, p.pixRegOffset k ≠ some offset) :
    unmapped p offset = true := by
  refine unmapped_iff.2 ⟨h0, ?_⟩
  cases hidx : p.pixRegIndex offset with
  | none => rfl
  | some k => exact absurd (pixRegOffset_of_pixRegIndex hidx) (h k)

theorem hasPixReg_iff {p : Params} {k : Nat} : hasPixReg p k = true ↔ ∃ offset, p.pixRegOffset k = some offset := by
  rw [hasPixReg, decide_eq_true_iff]
  simp [Params.pixRegCount, Params.pixRegOffset, List.getElem?_eq_some_iff]

/-- There are at most fifteen pixel registers (R51, D36). -/
theorem pixRegCount_le {p : Params} (hw : p.wf = true) : p.pixRegCount ≤ 15 := by
  simp only [Params.wf, Bool.and_eq_true, decide_eq_true_eq] at hw
  exact hw.1.1.2

/-- A write's selected operation is well formed, and its stimulus is that of the write. -/
theorem selectWrite_encode (p : Params) (offset : Nat) (v : RegValue) (hw : p.wf = true) :
    encode p (selectWrite p offset v) = writeBytes offset v ∧ (selectWrite p offset v).wellFormed p = true := by
  by_cases h0 : offset = 0
  · subst h0; exact ⟨rfl, rfl⟩
  · cases hidx : p.pixRegIndex offset with
    | none =>
      have hu := unmapped_iff.2 ⟨h0, hidx⟩
      rw [selectWrite_of_unmapped hu]
      exact ⟨rfl, hu⟩
    | some k =>
      have hoff := pixRegOffset_of_pixRegIndex hidx
      rw [selectWrite_of_pixRegOffset hw hoff]
      exact ⟨by simp [encode, hoff], hasPixReg_iff.2 ⟨offset, hoff⟩⟩

/-! ### Decoding what was encoded, for the operations with operand bytes of their own -/

theorem decode_wordPixel_bytes (p : Params) (px : Pixel) (t0 : Nat) :
    decode p (encode p (.wordPixel px t0)) = .ok (.wordPixel px t0) := by
  rw [encode, decode_word, List.drop_left' (leBytes_length 3 _), lastNat_natBytes, numAt_leBytes _ _ _ (wordOfPixel_lt px),
    pixelOfWord_wordOfPixel]

theorem decode_frameGap_bytes (p : Params) (t0 extra : Nat) :
    decode p (encode p (.frameGap t0 extra)) = .ok (.frameGap t0 extra) := by
  rw [encode, decode_gap, decodeGap, readNat_natBytes]
  simp only [lastNat_natBytes]

theorem decode_regConfig_bytes (p : Params) (v : RegValue) :
    decode p (encode p (.regConfig v)) = .ok (.regConfig v) := by
  have hv := numAt_regValue v []
  rw [List.append_nil] at hv
  rw [encode, decode_regConfig, hv, BitVec.ofNat_toNat, BitVec.setWidth_eq]
  exact sized_ok.2 ⟨leBytes_length 4 _, rfl⟩

theorem decode_regPixel_bytes (p : Params) (k : Nat) (v : RegValue) (hw : p.wf = true) (hk : hasPixReg p k = true) :
    decode p (encode p (.regPixel k v)) = .ok (.regPixel k v) := by
  have hcount := pixRegCount_le hw
  have hlt : k < p.pixRegCount := by simpa [hasPixReg] using hk
  have hpos : numAt 4 1 (leBytes 4 v.toNat ++ [BitVec.ofNat 8 k]) = k := by
    rw [numAt_skip 4 0, numAt_head, BitVec.toNat_ofNat]; omega
  rw [encode, decode_regPixel, decodePixReg, hpos, if_pos hk, numAt_regValue, BitVec.ofNat_toNat, BitVec.setWidth_eq]
  exact sized_ok.2 ⟨by simp, rfl⟩

theorem decode_itemStream_bytes (p : Params) (valid : Bool) (it : Item) (notBefore : Nat) :
    decode p (encode p (.itemStream valid it notBefore)) = .ok (.itemStream valid it notBefore) := by
  have hpos := it.pos.isLt
  have h1 := Bool.toNat_le it.first
  have h2 := Bool.toNat_le it.last
  have h3 := Bool.toNat_le valid
  have hvalid : (flagByte it.first it.last valid).toNat.testBit 2 = valid := by
    cases it.first <;> cases it.last <;> cases valid <;> decide
  rw [encode, decode_item, List.drop_left' (show (itemBytes it valid).length = 5 from rfl), lastNat_natBytes,
    itemOf_itemBytes]
  simp only [itemBytes, List.cons_append, List.nil_append, numAt_cons, numAt_head, hvalid]
  refine below_ok.2 ⟨?_, below_ok.2 ⟨?_, rfl⟩⟩
  · rw [BitVec.toNat_ofNat]; omega
  · rw [flagByte_toNat]; omega

theorem decode_monConfig_bytes (p : Params) (d : Byte) (l : BitVec 4) :
    decode p (encode p (.monConfig d l)) = .ok (.monConfig d l) := by
  have hl := l.isLt
  rw [encode, decode_monConfig]
  refine sized_ok.2 ⟨rfl, below_ok.2 ⟨?_, ?_⟩⟩
  · rw [numAt_cons, numAt_head, BitVec.toNat_ofNat]; omega
  · rw [ofNat_numAt_head, numAt_cons, numAt_head]
    congr 2
    apply BitVec.eq_of_toNat_eq
    simp only [BitVec.toNat_ofNat]; omega

/-! ### Encoding what was decoded, for the same operations -/

/-- `i` is well formed and `bs` is its stimulus. -/
abbrev EncodesTo (p : Params) (i : Instr) (bs : List Byte) : Prop := encode p i = bs ∧ i.wellFormed p = true

theorem decode_cell_ok {p : Params} {r : List Byte} {i : Instr} (h : decodeCell r = .ok i) : EncodesTo p i (1 :: r) := by
  obtain ⟨t0, ht0, hcell⟩ := lastNat_ok h
  cases r with
  | nil => exact absurd ht0.symm (natBytes_ne_nil t0)
  | cons b r =>
    rw [List.drop_one, List.tail_cons] at ht0
    rw [numAt_head] at hcell
    split at hcell
    · next hb =>
      obtain rfl : b = 0b100 := BitVec.eq_of_toNat_eq hb
      obtain rfl := Except.ok.inj hcell
      exact ⟨by rw [encode, ht0], rfl⟩
    · next hb =>
      obtain rfl : b = 0b110 := BitVec.eq_of_toNat_eq hb
      obtain rfl := Except.ok.inj hcell
      exact ⟨by rw [encode, ht0], rfl⟩
    · cases hcell

theorem decode_wordPixel_ok {p : Params} {r : List Byte} {i : Instr}
    (h : (lastNat 2 (r.drop 3) fun t0 => .ok (.wordPixel (pixelOfWord (numAt 0 3 r)) t0)) = .ok i) :
    EncodesTo p i (2 :: r) := by
  obtain ⟨t0, ht0, h⟩ := lastNat_ok h
  obtain rfl := Except.ok.inj h
  have hlen := length_of_drop ht0
  refine ⟨?_, rfl⟩
  rw [encode, wordOfPixel_pixelOfWord _ (numAt_lt 0 3 r), leBytes_numAt 0 3 r (by omega), ← ht0, List.drop_zero,
    List.take_append_drop]

theorem decode_frameGap_ok {p : Params} {r : List Byte} {i : Instr} (h : decodeGap r = .ok i) : EncodesTo p i (3 :: r) := by
  unfold decodeGap at h
  split at h
  · next t0 rest hr =>
    obtain ⟨extra, hextra, h⟩ := lastNat_ok h
    obtain rfl := Except.ok.inj h
    exact ⟨by rw [encode, natBytes_of_readNat hr, hextra], rfl⟩
  · cases h

theorem decode_regConfig_ok {p : Params} {r : List Byte} {i : Instr}
    (h : sized 4 4 r (.ok (.regConfig (BitVec.ofNat 32 (numAt 0 4 r)))) = .ok i) : EncodesTo p i (4 :: r) := by
  obtain ⟨hlen, h⟩ := sized_ok.1 h
  obtain rfl := Except.ok.inj h
  exact ⟨by rw [encode, leBytes_regValue (by omega), List.take_of_length_le (by omega)], rfl⟩

theorem decode_regPixel_ok {p : Params} {r : List Byte} {i : Instr} (h : sized 5 5 r (decodePixReg p r) = .ok i) :
    EncodesTo p i (5 :: r) := by
  obtain ⟨hlen, h⟩ := sized_ok.1 h
  unfold decodePixReg at h
  split at h
  · next hk =>
    obtain rfl := Except.ok.inj h
    refine ⟨?_, hk⟩
    have hpos : [BitVec.ofNat 8 (numAt 4 1 r)] = r.drop 4 := by
      have h1 := leBytes_numAt 4 1 r (by omega)
      rwa [List.take_of_length_le (by simp; omega)] at h1
    rw [encode, leBytes_regValue (by omega), hpos, List.take_append_drop]
  · cases h

theorem decode_itemStream_ok {p : Params} {r : List Byte} {i : Instr}
    (h : (lastNat 6 (r.drop 5) fun notBefore => below 16 (numAt 3 1 r) (below 8 (numAt 4 1 r)
      (.ok (.itemStream ((numAt 4 1 r).testBit 2) (itemOf r) notBefore)))) = .ok i) : EncodesTo p i (6 :: r) := by
  obtain ⟨notBefore, htime, h⟩ := lastNat_ok h
  obtain ⟨hpos, h⟩ := below_ok.1 h
  obtain ⟨hflags, h⟩ := below_ok.1 h
  obtain rfl := Except.ok.inj h
  have hlen := length_of_drop htime
  exact ⟨by rw [encode, itemBytes_itemOf (by omega) hpos hflags, ← htime, List.take_append_drop], rfl⟩

theorem decode_chainShift_ok {p : Params} {r : List Byte} {i : Instr}
    (h : sized 32 1 r (withBit (numAt 0 1 r) fun b => .ok (.chainShift b)) = .ok i) : EncodesTo p i (32 :: r) := by
  obtain ⟨hlen, h⟩ := sized_ok.1 h
  obtain ⟨b, hb, h⟩ := withBit_ok.1 h
  obtain rfl := Except.ok.inj h
  obtain ⟨x, rfl⟩ := List.length_eq_one_iff.1 hlen
  exact ⟨by rw [encode, ← hb, ofNat_numAt_head], rfl⟩

theorem decode_monConfig_ok {p : Params} {r : List Byte} {i : Instr}
    (h : sized 55 2 r (below 16 (numAt 1 1 r)
      (.ok (.monConfig (BitVec.ofNat 8 (numAt 0 1 r)) (BitVec.ofNat 4 (numAt 1 1 r))))) = .ok i) :
    EncodesTo p i (55 :: r) := by
  obtain ⟨hlen, h⟩ := sized_ok.1 h
  obtain ⟨hlast, h⟩ := below_ok.1 h
  obtain rfl := Except.ok.inj h
  obtain ⟨d, l, rfl⟩ := List.length_eq_two.1 hlen
  refine ⟨?_, rfl⟩
  rw [numAt_cons, numAt_head] at hlast
  rw [encode, ofNat_numAt_head, numAt_cons, numAt_head, BitVec.toNat_ofNat, Nat.mod_eq_of_lt hlast, BitVec.ofNat_toNat,
    BitVec.setWidth_eq]

theorem decode_write_ok {p : Params} {r : List Byte} {i : Instr} (hw : p.wf = true)
    (h : (lastNat 64 (r.drop 4) fun offset => .ok (selectWrite p offset (BitVec.ofNat 32 (numAt 0 4 r)))) = .ok i) :
    EncodesTo p i (64 :: r) := by
  obtain ⟨offset, hoffset, h⟩ := lastNat_ok h
  obtain rfl := Except.ok.inj h
  have hlen := length_of_drop hoffset
  obtain ⟨henc, hwf⟩ := selectWrite_encode p offset (BitVec.ofNat 32 (numAt 0 4 r)) hw
  exact ⟨by rw [henc, writeBytes, leBytes_regValue (by omega), ← hoffset, List.take_append_drop], hwf⟩

theorem decodePlain_encodes {p : Params} {tag : Nat} {b : Byte} {r : List Byte} {i j : Instr} (h : decodePlain tag r i = .ok j)
    (he : EncodesTo p i [b]) : EncodesTo p j (b :: r) := by
  obtain ⟨rfl, rfl⟩ := decodePlain_ok.1 h
  exact he

theorem decodeItem_encodes {p : Params} {tag : Nat} {b : Byte} {r : List Byte} {f : Item → Instr} {j : Instr}
    (h : decodeItem tag r f = .ok j) (he : ∀ it, EncodesTo p (f it) (b :: itemBytes it false)) : EncodesTo p j (b :: r) := by
  obtain ⟨it, rfl, rfl⟩ := decodeItem_ok h
  exact he it

theorem decodeReport_encodes {p : Params} {tag : Nat} {b : Byte} {r : List Byte} {f : Nat → Bool → Instr} {j : Instr}
    (h : decodeReport tag r f = .ok j) (he : ∀ ts level, EncodesTo p (f ts level) (b :: reportBytes ts level)) :
    EncodesTo p j (b :: r) := by
  obtain ⟨ts, level, rfl, rfl⟩ := decodeReport_ok h
  exact he ts level

/-- The tag byte and the operand bytes of an operation that is read are those that are written for it. -/
theorem encodesTo_of_decodeBody {p : Params} (hw : p.wf = true) {tag : Byte} {r : List Byte} {i : Instr}
    (h : decodeBody p tag.toNat r = .ok i) : EncodesTo p i (tag :: r) := by
  have tag_eq : ∀ {n : Nat}, tag.toNat = n → tag = BitVec.ofNat 8 n := by
    rintro _ rfl; rw [BitVec.ofNat_toNat, BitVec.setWidth_eq]
  unfold decodeBody at h
  split at h
  case h_1 ht => rw [tag_eq ht]; exact decode_cell_ok h
  case h_2 ht => rw [tag_eq ht]; exact decode_wordPixel_ok h
  case h_3 ht => rw [tag_eq ht]; exact decode_frameGap_ok h
  case h_4 ht => rw [tag_eq ht]; exact decode_regConfig_ok h
  case h_5 ht => rw [tag_eq ht]; exact decode_regPixel_ok h
  case h_6 ht => rw [tag_eq ht]; exact decode_itemStream_ok h
  case h_7 ht | h_24 ht | h_25 ht | h_26 ht | h_27 ht | h_28 ht | h_29 ht | h_30 ht =>
    rw [tag_eq ht]; exact decodeReport_encodes h fun _ _ => ⟨rfl, rfl⟩
  case h_8 ht | h_11 ht | h_12 ht | h_13 ht | h_14 ht | h_16 ht | h_17 ht | h_18 ht | h_19 ht | h_20 ht | h_21 ht | h_23 ht |
    h_33 ht | h_34 ht =>
    rw [tag_eq ht]; exact decodePlain_encodes h ⟨rfl, rfl⟩
  case h_9 ht | h_10 ht | h_15 ht =>
    rw [tag_eq ht]; exact decodeItem_encodes h fun _ => ⟨rfl, rfl⟩
  case h_22 ht => rw [tag_eq ht]; exact decode_chainShift_ok h
  case h_31 ht => rw [tag_eq ht]; exact decode_monConfig_ok h
  case h_32 ht => rw [tag_eq ht]; exact decode_write_ok hw h
  case h_35 => cases h

/-! ### The obligations on decoding -/

/-- Settles O1: the operations by the shape of their operands; a register write by its offset. -/
theorem decodeOfEncode : Obligations.DecodeOfEncode := by
  intro p i hw hi
  cases i with
  | cellBit0 t0 => exact lastNat_natBytes 1 t0 _
  | cellBit1 t0 => exact lastNat_natBytes 1 t0 _
  | wordPixel px t0 => exact decode_wordPixel_bytes p px t0
  | frameGap t0 extra => exact decode_frameGap_bytes p t0 extra
  | regConfig v => exact decode_regConfig_bytes p v
  | regPixel k v => exact decode_regPixel_bytes p k v hw hi
  | itemStream valid it notBefore => exact decode_itemStream_bytes p valid it notBefore
  | report ts level => exact decodeReport_reportBytes 7 ts level _
  | encAcceptFirst it => exact decodeItem_itemBytes 17 it _
  | encReject it => exact decodeItem_itemBytes 18 it _
  | encAcceptNext it => exact decodeItem_itemBytes 23 it _
  | chainShift b => cases b <;> rfl
  | decIgnore ts level => exact decodeReport_reportBytes 48 ts level _
  | decTimeout ts level => exact decodeReport_reportBytes 49 ts level _
  | decRise ts level => exact decodeReport_reportBytes 50 ts level _
  | decFall0 ts level => exact decodeReport_reportBytes 51 ts level _
  | decFall1 ts level => exact decodeReport_reportBytes 52 ts level _
  | decFallX ts level => exact decodeReport_reportBytes 53 ts level _
  | decHold ts level => exact decodeReport_reportBytes 54 ts level _
  | monConfig d l => exact decode_monConfig_bytes p d l
  | regfWrCfg v => exact decode_writeBytes p 0 v
  | regfWrPix k v =>
    obtain ⟨offset, hoff⟩ := hasPixReg_iff.1 hi
    rw [encode, hoff, Option.getD_some, decode_writeBytes, selectWrite_of_pixRegOffset hw hoff]
  | regfWrNone offset v => rw [encode, decode_writeBytes, selectWrite_of_unmapped hi]
  | encIdleHold => rfl
  | encHighTick => rfl
  | encHighEnd => rfl
  | encLowTick => rfl
  | encNextBit => rfl
  | encUnderrun => rfl
  | encWaitHold => rfl
  | encGapStart => rfl
  | encGapTick => rfl
  | encGapEnd => rfl
  | encFaultHold => rfl
  | chainLoad => rfl
  | regfXfer => rfl
  | sysReset => rfl

/-- Settles O2: by the tag byte, from which the shape of the operands follows. -/
theorem encodeOfDecode : Obligations.EncodeOfDecode := by
  intro p bs i hw h
  cases bs with
  | nil => cases h
  | cons tag r => exact encodesTo_of_decodeBody hw h

/-- Settles O4: a write decodes to the operation that `selectWrite` names, which its offset settles. -/
theorem offsetSelectsTheWrite : Obligations.OffsetSelectsTheWrite := by
  intro p offset v hw
  rw [decode_writeBytes]
  exact ⟨fun h0 => by rw [h0, selectWrite_zero], fun k hk => by rw [selectWrite_of_pixRegOffset hw hk],
    fun h0 hno => by rw [selectWrite_of_unmapped (unmapped_of_ne h0 hno)]⟩

/-- Settles O3: the decoder run on the words written out from R71, R72, R75 and R76. -/
theorem wordsFromTheSpec : Obligations.WordsFromTheSpec := by
  unfold Obligations.WordsFromTheSpec
  decide

end Sys2Proof
end

section
/-! PROOFS. What each operation of the encoder does, said once as a relation: its condition, the registers after it, its log entries
(40_encoder.md R103 to R118). -/

namespace Sys2Proof.Machine

/-- The registers after ENC.REJECT: the configuration is taken from `E_IDLE`, and `E_FAULT` is entered (R112). -/
def rejectedEnc (s : State) : EncRegs :=
  { (if s.enc.phase = .idle then takeConfig s else s).enc with seqErr := true, phase := .fault }

/-- The diagnostic of ENC.REJECT (R166). -/
def rejection (it : Item) (s : State) : ViolEntry :=
  { ts := some s.tick, diag := .protocolSequence s.itemExp it.pos.toNat it.first it.last }

/-- Operation `i` of ENC is selected at `s`, makes the encoder's registers `e` and adds the entries `l` to `violLog`. -/
inductive EncMove (s : State) : Instr → EncRegs → List ViolEntry → Prop where
  | idleHold (hp : s.enc.phase = .idle) (h : ¬ (s.cfg.isSet = true ∧ s.presented.isSome = true)) : EncMove s .encIdleHold s.enc []
  | acceptFirst (it : Item) (hp : s.enc.phase = .idle) (hset : s.cfg.isSet = true)
      (hok : itemOk it (chainLength s.cfg.lastLed) 0 = true) :
      EncMove s (.encAcceptFirst it) (beginPixel it (subPeriod s.cfg.divider) (takeConfig s)).enc []
  | reject (it : Item) (hr : s.ready = true) (hbad : ¬ itemOk it s.itemN s.itemExp = true) :
      EncMove s (.encReject it) (rejectedEnc s) [rejection it s]
  | highTick (hp : s.enc.phase = .high) (ht : 0 < s.enc.tmr) : EncMove s .encHighTick { s.enc with tmr := s.enc.tmr - 1 } []
  | highEnd (hp : s.enc.phase = .high) (ht : s.enc.tmr = 0) :
      EncMove s .encHighEnd { s.enc with phase := .low, tmr := lowTime (topBit s.enc.word) s.enc.S - 1 } []
  | lowTick (hp : s.enc.phase = .low) (ht : 0 < s.enc.tmr) : EncMove s .encLowTick { s.enc with tmr := s.enc.tmr - 1 } []
  | nextBit (hp : s.enc.phase = .low) (ht : s.enc.tmr = 0) (hc : 0 < s.enc.cnt) :
      EncMove s .encNextBit { s.enc with
        word := s.enc.word <<< 1, cnt := s.enc.cnt - 1, phase := .high
        tmr := highTime (topBit (s.enc.word <<< 1)) s.enc.S - 1 } []
  | acceptNext (it : Item) (hat : (s.pixelEnd = true ∧ s.enc.last = false) ∨ s.enc.phase = .wait)
      (hok : itemOk it s.enc.N s.enc.expPos = true) : EncMove s (.encAcceptNext it) (beginPixel it s.enc.S s).enc []
  | underrun (hend : s.pixelEnd = true) (hl : s.enc.last = false) (hn : s.presented = none) :
      EncMove s .encUnderrun { s.enc with phase := .wait } []
  | waitHold (hp : s.enc.phase = .wait) (hn : s.presented = none) : EncMove s .encWaitHold s.enc []
  | gapStart (hend : s.pixelEnd = true) (hl : s.enc.last = true) :
      EncMove s .encGapStart { s.enc with phase := .gap, tmr := Config.encGapSp * s.enc.S - 1 } []
  | gapTick (hp : s.enc.phase = .gap) (ht : 0 < s.enc.tmr) : EncMove s .encGapTick { s.enc with tmr := s.enc.tmr - 1 } []
  | gapEnd (hp : s.enc.phase = .gap) (ht : s.enc.tmr = 0) : EncMove s .encGapEnd { s.enc with phase := .idle } []
  | faultHold (hp : s.enc.phase = .fault) : EncMove s .encFaultHold s.enc []

/-- A state after an operation of the encoder: only its registers and `violLog` differ. -/
def State.withEnc (s : State) (e : EncRegs) (l : List ViolEntry) : State :=
  { s with enc := e, log := { s.log with viols := s.log.viols ++ l } }

theorem withEnc_nil (s : State) (e : EncRegs) : s.withEnc e [] = { s with enc := e } := by simp [State.withEnc]

/-- ENC.REJECT in the terms of `EncMove`. -/
theorem execEncReject_eq (it : Item) (s : State) :
    execEncReject it s = selectedWhen "ENC.REJECT" (s.ready ∧ ¬ itemOk it s.itemN s.itemExp)
      (s.withEnc (rejectedEnc s) [rejection it s]) := by
  by_cases h : s.enc.phase = .idle <;>
    simp [execEncReject, h, State.withEnc, rejectedEnc, rejection, takeConfig, raise, setSticky, Diag.violMask]

/-- An operation of the encoder that answers a next state makes its move. -/
theorem encMove_of_exec {i : Instr} {s t : State} (hi : i.isEnc = true) (h : exec i s = .next t) :
    ∃ e l, EncMove s i e l ∧ t = s.withEnc e l := by
  cases i <;> simp only [Instr.isEnc, Bool.false_eq_true] at hi <;> clear hi
  case encReject it =>
    simp only [exec, execEncReject_eq, selectedWhen_next] at h
    obtain ⟨⟨hr, hbad⟩, rfl⟩ := h
    exact ⟨_, _, .reject it hr hbad, rfl⟩
  all_goals
    obtain ⟨hc, rfl⟩ := selectedWhen_next.1 h
    refine ⟨_, [], ?_, (withEnc_nil s _).symm⟩
  case encIdleHold => exact .idleHold hc.1 hc.2
  case encAcceptFirst it => exact .acceptFirst it hc.1 hc.2.1 hc.2.2
  case encHighTick => exact .highTick hc.1 hc.2
  case encHighEnd => exact .highEnd hc.1 hc.2
  case encLowTick => exact .lowTick hc.1 hc.2
  case encNextBit => exact .nextBit hc.1 hc.2.1 hc.2.2
  case encAcceptNext it => exact .acceptNext it hc.1 hc.2
  case encUnderrun => exact .underrun hc.1 hc.2.1 hc.2.2
  case encWaitHold => exact .waitHold hc.1 hc.2
  case encGapStart => exact .gapStart hc.1 hc.2
  case encGapTick => exact .gapTick hc.1 hc.2
  case encGapEnd => exact .gapEnd hc.1 hc.2
  case encFaultHold => exact .faultHold hc

/-- Where its move is selected, an operation of the encoder answers the state after it. -/
theorem exec_of_encMove {i : Instr} {s : State} {e : EncRegs} {l : List ViolEntry} (h : EncMove s i e l) :
    exec i s = .next (s.withEnc e l) := by
  cases h with
  | reject it hr hbad => rw [exec, execEncReject_eq]; exact selectedWhen_of _ ⟨hr, hbad⟩
  | idleHold hp h => rw [withEnc_nil]; exact selectedWhen_of _ ⟨hp, h⟩
  | acceptFirst it hp hset hok => rw [withEnc_nil]; exact selectedWhen_of _ ⟨hp, hset, hok⟩
  | highTick hp ht => rw [withEnc_nil]; exact selectedWhen_of _ ⟨hp, ht⟩
  | highEnd hp ht => rw [withEnc_nil]; exact selectedWhen_of _ ⟨hp, ht⟩
  | lowTick hp ht => rw [withEnc_nil]; exact selectedWhen_of _ ⟨hp, ht⟩
  | nextBit hp ht hc => rw [withEnc_nil]; exact selectedWhen_of _ ⟨hp, ht, hc⟩
  | acceptNext it hat hok => rw [withEnc_nil]; exact selectedWhen_of _ ⟨hat, hok⟩
  | underrun hend hl hn => rw [withEnc_nil]; exact selectedWhen_of _ ⟨hend, hl, hn⟩
  | waitHold hp hn => rw [withEnc_nil]; exact selectedWhen_of _ ⟨hp, hn⟩
  | gapStart hend hl => rw [withEnc_nil]; exact selectedWhen_of _ ⟨hend, hl⟩
  | gapTick hp ht => rw [withEnc_nil]; exact selectedWhen_of _ ⟨hp, ht⟩
  | gapEnd hp ht => rw [withEnc_nil]; exact selectedWhen_of _ ⟨hp, ht⟩
  | faultHold hp => rw [withEnc_nil]; exact selectedWhen_of _ hp

/-- The operation that R100 selects makes its move at every state. -/
theorem encMove_encOp (s : State) : ∃ e l, EncMove s (encOp s) e l := by
  obtain ⟨e, l, h, -⟩ := encOp_at (s := s) (u := s) rfl rfl rfl fun _ => rfl
  obtain ⟨e', l', hm, -⟩ := encMove_of_exec (encOp_isEnc s) h
  exact ⟨e', l', hm⟩

/-! ### Where the machine stands when `ready` is 1 -/

theorem pixelEnd_iff {s : State} : s.pixelEnd = true ↔ s.enc.phase = .low ∧ s.enc.tmr = 0 ∧ s.enc.cnt = 0 := by
  simp [State.pixelEnd]

/-- R101: the three cases of `ready`. -/
theorem ready_iff {s : State} : s.ready = true ↔ (s.enc.phase = .idle ∧ s.cfg.isSet = true) ∨
    (s.enc.phase = .low ∧ s.enc.tmr = 0 ∧ s.enc.cnt = 0 ∧ s.enc.last = false) ∨ s.enc.phase = .wait := by
  simp [State.ready, pixelEnd_iff, or_assoc, and_assoc]

theorem wire_iff {s : State} : s.wire = true ↔ s.enc.phase = .high := by simp [State.wire]

theorem ready_of_fault {s : State} (hp : s.enc.phase = .fault) : s.ready = false := by
  simp [State.ready, State.pixelEnd, hp]

theorem ready_of_high {s : State} (hp : s.enc.phase = .high) : s.ready = false := by
  simp [State.ready, State.pixelEnd, hp]

theorem ready_of_low_tick {s : State} (hp : s.enc.phase = .low) (h : 0 < s.enc.tmr ∨ 0 < s.enc.cnt) : s.ready = false := by
  simp [State.ready, State.pixelEnd, hp]; omega

theorem itemOk_iff {it : Item} {N exp : Nat} : itemOk it N exp = true ↔
    it.pos.toNat = exp ∧ it.first = decide (it.pos.toNat = 0) ∧ it.last = decide (it.pos.toNat = N - 1) := by
  simp [itemOk, and_assoc]

/-! ### The obligations on the encoder's selection -/

/-- Where an operation of ENC is selected, with the item on the stream inputs if it carries one, R100 selects it. -/
theorem encOp_of_encMove {s : State} {i : Instr} {e : EncRegs} {l : List ViolEntry} (h : EncMove s i e l)
    (hop : encOperand i = none ∨ encOperand i = s.presented) : encOp s = i := by
  cases h with
  | idleHold hp h =>
    simp only [encOp, hp]
    cases hpres : s.presented with
    | none => rfl
    | some it => simp_all
  | acceptFirst it hp hset hok =>
    have hpres : s.presented = some it := by simpa [encOperand, eq_comm] using hop
    simp [encOp, hp, hpres, hset, hok]
  | reject it hr hbad =>
    have hpres : s.presented = some it := by simpa [encOperand, eq_comm] using hop
    rcases ready_iff.1 hr with ⟨hp, hset⟩ | ⟨hp, ht, hc, hl⟩ | hp <;> simp only [State.itemN, State.itemExp, hp] at hbad
    · simp_all [encOp]
    · simp_all [encOp]
    · simp_all [encOp]
  | highTick hp ht => simp [encOp, hp, ht]
  | highEnd hp ht => simp [encOp, hp, ht]
  | lowTick hp ht => simp [encOp, hp, ht]
  | nextBit hp ht hc => simp [encOp, hp, ht, hc]
  | acceptNext it hat hok =>
    have hpres : s.presented = some it := by simpa [encOperand, eq_comm] using hop
    rcases hat with ⟨hend, hl⟩ | hp
    · obtain ⟨hp, ht, hc⟩ := pixelEnd_iff.1 hend
      simp [encOp, hp, ht, hc, hl, hpres, hok]
    · simp [encOp, hp, hpres, hok]
  | underrun hend hl hn =>
    obtain ⟨hp, ht, hc⟩ := pixelEnd_iff.1 hend
    simp [encOp, hp, ht, hc, hl, hn]
  | waitHold hp hn => simp [encOp, hp, hn]
  | gapStart hend hl =>
    obtain ⟨hp, ht, hc⟩ := pixelEnd_iff.1 hend
    exact encOp_of_last_low_tick hp ht hc hl
  | gapTick hp ht => exact encOp_of_gap hp ht
  | gapEnd hp ht => exact encOp_of_gap_over hp ht
  | faultHold hp => simp [encOp, hp]

/-- Settles O18: a move that is selected is the one R100 names, and the one it names is selected. -/
theorem exactlyOneEncoderOperation : Obligations.ExactlyOneEncoderOperation := by
  intro s i hi hop
  constructor
  · rintro ⟨t, ht⟩
    obtain ⟨e, l, hm, -⟩ := encMove_of_exec hi ht
    exact (encOp_of_encMove hm hop).symm
  · rintro rfl
    obtain ⟨e, l, hm⟩ := encMove_encOp s
    exact ⟨_, exec_of_encMove hm⟩

/-- Settles O19: a move writes the encoder's registers and `violLog` alone, and of the moves only ENC.REJECT's sets `enc_seqErr`. -/
theorem encoderOperationsFrame : Obligations.EncoderOperationsFrame := by
  intro i s t hi h
  obtain ⟨e, l, hm, rfl⟩ := encMove_of_exec hi h
  refine ⟨rfl, rfl, rfl, rfl, rfl, rfl, rfl, rfl, fun hne => ?_, ?_⟩
  · have hplain : l = [] ∧ e.seqErr = s.enc.seqErr := by
      cases hm
      case reject it _ _ => exact absurd rfl (hne it)
      all_goals exact ⟨rfl, rfl⟩
    obtain ⟨rfl, he⟩ := hplain
    exact ⟨by simp [State.withEnc], he⟩
  · rintro it rfl
    cases hm with
    | reject it hr hbad => exact ⟨rejection it s, rfl, rfl⟩

/-- Settles O20: `ready` and `wire` by their cases, which read the encoder's registers and `cfg_set` alone. -/
theorem readyAndWire : Obligations.ReadyAndWire := fun _ => ⟨ready_iff, fun _ _ => rfl, wire_iff⟩

/-- Settles O21: at a transfer only an accepting or the rejecting move is the selected one. -/
theorem transferEndsReady : Obligations.TransferEndsReady := by
  intro s t htr h
  obtain ⟨e, l, hm, rfl⟩ := encMove_of_exec (encOp_isEnc s) h
  obtain ⟨hr, it, hpres⟩ : s.ready = true ∧ ∃ it, s.presented = some it := by
    simpa [State.transfers, Option.isSome_iff_exists] using htr
  have hphase : e.phase = .high ∨ e.phase = .fault := by
    generalize encOp s = i at hm
    have hcases := ready_iff.1 hr
    cases hm
    case acceptFirst => exact .inl rfl
    case acceptNext => exact .inl rfl
    case reject => exact .inr rfl
    all_goals simp_all [pixelEnd_iff]
  exact ⟨hphase, hphase.elim (fun h => ready_of_high h) fun h => ready_of_fault h⟩

end Sys2Proof.Machine
end

section
/-! PROOFS. The invariants of R43 (10_state.md section 9): each is kept by every elementary update, so by every step. -/

namespace Sys2Proof.Machine

/-! ### What the elementary updates leave alone -/

/-- A report is the work of DEC and CHAIN alone (R61). -/
theorem SubStep.others {s t : State} (h : SubStep s t) :
    t.cfg = s.cfg ∧ t.enc = s.enc ∧ t.hold = s.hold ∧ t.tick = s.tick ∧ t.env = s.env := by
  cases h <;> simp

theorem SubSteps.others {s t : State} (h : SubSteps s t) :
    t.cfg = s.cfg ∧ t.enc = s.enc ∧ t.hold = s.hold ∧ t.tick = s.tick ∧ t.env = s.env :=
  SubSteps.keeps (P := fun u => u.cfg = s.cfg ∧ u.enc = s.enc ∧ u.hold = s.hold ∧ u.tick = s.tick ∧ u.env = s.env) h (by simp)
    fun u v huv hu => by
      obtain ⟨c, e, d, t, n⟩ := huv.others
      exact ⟨c.trans hu.1, e.trans hu.2.1, d.trans hu.2.2.1, t.trans hu.2.2.2.1, n.trans hu.2.2.2.2⟩

/-- An update is part of a report, or an operation of ENC, or an input taken from the list, or one of CHAIN's and DEC's, or else
leaves the encoder, the chain, the monitor and the histories as they are. -/
theorem Micro.kinds {s t : State} (h : Micro s t) :
    SubStep s t ∨ (∃ i e l, EncMove s i e l ∧ t = s.withEnc e l) ∨ (∃ b, t = (shiftChain b s).2) ∨ t = latch none s ∨
    (∃ d l, quiescent s = true ∧ t = { s with mon := { s.mon with S := subPeriod d, N := chainLength l, cfgSet := true } }) ∨
    t = { s with mon := { s.mon with cfgReject := true } } ∨
    (t.enc = s.enc ∧ t.chain = s.chain ∧ t.mon = s.mon ∧ t.log = s.log) := by
  cases h with
  | report h => exact .inl h
  | encoder i hi h =>
    obtain ⟨e, l, hm, rfl⟩ := encMove_of_exec hi h
    exact .inr (.inl ⟨i, e, l, hm, rfl⟩)
  | shift b => exact .inr (.inr (.inl ⟨b, rfl⟩))
  | load => exact .inr (.inr (.inr (.inl rfl)))
  | monitorTaken d l hq => exact .inr (.inr (.inr (.inr (.inl ⟨d, l, hq, rfl⟩))))
  | monitorRejected => exact .inr (.inr (.inr (.inr (.inr (.inl rfl)))))
  | pixelWrite k v hp =>
    rcases deliverWrite_cases k v { s with env := { s.env with producer := some .facade } } with ⟨-, -, h⟩ | ⟨-, h⟩ <;>
      simp [h]
  | timePasses => simp
  | _ => simp

/-! ### The encoder's clauses -/

/-- A pixel begun in its turn meets the encoder's clauses: its position is below the length, and the last one ends the frame. -/
theorem encInv_beginPixel {s : State} {it : Item} {exp : Nat} (hS : 1 ≤ s.enc.S ∧ s.enc.S ≤ 256)
    (hN : 1 ≤ s.enc.N ∧ s.enc.N ≤ 16) (herr : s.enc.seqErr = false) (hok : itemOk it s.enc.N exp = true)
    (hexp : exp ≤ s.enc.N - 1) : EncInv (beginPixel it s.enc.S s) := by
  obtain ⟨hpos, -, hlast⟩ := itemOk_iff.1 hok
  have htmr := highTime_bounds (topBit (pixelWord (itemPixel it))) s.enc.S
  by_cases h : it.pos.toNat = s.enc.N - 1
  · have hl : it.last = true := by simpa [h] using hlast
    simp [EncInv, beginPixel, hl, herr, hS, hN]; omega
  · have hl : it.last = false := by simpa [h] using hlast
    simp [EncInv, beginPixel, hl, herr, hS, hN]; omega

/-- A timer that counts down stays in its range. -/
theorem encInv_countDown {s : State} (h : EncInv s) : EncInv { s with enc := { s.enc with tmr := s.enc.tmr - 1 } } := by
  obtain ⟨hS, hN, hcnt, htmr, hexp, hidle, hcell, hgap, hrest⟩ := h
  exact ⟨hS, hN, hcnt, by dsimp only; omega, hexp, hidle, fun hp => by have := hcell hp; dsimp only; omega,
    fun hp => by have := hgap hp; dsimp only; omega, hrest⟩

/-- In `E_FAULT`, with `enc_seqErr` set, the other clauses are those of the counters. -/
theorem encInv_rejected {s : State} (h : EncInv s) : EncInv { s with enc := rejectedEnc s } := by
  obtain ⟨hS, hN, hcnt, htmr, hexp, hidle, -, -, -, -, hpos, -⟩ := h
  have hsub := subPeriod_bounds s.cfg.divider
  have hlen := chainLength_bounds s.cfg.lastLed
  by_cases hp : s.enc.phase = .idle
  · simp_all [EncInv, rejectedEnc, takeConfig]
  · simp_all [EncInv, rejectedEnc]

/-- R43: every operation of ENC keeps the encoder's clauses. -/
theorem encInv_of_encMove {s : State} {i : Instr} {e : EncRegs} {l : List ViolEntry} (h : EncMove s i e l) (hs : EncInv s) :
    EncInv { s with enc := e } := by
  have hinv := hs
  obtain ⟨hS, hN, hcnt, htmr, hexp, hidle, hcell, hgap, hgap', hwait, hpos, herr, hpixel⟩ := hs
  have hno : s.enc.phase ≠ .fault → s.enc.seqErr = false := fun hp => by simpa using mt herr.1 hp
  cases h with
  | idleHold | waitHold | faultHold => exact hinv
  | highTick | lowTick | gapTick => exact encInv_countDown hinv
  | reject => exact encInv_rejected hinv
  | acceptFirst it hp hset hok =>
    exact encInv_beginPixel (s := takeConfig s) (subPeriod_bounds _) (chainLength_bounds _) (hno (by simp [hp])) hok (Nat.zero_le _)
  | acceptNext it hat hok =>
    have hp : s.enc.phase = .low ∨ s.enc.phase = .wait := hat.imp_left fun h => (pixelEnd_iff.1 h.1).1
    have hactive : s.enc.phase ≠ .idle ∧ s.enc.phase ≠ .fault := by rcases hp with hp | hp <;> simp [hp]
    exact encInv_beginPixel hS hN (hno hactive.2) hok (hpos hactive.1)
  | highEnd hp ht =>
    have hb := lowTime_bounds (topBit s.enc.word) s.enc.S
    simp_all [EncInv]; omega
  | nextBit hp ht hc =>
    have hb := highTime_bounds (topBit (s.enc.word <<< 1)) s.enc.S
    simp_all [EncInv]; omega
  | underrun hend hl hn =>
    obtain ⟨hp, -⟩ := pixelEnd_iff.1 hend
    simp_all [EncInv]
  | gapStart hend hl =>
    obtain ⟨hp, -⟩ := pixelEnd_iff.1 hend
    simp_all [EncInv]; omega
  | gapEnd hp ht => simp_all [EncInv]

/-! ### The monitor's clauses -/

/-- A pulse that is no bit raises its diagnostic, and shifts a bit in or not (R140, R141). -/
theorem takeBadPulse_cases (ts : Nat) (s : State) :
    takeBadPulse ts s = raise (some ts) (.unclassifiable (highFor ts s)) s ∨
    ∃ b, takeBadPulse ts s = takeBit b (raise (some ts) (.unclassifiable (highFor ts s)) s) := by
  unfold takeBadPulse
  cases s.env.par.policy
  · exact .inl rfl
  · exact .inr ⟨_, rfl⟩

/-- R43: every update of a report keeps the monitor's clauses. -/
theorem monInv_of_subStep {s t : State} (h : SubStep s t) (hs : MonInv s) : MonInv t := by
  obtain ⟨hS, hN, hpending, hhigh, hlow⟩ := hs
  cases h with
  | clear => exact ⟨hS, hN, hpending, hhigh, hlow⟩
  | accept ts hts =>
    exact ⟨hS, hN, hpending, fun hp => (hhigh hp).trans hts, fun hp => ⟨(hlow hp).1, (hlow hp).2.trans hts⟩⟩
  | latch hdue => simp_all [MonInv, latchFrame_mon]
  | rise hp => simp_all [MonInv, takeRise_mon]
  | fall b hp => simp_all [MonInv]
  | badFall hp =>
    rcases takeBadPulse_cases s.mon.lastTs s with h | ⟨b, h⟩ <;> simp_all [MonInv]

/-- R43: every elementary update keeps the monitor's clauses. -/
theorem monInv_of_micro {s t : State} (h : Micro s t) (hs : MonInv s) : MonInv t := by
  rcases h.kinds with h | ⟨i, e, l, -, rfl⟩ | ⟨b, rfl⟩ | rfl | ⟨d, l, hq, rfl⟩ | rfl | ⟨-, hchain, hmon, -⟩
  · exact monInv_of_subStep h hs
  · exact hs
  · obtain ⟨hS, hN, hpending, hrest⟩ := hs
    exact ⟨hS, hN, fun hp => ⟨Nat.le_add_left _ _, (hpending hp).2⟩, hrest⟩
  · obtain ⟨hS, hN, -, hrest⟩ := hs
    simp only [MonInv, latch_mon]
    exact ⟨hS, hN, by simp, hrest⟩
  · obtain ⟨-, -, hrest⟩ := hs
    exact ⟨subPeriod_bounds d, chainLength_bounds l, hrest⟩
  · exact hs
  · simpa only [MonInv, hchain, hmon] using hs

/-! ### The registers of the chain -/

theorem chainInv_of_subStep {s t : State} (h : SubStep s t) (hs : ChainInv s) : ChainInv t := by
  cases h with
  | clear | accept => exact hs
  | latch hdue => simp [ChainInv, hs]
  | rise hp => simpa [ChainInv] using hs
  | fall b hp => simpa [ChainInv] using hs
  | badFall hp => rcases takeBadPulse_cases s.mon.lastTs s with h | ⟨b, h⟩ <;> simp [ChainInv, h, hs]

/-- R31, R32: every elementary update keeps the number of registers. -/
theorem chainInv_of_micro {s t : State} (h : Micro s t) (hs : ChainInv s) : ChainInv t := by
  rcases h.kinds with h | ⟨i, e, l, -, rfl⟩ | ⟨b, rfl⟩ | rfl | ⟨d, l, hq, rfl⟩ | rfl | ⟨-, hchain, -⟩
  · exact chainInv_of_subStep h hs
  · exact hs
  · simpa [ChainInv] using hs
  · simp [ChainInv, hs]
  · exact hs
  · exact hs
  · simpa only [ChainInv, hchain] using hs

/-! ### One producer -/

/-- A delivered pixel write touches the holding register and the list of those that wait. -/
theorem deliverWrite_others (k : Nat) (v : RegValue) (s : State) : deliverWrite k v s =
    { s with hold := (deliverWrite k v s).hold, env := { s.env with held := (deliverWrite k v s).env.held } } := by
  rcases deliverWrite_cases k v s with ⟨-, -, h⟩ | ⟨-, h⟩ <;> rw [h]
  rfl

@[simp] theorem deliverWrite_producer (k : Nat) (v : RegValue) (s : State) :
    (deliverWrite k v s).env.producer = s.env.producer := by rw [deliverWrite_others]
@[simp] theorem deliverWrite_stream (k : Nat) (v : RegValue) (s : State) :
    (deliverWrite k v s).env.stream = s.env.stream := by rw [deliverWrite_others]

/-- R155: every elementary update keeps the run to one producer. -/
theorem producerInv_of_micro {s t : State} (h : Micro s t) (hs : ProducerInv s) : ProducerInv t := by
  obtain ⟨hhold, hheld, hstream⟩ := hs
  cases h with
  | report h =>
    obtain ⟨-, -, hh, -, he⟩ := h.others
    simp only [ProducerInv, hh, he]
    exact ⟨hhold, hheld, hstream⟩
  | encoder i hi h =>
    obtain ⟨e, l, -, rfl⟩ := encMove_of_exec hi h
    exact ⟨hhold, hheld, hstream⟩
  | pixelWrite k v hp =>
    have hnone : s.env.stream = [] := by_contra fun h => hp (hstream h)
    simp [ProducerInv, hnone]
  | free => exact ⟨by simp [freeHold], hheld, hstream⟩
  | pop =>
    refine ⟨hhold, hheld, fun h => hstream fun h0 => h ?_⟩
    simp [popStream, h0]
  | queue q hp => exact ⟨fun h => absurd (hhold h) hp, fun h => absurd (hheld h) hp, fun _ => rfl⟩
  | withdraw => exact ⟨hhold, hheld, by simp⟩
  | timePasses =>
    rcases releaseHeld_cases s with ⟨-, h⟩ | ⟨w, ws, -, hw, h⟩
    · simpa [ProducerInv, endTick, h] using ⟨hhold, hheld, hstream⟩
    · have hp : s.env.producer = some .facade := hheld (by simp [hw])
      have hnone : s.env.stream = [] := by simpa [hp] using hstream
      simp [ProducerInv, endTick, h, hp, hnone]
  | input | shift | monitorTaken | monitorRejected | configWrite => exact ⟨hhold, hheld, hstream⟩
  | load => simpa [ProducerInv] using ⟨hhold, hheld, hstream⟩

/-! ### Every clause, over every step -/

theorem encInv_of_micro {s t : State} (h : Micro s t) (hs : EncInv s) : EncInv t := by
  rcases h.kinds with h | ⟨i, e, l, hm, rfl⟩ | ⟨b, rfl⟩ | rfl | ⟨d, l, hq, rfl⟩ | rfl | ⟨henc, -⟩
  · simpa only [EncInv, h.others.2.1] using hs
  · exact encInv_of_encMove hm hs
  · exact hs
  · simpa only [EncInv, latch_enc] using hs
  · exact hs
  · exact hs
  · simpa only [EncInv, henc] using hs

theorem inv_of_micros {s t : State} (h : Micros s t) (hs : s.Inv) : t.Inv :=
  h.keeps hs fun _ _ hm ⟨he, hmon, hc, hp⟩ =>
    ⟨encInv_of_micro hm he, monInv_of_micro hm hmon, chainInv_of_micro hm hc, producerInv_of_micro hm hp⟩

/-- The encoder and the facade's holding register at their reset values (R44) meet their clauses. -/
theorem encInv_of_reset {s : State} (h : s.enc = State.reset.enc) : EncInv s := by
  simp [EncInv, h, State.reset]

/-- A reset, of all agents or of all but the monitor, keeps the invariants (R185, R186). -/
theorem inv_of_resetAll {s : State} (hs : s.Inv) : (resetAll s).Inv := by
  obtain ⟨-, -, -, -, hheld, hstream⟩ := hs
  exact ⟨encInv_of_reset rfl, by simp [MonInv, resetAll, State.reset], by simp [ChainInv, resetAll, State.reset],
    by simp [resetAll, State.reset], hheld, hstream⟩

theorem inv_of_resetButMonitor {s : State} (hs : s.Inv) : (resetButMonitor s).Inv := by
  obtain ⟨-, hmon, hchain, -, hheld, hstream⟩ := hs
  exact ⟨encInv_of_reset rfl, hmon, hchain, by simp [State.reset], hheld, hstream⟩

/-- Settles O9: every step but a reset is a sequence of updates that keep the clauses; a reset keeps them for itself. -/
theorem stepKeepsInvariants : Obligations.StepKeepsInvariants := by
  intro s t hs h
  by_cases hr : s.delivers .sysReset
  · obtain ⟨rest, rfl⟩ := step_reset h hr
    split
    · exact inv_of_resetAll hs
    · exact inv_of_resetButMonitor hs
  · exact inv_of_micros (step_micros h hr) hs

/-! ### R43 for itself -/

theorem meetsR43_of_inv {s : State} (hs : s.Inv) : s.MeetsR43 := by
  obtain ⟨⟨-, -, -, -, -, hidle, hcell, hgap, hgap', hwait, hpos, -⟩, ⟨-, -, hpending, hhigh, hlow⟩, -⟩ := hs
  exact ⟨hidle, hcell, hgap, hgap', hwait, hpos, hpending, hhigh, hlow⟩

theorem pendingHasBits_of_subStep {s t : State} (h : SubStep s t) (hs : s.PendingHasBits) : t.PendingHasBits := by
  cases h with
  | clear | accept => exact hs
  | latch hdue => simp [State.PendingHasBits, latchFrame_mon]
  | rise hp => simpa [State.PendingHasBits, takeRise_mon] using hs
  | fall b hp => simp [State.PendingHasBits]
  | badFall hp => rcases takeBadPulse_cases s.mon.lastTs s with h | ⟨b, h⟩ <;> simp_all [State.PendingHasBits]

/-- A bit makes a load pending and counts, a latch counts from 0 and leaves nothing pending. -/
theorem pendingHasBits_of_micro {s t : State} (h : Micro s t) (hs : s.PendingHasBits) : t.PendingHasBits := by
  rcases h.kinds with h | ⟨i, e, l, -, rfl⟩ | ⟨b, rfl⟩ | rfl | ⟨d, l, hq, rfl⟩ | rfl | ⟨-, hchain, hmon, -⟩
  · exact pendingHasBits_of_subStep h hs
  · exact hs
  · exact fun _ => Nat.le_add_left _ _
  · simp [State.PendingHasBits, latch_mon]
  · exact hs
  · exact hs
  · simpa only [State.PendingHasBits, hchain, hmon] using hs

/-- Settles O10: R43's clauses are among those of `Inv`; the one on `dec_pending` is kept by each update from any state. -/
theorem stepKeepsR43 : Obligations.StepKeepsR43 := by
  refine ⟨fun s => meetsR43_of_inv, fun s t h => ⟨fun hs => ?_, fun hs => meetsR43_of_inv (stepKeepsInvariants s t hs h)⟩⟩
  by_cases hr : s.delivers .sysReset
  · obtain ⟨rest, rfl⟩ := step_reset h hr
    split
    · simp [State.PendingHasBits, resetAll, State.reset]
    · exact hs
  · exact (step_micros h hr).keeps hs fun _ _ => pendingHasBits_of_micro

/-- Settles O8: the values of R44 against each clause. -/
theorem resetMeetsTheInvariants : Obligations.ResetMeetsTheInvariants := by
  have hinv : State.reset.Inv := ⟨encInv_of_reset rfl, by simp [MonInv, State.reset], by simp [ChainInv, State.reset],
    by simp [ProducerInv, State.reset, Env.empty]⟩
  exact ⟨hinv, by simp [State.PendingHasBits, State.reset], meetsR43_of_inv hinv, by simp [State.FlagsMatchLog, State.reset],
    by simp [State.betweenFrames, State.reset]⟩

end Sys2Proof.Machine
end

section
/-! PROOFS. Diagnostics: what each update raises, the flags that match the log, and what only a reset clears (60_exceptions.md R165 to
R174, R185). -/

namespace Sys2Proof.Machine

/-! ### What is raised between two states -/

/-- From `s` to `t` the diagnostics `l` are raised: they join `violLog`, and each kind among them sets its sticky flag (R174). -/
structure Raised (s t : State) (l : List ViolEntry) : Prop where
  viols : t.log.viols = s.log.viols ++ l
  seqErr : t.enc.seqErr = (s.enc.seqErr || l.any fun e => decide (e.diag.code = 0))
  bitPeriod : t.mon.flagBitPeriod = (s.mon.flagBitPeriod || l.any fun e => decide (e.diag.code = 1))
  unclassifiable : t.mon.flagUnclassifiable = (s.mon.flagUnclassifiable || l.any fun e => decide (e.diag.code = 2))
  missedLoad : t.mon.flagMissedLoad = (s.mon.flagMissedLoad || l.any fun e => decide (e.diag.code = 3))
  frameLength : t.chain.flagFrameLength = (s.chain.flagFrameLength || l.any fun e => decide (e.diag.code = 4))

theorem Raised.refl (s : State) : Raised s s [] := by constructor <;> simp

theorem Raised.trans {s t u : State} {l m : List ViolEntry} (h : Raised s t l) (h' : Raised t u m) : Raised s u (l ++ m) := by
  constructor
  · rw [h'.viols, h.viols, List.append_assoc]
  · rw [h'.seqErr, h.seqErr, List.any_append, Bool.or_assoc]
  · rw [h'.bitPeriod, h.bitPeriod, List.any_append, Bool.or_assoc]
  · rw [h'.unclassifiable, h.unclassifiable, List.any_append, Bool.or_assoc]
  · rw [h'.missedLoad, h.missedLoad, List.any_append, Bool.or_assoc]
  · rw [h'.frameLength, h.frameLength, List.any_append, Bool.or_assoc]

theorem raised_raise (ts : Option Nat) (d : Diag) (s : State) : Raised s (raise ts d s) [{ ts := ts, diag := d }] := by
  obtain ⟨h0, h1, h2, h3, h4⟩ := raise_flags ts d s
  constructor <;> simp [h0, h1, h2, h3, h4]

/-- The diagnostics of a latch (R125): FrameLengthError unless the frame is complete. -/
def frameDiags (ts : Option Nat) (s : State) : List ViolEntry :=
  if frameIsComplete s then [] else [{ ts := ts, diag := .frameLength s.chain.bitsSinceLoad (frameBits s) }]

theorem raised_checkFrame (ts : Option Nat) (s : State) : Raised s (checkFrame ts s) (frameDiags ts s) := by
  unfold checkFrame frameDiags
  split
  · exact .refl s
  · exact raised_raise ts _ s

theorem raised_latch (ts : Option Nat) (s : State) : Raised s (latch ts s) (frameDiags ts s) := by
  obtain ⟨h, h0, h1, h2, h3, h4⟩ := raised_checkFrame ts s
  exact ⟨h, h0, h1, h2, h3, h4⟩

theorem raised_latchFrame (ts : Nat) (s : State) : Raised s (latchFrame ts s) (frameDiags (some ts) s) := by
  obtain ⟨h, h0, h1, h2, h3, h4⟩ := raised_latch (some ts) s
  exact ⟨h, h0, h1, h2, h3, h4⟩

/-- The diagnostics of a rising edge, in R134's order. -/
def riseDiags (ts : Nat) (s : State) : List ViolEntry :=
  (if bitPeriodBad ts s then [{ ts := some ts, diag := .bitPeriod (ts - s.mon.riseTs) }] else []) ++
    if loadMissed ts s then [{ ts := some ts, diag := .missedLoad (ts - s.mon.riseTs) }] else []

theorem raised_takeRise (ts : Nat) (s : State) : Raised s (takeRise ts s) (riseDiags ts s) := by
  have hbad : Raised s (if bitPeriodBad ts s then raise (some ts) (.bitPeriod (ts - s.mon.riseTs)) s else s)
      (if bitPeriodBad ts s then [{ ts := some ts, diag := .bitPeriod (ts - s.mon.riseTs) }] else []) := by
    split
    · exact raised_raise _ _ s
    · exact .refl s
  have hcheck : Raised s (checkRise ts s) (riseDiags ts s) := by
    unfold checkRise riseDiags
    by_cases h : loadMissed ts s
    · rw [if_pos h, if_pos h]; exact hbad.trans (raised_raise _ _ _)
    · rw [if_neg h, if_neg h]; exact hbad.trans (.refl _)
  obtain ⟨h, h0, h1, h2, h3, h4⟩ := hcheck
  exact ⟨h, h0, h1, h2, h3, h4⟩

/-- A bit shifted in raises nothing. -/
theorem raised_takeBit (b : Bool) (s : State) : Raised s (takeBit b s) [] := by constructor <;> simp

theorem raised_endPulse (ts : Nat) (s : State) : Raised s (endPulse ts s) [] := by constructor <;> simp

theorem raised_takeBadPulse (ts : Nat) (s : State) :
    Raised s (takeBadPulse ts s) [{ ts := some ts, diag := .unclassifiable (highFor ts s) }] := by
  rcases takeBadPulse_cases ts s with h | ⟨b, h⟩ <;> rw [h]
  · exact raised_raise _ _ s
  · exact (raised_raise _ _ s).trans (raised_takeBit b _)

theorem raised_of_subStep {s t : State} (h : SubStep s t) : ∃ l, Raised s t l := by
  cases h with
  | clear => exact ⟨[], by constructor <;> simp⟩
  | accept ts hts => exact ⟨[], by constructor <;> simp⟩
  | latch hdue => exact ⟨_, raised_latchFrame _ s⟩
  | rise hp => exact ⟨_, raised_takeRise _ s⟩
  | fall b hp => exact ⟨_, (raised_takeBit b s).trans (raised_endPulse _ _)⟩
  | badFall hp => exact ⟨_, (raised_takeBadPulse _ s).trans (raised_endPulse _ _)⟩

/-- An operation of ENC sets `enc_seqErr` exactly with its entry. -/
theorem raised_of_encMove {s : State} {i : Instr} {e : EncRegs} {l : List ViolEntry} (h : EncMove s i e l) :
    Raised s (s.withEnc e l) l := by
  cases h with
  | reject it hr hbad => constructor <;> simp [State.withEnc, rejectedEnc, rejection, Diag.code]
  | _ => constructor <;> simp [State.withEnc]

theorem raised_of_micro {s t : State} (h : Micro s t) : ∃ l, Raised s t l := by
  rcases h.kinds with h | ⟨i, e, l, hm, rfl⟩ | ⟨b, rfl⟩ | rfl | ⟨d, l, hq, rfl⟩ | rfl | ⟨henc, hchain, hmon, hlog⟩
  · exact raised_of_subStep h
  · exact ⟨l, raised_of_encMove hm⟩
  · exact ⟨[], by constructor <;> simp⟩
  · exact ⟨_, raised_latch none s⟩
  · exact ⟨[], by constructor <;> simp⟩
  · exact ⟨[], by constructor <;> simp⟩
  · exact ⟨[], by constructor <;> simp [henc, hchain, hmon, hlog]⟩

theorem raised_of_micros {s t : State} (h : Micros s t) : ∃ l, Raised s t l :=
  h.related (R := fun s t => ∃ l, Raised s t l) (fun u => ⟨[], .refl u⟩)
    (fun _ _ _ ⟨l, h⟩ ⟨m, h'⟩ => ⟨l ++ m, h.trans h'⟩) fun _ _ => raised_of_micro

/-! ### The flags match the log -/

/-- Whatever is raised, the flags go on matching the log. -/
theorem Raised.flagsMatchLog {s t : State} {l : List ViolEntry} (h : Raised s t l) (hs : s.FlagsMatchLog) : t.FlagsMatchLog := by
  obtain ⟨h0, h1, h2, h3, h4⟩ := hs
  simp only [State.FlagsMatchLog, h.viols, h.seqErr, h.bitPeriod, h.unclassifiable, h.missedLoad, h.frameLength,
    Bool.or_eq_true, h0, h1, h2, h3, h4, List.any_eq_true, decide_eq_true_iff, List.mem_append, or_and_right, exists_or, and_self]

/-- A reset that leaves the monitor alone drops the encoder's entries, and with them its flag (log 24). -/
theorem flagsMatchLog_resetButMonitor {s : State} (hs : s.FlagsMatchLog) : (resetButMonitor s).FlagsMatchLog := by
  obtain ⟨-, h1, h2, h3, h4⟩ := hs
  have kept : ∀ n, n ≠ 0 → ((∃ e ∈ (resetButMonitor s).log.viols, e.diag.code = n) ↔ ∃ e ∈ s.log.viols, e.diag.code = n) := by
    intro n hn
    simp only [resetButMonitor, List.mem_filter, decide_eq_true_iff]
    exact ⟨fun ⟨e, ⟨he, _⟩, hc⟩ => ⟨e, he, hc⟩, fun ⟨e, he, hc⟩ => ⟨e, ⟨he, by omega⟩, hc⟩⟩
  refine ⟨?_, ?_, ?_, ?_, ?_⟩
  · constructor
    · intro h; simp [State.reset] at h
    · rintro ⟨e, he, hc⟩; simp [resetButMonitor, hc] at he
  · rw [kept 1 (by decide)]; exact h1
  · rw [kept 2 (by decide)]; exact h2
  · rw [kept 3 (by decide)]; exact h3
  · rw [kept 4 (by decide)]; exact h4

/-- Settles O11: a step raises a list of diagnostics, or is a reset, which drops flags and entries together. -/
theorem stepKeepsFlagsMatchLog : Obligations.StepKeepsFlagsMatchLog := by
  intro s t hs h
  by_cases hr : s.delivers .sysReset
  · obtain ⟨rest, rfl⟩ := step_reset h hr
    split
    · simp [State.FlagsMatchLog, resetAll, State.reset]
    · exact flagsMatchLog_resetButMonitor hs
  · obtain ⟨l, hl⟩ := raised_of_micros (step_micros h hr)
    exact hl.flagsMatchLog hs

/-! ### Frames and the rejected configuration -/

/-- The decoded frames grow, and `mon_cfgReject` stays once set. -/
def FramesGrow (s t : State) : Prop :=
  (s.mon.cfgReject = true → t.mon.cfgReject = true) ∧ ∃ l, t.log.frames = s.log.frames ++ l

theorem FramesGrow.of_eq {s t : State} (hr : t.mon.cfgReject = s.mon.cfgReject) (hf : t.log.frames = s.log.frames) :
    FramesGrow s t := ⟨fun h => hr.trans h, [], by simp [hf]⟩

theorem FramesGrow.trans {s t u : State} (h : FramesGrow s t) (h' : FramesGrow t u) : FramesGrow s u := by
  obtain ⟨hr, l, hl⟩ := h
  obtain ⟨hr', m, hm⟩ := h'
  exact ⟨hr' ∘ hr, l ++ m, by rw [hm, hl, List.append_assoc]⟩

@[simp] theorem checkRise_frames (ts : Nat) (s : State) : (checkRise ts s).log.frames = s.log.frames := by
  unfold checkRise; split <;> split <;> simp

@[simp] theorem takeRise_frames (ts : Nat) (s : State) : (takeRise ts s).log.frames = s.log.frames := checkRise_frames ts s

@[simp] theorem takeBadPulse_frames (ts : Nat) (s : State) : (takeBadPulse ts s).log.frames = s.log.frames := by
  rcases takeBadPulse_cases ts s with h | ⟨b, h⟩ <;> simp [h]

@[simp] theorem takeBadPulse_cfgReject (ts : Nat) (s : State) : (takeBadPulse ts s).mon.cfgReject = s.mon.cfgReject := by
  rcases takeBadPulse_cases ts s with h | ⟨b, h⟩ <;> simp [h]

theorem latch_frames (ts : Option Nat) (s : State) : (latch ts s).log.frames =
    s.log.frames ++ [{ ts := ts, frame := loadedFrame s, complete := frameIsComplete s }] := loadChain_frames ts s

theorem latchFrame_frames (ts : Nat) (s : State) : (latchFrame ts s).log.frames =
    s.log.frames ++ [{ ts := some ts, frame := loadedFrame s, complete := frameIsComplete s }] := latch_frames (some ts) s

theorem framesGrow_of_subStep {s t : State} (h : SubStep s t) : FramesGrow s t := by
  cases h with
  | clear | accept => exact .of_eq rfl rfl
  | latch hdue => exact ⟨by simp [latchFrame_mon], _, latchFrame_frames _ s⟩
  | rise hp => exact .of_eq (by simp [takeRise_mon]) (by simp)
  | fall b hp => exact .of_eq rfl rfl
  | badFall hp => exact .of_eq (by simp) (by simp)

theorem framesGrow_of_micro {s t : State} (h : Micro s t) : FramesGrow s t := by
  rcases h.kinds with h | ⟨i, e, l, hm, rfl⟩ | ⟨b, rfl⟩ | rfl | ⟨d, l, hq, rfl⟩ | rfl | ⟨-, -, hmon, hlog⟩
  · exact framesGrow_of_subStep h
  · exact .of_eq rfl rfl
  · exact .of_eq rfl rfl
  · exact ⟨by simp [latch_mon], _, latch_frames none s⟩
  · exact .of_eq rfl rfl
  · exact ⟨fun _ => rfl, [], by simp⟩
  · exact .of_eq (by rw [hmon]) (by rw [hlog])

theorem framesGrow_of_micros {s t : State} (h : Micros s t) : FramesGrow s t :=
  h.related (fun _ => .of_eq rfl rfl) (fun _ _ _ => .trans) fun _ _ => framesGrow_of_micro

/-- A step that delivers no SYS.RESET that reaches the monitor is a sequence of updates, or a reset of all but the monitor. -/
theorem step_keeping_monitor {s t : State} (h : step s = .next t) (hr : ¬ s.deliversMonitorReset) :
    Micros s t ∨ ∃ rest, t = resetButMonitor { s.clearOut with env := { s.env with pending := rest } } := by
  by_cases hd : s.delivers .sysReset
  · obtain ⟨rest, ht⟩ := step_reset h hd
    rw [if_neg fun hm => hr ⟨hd, hm⟩] at ht
    exact .inr ⟨rest, ht⟩
  · exact .inl (step_micros h hd)

/-- Settles O12: a step that is no reset raises diagnostics and lets the frames grow; a reset of all but the monitor keeps the
monitor's flags and the frames. -/
theorem onlyResetClearsFlags : Obligations.OnlyResetClearsFlags := by
  intro s t h
  constructor
  · intro hr
    obtain ⟨l, hl⟩ := raised_of_micros (step_micros h hr)
    exact ⟨fun hs => by rw [hl.seqErr, hs, Bool.true_or], l, hl.viols⟩
  · intro hr
    rcases step_keeping_monitor h hr with hm | ⟨rest, rfl⟩
    · obtain ⟨l, hl⟩ := raised_of_micros hm
      exact ⟨fun hs => by rw [hl.bitPeriod, hs, Bool.true_or], fun hs => by rw [hl.unclassifiable, hs, Bool.true_or],
        fun hs => by rw [hl.missedLoad, hs, Bool.true_or], fun hs => by rw [hl.frameLength, hs, Bool.true_or],
        framesGrow_of_micros hm⟩
    · exact ⟨id, id, id, id, id, [], (List.append_nil _).symm⟩

end Sys2Proof.Machine
end

section
/-! PROOFS. Ownership: which operation writes which agent's state, and what follows for every step (20_memory.md R61). -/

namespace Sys2Proof.Machine

/-! ### `E_FAULT` and `D_IDLE` -/

/-- The encoder's registers are written by the operations of ENC alone. -/
theorem Micro.enc_kept {s t : State} (h : Micro s t) : (∃ i e l, EncMove s i e l ∧ t = s.withEnc e l) ∨ t.enc = s.enc := by
  rcases h.kinds with h | h | ⟨b, rfl⟩ | rfl | ⟨d, l, hq, rfl⟩ | rfl | ⟨henc, -⟩
  · exact .inr h.others.2.1
  · exact .inl h
  · exact .inr rfl
  · exact .inr (latch_enc none s)
  · exact .inr rfl
  · exact .inr rfl
  · exact .inr henc

/-- In `E_FAULT` an operation of ENC writes nothing (R117). -/
theorem EncMove.of_fault {s : State} {i : Instr} {e : EncRegs} {l : List ViolEntry} (h : EncMove s i e l)
    (hp : s.enc.phase = .fault) : e = s.enc := by
  have hr := ready_of_fault hp
  cases h <;> simp_all [pixelEnd_iff]

/-- Settles O13: no update moves the encoder's registers out of `E_FAULT`. -/
theorem faultIsAbsorbing : Obligations.FaultIsAbsorbing := by
  intro s t h hp hr
  refine ⟨(step_micros h hr).keeps (P := fun u => u.enc = s.enc) rfl fun u v huv hu => ?_,
    wire_of_ne_high (by simp [hp]), ready_of_fault hp⟩
  rcases huv.enc_kept with ⟨i, e, l, hm, rfl⟩ | henc
  · exact (hm.of_fault (by rw [hu, hp])).trans hu
  · exact henc.trans hu

theorem idle_of_subStep {s t : State} (h : SubStep s t) (ht : t.mon.phase = .idle) : s.mon.phase = .idle := by
  cases h with
  | clear | accept => exact ht
  | latch hdue => simpa [latchFrame_mon] using ht
  | rise hp => simp [takeRise_mon] at ht
  | fall b hp => simp at ht
  | badFall hp => simp at ht

theorem idle_of_micro {s t : State} (h : Micro s t) (ht : t.mon.phase = .idle) : s.mon.phase = .idle := by
  rcases h.kinds with h | ⟨i, e, l, hm, rfl⟩ | ⟨b, rfl⟩ | rfl | ⟨d, l, hq, rfl⟩ | rfl | ⟨-, -, hmon, -⟩
  · exact idle_of_subStep h ht
  · exact ht
  · exact ht
  · simpa [latch_mon] using ht
  · exact ht
  · exact ht
  · rwa [hmon] at ht

/-- Settles O14: an edge leads out of `D_IDLE`, and no update leads back; the reset of all but the monitor keeps the phase. -/
theorem decoderIdleOnlyByReset : Obligations.DecoderIdleOnlyByReset := by
  intro s t h hr
  rcases step_keeping_monitor h hr with hm | ⟨rest, rfl⟩
  · exact hm.related (R := fun s t => t.mon.phase = .idle → s.mon.phase = .idle) (fun _ => id)
      (fun _ _ _ h h' => h ∘ h') fun _ _ => idle_of_micro
  · exact id

/-! ### Who writes what -/

@[simp] theorem deliverWrite_cfg (k : Nat) (v : RegValue) (s : State) : (deliverWrite k v s).cfg = s.cfg := by
  rw [deliverWrite_others]
@[simp] theorem deliverWrite_enc (k : Nat) (v : RegValue) (s : State) : (deliverWrite k v s).enc = s.enc := by
  rw [deliverWrite_others]
@[simp] theorem deliverWrite_chain (k : Nat) (v : RegValue) (s : State) : (deliverWrite k v s).chain = s.chain := by
  rw [deliverWrite_others]
@[simp] theorem deliverWrite_mon (k : Nat) (v : RegValue) (s : State) : (deliverWrite k v s).mon = s.mon := by
  rw [deliverWrite_others]
@[simp] theorem deliverWrite_tick (k : Nat) (v : RegValue) (s : State) : (deliverWrite k v s).tick = s.tick := by
  rw [deliverWrite_others]
@[simp] theorem deliverWrite_par (k : Nat) (v : RegValue) (s : State) : (deliverWrite k v s).env.par = s.env.par := by
  rw [deliverWrite_others]
@[simp] theorem deliverWrite_pending (k : Nat) (v : RegValue) (s : State) :
    (deliverWrite k v s).env.pending = s.env.pending := by
  rw [deliverWrite_others]

/-- A delivered pixel write at a position with a register, in a run that is not the external producer's (R152, R155). -/
theorem deliverPixel_next {k : Nat} {v : RegValue} {s t : State} : deliverPixel k v s = .next t ↔
    k < s.env.par.pixRegCount ∧ s.env.producer ≠ some .stream ∧
      deliverWrite k v { s with env := { s.env with producer := some .facade } } = t := by
  unfold deliverPixel
  split
  · next hk =>
    split
    · next hp => simp [hp]
    · next hp => simp [hk, hp]
  · next hk => simp [hk]

/-- What a register write can do (R150): the configuration write at offset 0, a pixel write, or nothing. -/
theorem memWrite_next {offset : Nat} {v : RegValue} {s t : State} (h : memWrite offset v s = .next t) :
    (offset = 0 ∧ t = writeCfg v s) ∨
    (∃ k, t = deliverWrite k v { s with env := { s.env with producer := some .facade } }) ∨ t = s := by
  unfold memWrite at h
  split at h
  · next h0 => exact .inl ⟨h0, (Host.Outcome.next.inj h).symm⟩
  · split at h
    · obtain ⟨-, -, h⟩ := deliverPixel_next.1 h
      exact .inr (.inl ⟨_, h.symm⟩)
    · exact .inr (.inr (Host.Outcome.next.inj h).symm)

/-- What an operation that is none of ENC's and no report may do, with its owner named. Only an ill-formed register map lets a pixel
write reach the configuration register. -/
theorem exec_other_next {i : Instr} {s t : State} (h : exec i s = .next t) (hr : i ≠ .sysReset)
    (henc : i.isEnc = false) (hrep : i.isReport = false) :
    (∃ v, (i = .regConfig v ∨ i = .regfWrCfg v ∨ s.env.par.wf = false) ∧ t = writeCfg v s) ∨
    (∃ j k v, (i = .regPixel j v ∨ i = .regfWrPix j v) ∧
      t = deliverWrite k v { s with env := { s.env with producer := some .facade } }) ∨
    (∃ p q, t = { s with env := { s.env with producer := p, stream := q } }) ∨
    (∃ b, i = .chainShift b ∧ t = (shiftChain b s).2) ∨ (i = .chainLoad ∧ t = latch none s) ∨
    (∃ d l, i = .monConfig d l ∧ execMonConfig d l s = .next t) ∨ (i = .regfXfer ∧ t = freeHold s) := by
  cases i <;> simp only [Instr.isEnc, Instr.isReport, Bool.true_eq_false] at henc hrep <;> clear henc hrep
  case regConfig v =>
    exact .inl ⟨v, .inl rfl, (Host.Outcome.next.inj h).symm⟩
  case regfWrCfg v =>
    exact .inl ⟨v, .inr (.inl rfl), (Host.Outcome.next.inj h).symm⟩
  case regPixel k v =>
    simp only [exec, execRegPixel] at h
    split at h
    · next offset hoff =>
      rcases memWrite_next h with ⟨h0, rfl⟩ | ⟨k', rfl⟩ | rfl
      · exact .inl ⟨v, .inr (.inr (Bool.eq_false_iff.2 fun hw => pixRegOffset_ne_zero hw hoff h0)), rfl⟩
      · exact .inr (.inl ⟨k, k', v, .inl rfl, rfl⟩)
      · exact .inr (.inr (.inl ⟨t.env.producer, t.env.stream, rfl⟩))
    · cases h
  case regfWrPix k v =>
    obtain ⟨-, -, h⟩ := deliverPixel_next.1 h
    exact .inr (.inl ⟨k, k, v, .inr rfl, h.symm⟩)
  case itemStream valid it notBefore =>
    simp only [exec, execItemStream] at h
    split at h
    · split at h
      · cases h
      · exact .inr (.inr (.inl ⟨_, _, (Host.Outcome.next.inj h).symm⟩))
    · exact .inr (.inr (.inl ⟨_, _, (Host.Outcome.next.inj h).symm⟩))
  case chainShift b => exact .inr (.inr (.inr (.inl ⟨b, rfl, (Host.Outcome.next.inj h).symm⟩)))
  case chainLoad => exact .inr (.inr (.inr (.inr (.inl ⟨rfl, (Host.Outcome.next.inj h).symm⟩))))
  case monConfig d l => exact .inr (.inr (.inr (.inr (.inr (.inl ⟨d, l, rfl, h⟩)))))
  case regfXfer =>
    obtain ⟨-, h⟩ := selectedWhen_next.1 h
    exact .inr (.inr (.inr (.inr (.inr (.inr ⟨rfl, h.symm⟩)))))
  case regfWrNone offset v =>
    obtain ⟨-, rfl⟩ := selectedWhen_next.1 h
    exact .inr (.inr (.inl ⟨s.env.producer, s.env.stream, rfl⟩))
  case sysReset => exact absurd rfl hr

/-- MON.CONFIG writes the monitor's registers and nothing else (R145). -/
theorem execMonConfig_next {d : Byte} {l : BitVec 4} {s t : State} (h : execMonConfig d l s = .next t) :
    t = { s with mon := t.mon } ∧ ((t.mon.S = s.mon.S ∧ t.mon.N = s.mon.N) ∨ quiescent s = true) := by
  obtain rfl := Host.Outcome.next.inj h
  split
  · next hq => exact ⟨rfl, .inr hq⟩
  · exact ⟨rfl, .inl ⟨rfl, rfl⟩⟩

/-- Settles O16: the operations by their owner: those of ENC, the reports, and each of the others. -/
theorem singleOwner : Obligations.SingleOwner := by
  intro i s t hw h hr
  cases henc : i.isEnc with
  | true =>
    obtain ⟨e, l, -, rfl⟩ := encMove_of_exec henc h
    exact ⟨fun h => absurd rfl h, fun h => absurd rfl h, fun _ => rfl, fun h => absurd rfl h, fun h => absurd rfl h, rfl, rfl, rfl⟩
  | false =>
    cases hrep : i.isReport with
    | true =>
      obtain ⟨hc, he, hh, ht, hv⟩ := (exec_subSteps h hrep).others
      exact ⟨fun h => absurd hc h, fun h => absurd hh h, fun h => absurd he h, fun _ => .inl rfl, fun _ => .inl rfl, ht,
        by rw [hv], by rw [hv]⟩
    | false =>
      rcases exec_other_next h hr henc hrep with ⟨v, hi, rfl⟩ | ⟨j, k, v, hi, rfl⟩ | ⟨p, q, rfl⟩ | ⟨b, hi, rfl⟩ | ⟨hi, rfl⟩ |
        ⟨d, l, hi, h⟩ | ⟨hi, rfl⟩
      · have hv : i = .regConfig v ∨ i = .regfWrCfg v := by simpa [hw] using hi
        simpa using fun _ => ⟨v, hv⟩
      · simpa using fun _ => .inr ⟨j, v, hi⟩
      · simp
      · simp [hi]
      · simp [hi, latch_mon]
      · rw [(execMonConfig_next h).1]
        simp [hi]
      · simp [hi]

/-! ### Configurations -/

theorem monConfig_of_subStep {s t : State} (h : SubStep s t) : t.mon.S = s.mon.S ∧ t.mon.N = s.mon.N := by
  cases h with
  | clear | accept => exact ⟨rfl, rfl⟩
  | latch hdue => simp [latchFrame_mon]
  | rise hp => simp [takeRise_mon]
  | fall b hp => exact ⟨rfl, rfl⟩
  | badFall hp => rcases takeBadPulse_cases s.mon.lastTs s with h | ⟨b, h⟩ <;> simp [h]

theorem SubSteps.monConfig {s t : State} (h : SubSteps s t) : t.mon.S = s.mon.S ∧ t.mon.N = s.mon.N :=
  h.keeps (P := fun u => u.mon.S = s.mon.S ∧ u.mon.N = s.mon.N) ⟨rfl, rfl⟩ fun _ _ huv hu =>
    ⟨(monConfig_of_subStep huv).1.trans hu.1, (monConfig_of_subStep huv).2.trans hu.2⟩

/-- An operation of ENC takes a new configuration from `cfg`, in `E_IDLE`, or keeps the active one (R105). -/
theorem EncMove.config {s : State} {i : Instr} {e : EncRegs} {l : List ViolEntry} (h : EncMove s i e l) :
    (e.S = s.enc.S ∧ e.N = s.enc.N) ∨
    (s.enc.phase = .idle ∧ e.S = subPeriod s.cfg.divider ∧ e.N = chainLength s.cfg.lastLed) := by
  cases h with
  | acceptFirst it hp hset hok => exact .inr ⟨hp, rfl, rfl⟩
  | reject it hr hbad =>
    unfold rejectedEnc
    split
    · next hp => exact .inr ⟨hp, rfl, rfl⟩
    · exact .inl ⟨rfl, rfl⟩
  | _ => exact .inl ⟨rfl, rfl⟩

/-- What any operation but SYS.RESET does to the active configurations (R105, R145). -/
theorem exec_config {i : Instr} {s t : State} (h : exec i s = .next t) (hr : i ≠ .sysReset) :
    (t.enc = s.enc ∨ ∃ e l, EncMove s i e l ∧ t.enc = e) ∧
    ((t.mon.S = s.mon.S ∧ t.mon.N = s.mon.N) ∨ quiescent s = true) := by
  cases henc : i.isEnc with
  | true =>
    obtain ⟨e, l, hm, rfl⟩ := encMove_of_exec henc h
    exact ⟨.inr ⟨e, l, hm, rfl⟩, .inl ⟨rfl, rfl⟩⟩
  | false =>
    cases hrep : i.isReport with
    | true =>
      have hs := exec_subSteps h hrep
      exact ⟨.inl hs.others.2.1, .inl hs.monConfig⟩
    | false =>
      rcases exec_other_next h hr henc hrep with ⟨v, -, rfl⟩ | ⟨j, k, v, -, rfl⟩ | ⟨p, q, rfl⟩ | ⟨b, -, rfl⟩ | ⟨-, rfl⟩ |
        ⟨d, l, -, h⟩ | ⟨-, rfl⟩
      · simp
      · simp
      · simp
      · simp
      · simp [latch_mon]
      · exact ⟨.inl (by rw [(execMonConfig_next h).1]), (execMonConfig_next h).2⟩
      · simp

/-- The phases of a tick, as updates: its report, the transfer, one move of the encoder, the end of the tick (R157). -/
theorem tick_phases {s t : State} (h : tick s = .next t) :
    ∃ s1 s2 e l, SubSteps s s1 ∧ monitorPhase s = .next s1 ∧ transferPhase s1 = .next s2 ∧ EncMove s (encOp s) e l ∧
      t = endTick (s2.withEnc e l) := by
  obtain ⟨s1, -, -, hmon, -⟩ := tick_next.1 h
  obtain ⟨e, l, s2, he, htransfer, htick⟩ := tick_of_report hmon
  obtain ⟨e', l', hm, heq⟩ := encMove_of_exec (encOp_isEnc s) he
  have hsame : e' = e ∧ l' = l := by
    simp only [State.withEnc, State.mk.injEq, Histories.mk.injEq, List.append_cancel_left_eq] at heq
    exact ⟨heq.2.1.symm, heq.2.2.2.2.2.2.1.1.symm⟩
  obtain ⟨rfl, rfl⟩ := hsame
  refine ⟨s1, s2, e', l', monitorPhase_subSteps hmon, hmon, htransfer, hm, ?_⟩
  rw [h] at htick
  exact Host.Outcome.next.inj htick

/-- A tick keeps the monitor's configuration, and the encoder makes one move from the state before it. -/
theorem tick_config {s t : State} (h : tick s = .next t) :
    (∃ i e l, EncMove s i e l ∧ t.enc = e) ∧ t.mon.S = s.mon.S ∧ t.mon.N = s.mon.N := by
  obtain ⟨s1, s2, e, l, hs, -, htransfer, hm, rfl⟩ := tick_phases h
  obtain ⟨s2', h2, heq, -⟩ := transferPhase_next s1
  obtain rfl : s2 = s2' := by simpa [htransfer] using h2
  have hmon : s2.mon = s1.mon := by rw [heq]
  exact ⟨⟨_, e, l, hm, by simp [State.withEnc]⟩, by simpa [State.withEnc, hmon] using hs.monConfig⟩

/-- What a step that delivers no SYS.RESET does to the active configurations. -/
theorem step_config {s t : State} (h : step s = .next t) (hr : ¬ s.delivers .sysReset) :
    ((t.enc.S = s.enc.S ∧ t.enc.N = s.enc.N) ∨
      (s.enc.phase = .idle ∧ t.enc.S = subPeriod s.cfg.divider ∧ t.enc.N = chainLength s.cfg.lastLed)) ∧
    ((t.mon.S = s.mon.S ∧ t.mon.N = s.mon.N) ∨ quiescent s = true) := by
  rcases step_cases h with ⟨i, s1, hf, he⟩ | ⟨-, ht⟩
  · have hi : i ≠ .sysReset := by rintro rfl; exact hr ⟨_, hf⟩
    obtain ⟨p, rest, -, -, -, rfl⟩ := fetch_some hf
    obtain ⟨henc | ⟨e, l, hm, henc⟩, hmon⟩ := exec_config he hi
    · exact ⟨.inl (by rw [henc]; exact ⟨rfl, rfl⟩), hmon⟩
    · exact ⟨by rw [henc]; exact hm.config, hmon⟩
  · obtain ⟨⟨i, e, l, hm, henc⟩, hmon⟩ := tick_config ht
    exact ⟨by rw [henc]; exact hm.config, .inl hmon⟩

theorem par_of_micro {s t : State} (h : Micro s t) : t.env.par = s.env.par := by
  cases h with
  | report h => rw [h.others.2.2.2.2]
  | encoder i hi h => obtain ⟨e, l, -, rfl⟩ := encMove_of_exec hi h; rfl
  | _ => simp

/-- The parameters of the run are written by nothing (R45). -/
theorem step_par {s t : State} (h : step s = .next t) : t.env.par = s.env.par := by
  by_cases hr : s.delivers .sysReset
  · obtain ⟨rest, rfl⟩ := step_reset h hr
    split <;> simp
  · exact (step_micros h hr).keeps (P := fun u => u.env.par = s.env.par) rfl fun _ _ huv hu => (par_of_micro huv).trans hu

theorem quiescent_iff {s : State} : quiescent s = true ↔
    s.mon.pending = false ∧ s.chain.bitsSinceLoad = 0 ∧ s.mon.phase ≠ .high := by
  simp [quiescent, and_assoc]

/-- Settles O15: a step without a reset takes a configuration as R105 and R145 say; a reset of all but the monitor leaves the
monitor's. -/
theorem configurationChangesBetweenFrames : Obligations.ConfigurationChangesBetweenFrames := by
  intro s t h
  refine ⟨fun hr hne => ?_, fun hr hne => ?_, step_par h⟩
  · rcases (step_config h hr).1 with ⟨hS, hN⟩ | htaken
    · exact absurd hne (by simp [hS, hN])
    · exact htaken
  · by_cases hd : s.delivers .sysReset
    · obtain ⟨rest, ht⟩ := step_reset h hd
      rw [if_neg fun hm => hr ⟨hd, hm⟩] at ht
      exact absurd hne (by simp [ht])
    · rcases (step_config h hd).2 with ⟨hS, hN⟩ | hq
      · exact absurd hne (by simp [hS, hN])
      · exact quiescent_iff.1 hq

/-! ### Registers outside the chain -/

/-- The active registers are as before from `k` on. -/
def RegistersKept (k : Nat) (s t : State) : Prop :=
  t.chain.acc.getD k 0 = s.chain.acc.getD k 0 ∧ t.chain.lat[k]? = s.chain.lat[k]?

theorem RegistersKept.of_eq {k : Nat} {s t : State} (ha : t.chain.acc = s.chain.acc) (hl : t.chain.lat = s.chain.lat) :
    RegistersKept k s t := ⟨by rw [ha], by rw [hl]⟩

theorem RegistersKept.trans {k : Nat} {s t u : State} (h : RegistersKept k s t) (h' : RegistersKept k t u) :
    RegistersKept k s u := ⟨h'.1.trans h.1, h'.2.trans h.2⟩

/-- A shift keeps the registers from `mon_N` on (R121, R128). -/
theorem registersKept_shiftChain (b : Bool) {s : State} {k : Nat} (hk : s.mon.N ≤ k) :
    RegistersKept k s (shiftChain b s).2 := by
  refine ⟨?_, rfl⟩
  simp only [shiftChain, List.getD_eq_getElem?_getD, List.getElem?_append, List.getElem?_drop, shiftRegs_length,
    List.length_take]
  by_cases hN : s.mon.N ≤ s.chain.acc.length
  · rw [if_neg (by omega), Nat.min_eq_left hN, Nat.add_sub_cancel' hk]
  · rw [if_neg (by omega), List.getElem?_eq_none (by omega), List.getElem?_eq_none (by omega)]

/-- The latches of a load from `mon_N` on (R123, R128). -/
theorem loadedLat_kept {s : State} {k : Nat} (hc : ChainInv s) (hk : s.mon.N ≤ k) : (loadedLat s)[k]? = s.chain.lat[k]? := by
  obtain ⟨ha, hl⟩ := hc
  simp only [loadedLat, List.getElem?_append, List.getElem?_drop, List.length_map, List.length_take, ha]
  by_cases hN : s.mon.N ≤ 16
  · rw [if_neg (by omega), Nat.min_eq_left hN, Nat.add_sub_cancel' hk]
  · rw [if_neg (by omega), List.getElem?_eq_none (by omega), List.getElem?_eq_none (by omega)]

theorem registersKept_of_subStep {s t : State} {k : Nat} (h : SubStep s t) (hc : ChainInv s) (hk : s.mon.N ≤ k) :
    RegistersKept k s t := by
  cases h with
  | clear | accept => exact .of_eq rfl rfl
  | latch hdue => exact ⟨by simp, by simpa using loadedLat_kept hc hk⟩
  | rise hp => exact .of_eq (by simp) (by simp)
  | fall b hp => exact registersKept_shiftChain b hk
  | badFall hp =>
    rcases takeBadPulse_cases s.mon.lastTs s with h | ⟨b, h⟩
    · exact .of_eq (by simp [h]) (by simp [h])
    · have hraise : RegistersKept k s (raise (some s.mon.lastTs) (.unclassifiable (highFor s.mon.lastTs s)) s) :=
        .of_eq (by simp) (by simp)
      simp only [RegistersKept, endPulse_chain, h, takeBit_chain]
      exact hraise.trans (registersKept_shiftChain b (by simpa using hk))

theorem registersKept_of_subSteps {s t : State} {k : Nat} (h : SubSteps s t) (hc : ChainInv s) (hk : s.mon.N ≤ k) :
    RegistersKept k s t := by
  have hall : RegistersKept k s t ∧ ChainInv t ∧ t.mon.N ≤ k :=
    h.keeps (P := fun u => RegistersKept k s u ∧ ChainInv u ∧ u.mon.N ≤ k) ⟨.of_eq rfl rfl, hc, hk⟩
      fun u v huv ⟨hkept, hcu, hku⟩ => ⟨hkept.trans (registersKept_of_subStep huv hcu hku), chainInv_of_subStep huv hcu,
        (monConfig_of_subStep huv).2.trans_le hku⟩
  exact hall.1

/-- Settles O17: the operations by their owner; only a bit and a load write the chain, and both below `mon_N`. -/
theorem registersOutsideChainKept : Obligations.RegistersOutsideChainKept := by
  intro i s t k h hreset hc hk
  by_cases hr : i = .sysReset
  · subst hr
    obtain rfl := Host.Outcome.next.inj h
    rw [if_neg (by simp [hreset rfl])]
    exact ⟨rfl, rfl⟩
  cases henc : i.isEnc with
  | true =>
    obtain ⟨e, l, -, rfl⟩ := encMove_of_exec henc h
    exact ⟨rfl, rfl⟩
  | false =>
    cases hrep : i.isReport with
    | true => exact registersKept_of_subSteps (exec_subSteps h hrep) hc hk
    | false =>
      rcases exec_other_next h hr henc hrep with ⟨v, -, rfl⟩ | ⟨j, k, v, -, rfl⟩ | ⟨p, q, rfl⟩ | ⟨b, -, rfl⟩ | ⟨-, rfl⟩ |
        ⟨d, l, -, h⟩ | ⟨-, rfl⟩
      · exact ⟨rfl, rfl⟩
      · simp
      · exact ⟨rfl, rfl⟩
      · exact registersKept_shiftChain b hk
      · exact ⟨by simp, by simpa using loadedLat_kept hc hk⟩
      · rw [(execMonConfig_next h).1]
        exact ⟨rfl, rfl⟩
      · exact ⟨rfl, rfl⟩

/-! ### Writes of a pixel register by its two names -/

/-- The register write at a position's offset is the pixel write of that position (R150). -/
theorem memWrite_pixRegOffset {k offset : Nat} {s : State} (hw : s.env.par.wf = true) (h : s.env.par.pixRegOffset k = some offset)
    (v : RegValue) : memWrite offset v s = deliverPixel k v s := by
  unfold memWrite
  rw [if_neg (pixRegOffset_ne_zero hw h), pixRegIndex_of_pixRegOffset hw h]

/-- REG.PIXEL is the pixel write of its position, refused like it where there is no register. -/
theorem execRegPixel_eq (k : Nat) (v : RegValue) {s : State} (hw : s.env.par.wf = true) :
    execRegPixel k v s = deliverPixel k v s := by
  unfold execRegPixel
  cases hoff : s.env.par.pixRegOffset k with
  | some offset => exact memWrite_pixRegOffset hw hoff v
  | none =>
    have hk : ¬ k < s.env.par.pixRegCount := by simpa [Params.pixRegOffset, Params.pixRegCount] using hoff
    simp only [deliverPixel, if_neg hk]

end Sys2Proof.Machine
end

section
/-! PROOFS. The shift chain: shifts one after another, a frame's words, a load (41_shift_chain.md R121 to R127). -/

namespace Sys2Proof.Machine

/-! ### Shifts -/

/-- The chain of `N` active registers after the bits `bs` (R121). -/
def chainAfter (N : Nat) (bs : List Bool) (c : ChainRegs) : ChainRegs :=
  bs.foldl (fun c b => { c with acc := shiftRegs b (c.acc.take N) ++ c.acc.drop N, bitsSinceLoad := c.bitsSinceLoad + 1 }) c

@[simp] theorem chainAfter_nil (N : Nat) (c : ChainRegs) : chainAfter N [] c = c := rfl

theorem chainAfter_append (N : Nat) (bs cs : List Bool) (c : ChainRegs) :
    chainAfter N (bs ++ cs) c = chainAfter N cs (chainAfter N bs c) := List.foldl_append

theorem shiftChain_eq (b : Bool) (s : State) : (shiftChain b s).2 = { s with chain := chainAfter s.mon.N [b] s.chain } := rfl

/-- Shifts invoked one after another (R121), whatever `mon_N` is. -/
theorem execAll_chainShift_eq (bs : List Bool) (s : State) :
    execAll (bs.map .chainShift) s = .next { s with chain := chainAfter s.mon.N bs s.chain } := by
  induction bs generalizing s with
  | nil => rfl
  | cons b bs ih => exact ih (shiftChain b s).2

/-- The chain after bits, in closed form where it has its registers. -/
theorem chainAfter_eq (N : Nat) (bs : List Bool) (c : ChainRegs) (h : N ≤ c.acc.length) : chainAfter N bs c =
    { c with acc := shiftBits bs (c.acc.take N) ++ c.acc.drop N, bitsSinceLoad := c.bitsSinceLoad + bs.length } := by
  have hclosed := execAll_chainShift bs { State.reset with chain := c, mon := { State.reset.mon with N := N } } h
  rw [execAll_chainShift_eq] at hclosed
  exact congrArg State.chain (Host.Outcome.next.inj hclosed)

/-- A chain filled with the bits of as many words as it has registers holds the words, the first in the last register (R127). -/
theorem shiftBits_words (ws l : List PixelWord) (h : ws.length = l.length) : shiftBits (ws.flatMap wordBits) l = ws.reverse := by
  have hlen : (shiftBits (ws.flatMap wordBits) l).length = ws.reverse.length := by simp [h]
  refine List.ext_getElem hlen fun r hr hr' => BitVec.eq_of_getLsbD_eq fun b hb => ?_
  rw [shiftBits_length] at hr
  have hbit := shiftBits_chainBit (ws.flatMap wordBits) l (24 * r + b) (by omega)
  have hindex : 24 * ws.length - 1 - (24 * r + b) = 24 * (ws.length - 1 - r) + (23 - b) := by omega
  rw [flatMap_wordBits_length, if_pos (by omega), hindex, flatMap_wordBits_getD ws _ _ (by omega) (by omega), chainBit,
    show (24 * r + b) / 24 = r by omega, show (24 * r + b) % 24 = b by omega, show 23 - (23 - b) = b by omega] at hbit
  rw [List.getElem_reverse]
  simpa [List.getD_eq_getElem?_getD, hr, h, show l.length - 1 - r < l.length by omega] using hbit

/-- The active accumulators after the words of a full frame, and the bits counted (R127). -/
theorem chainAfter_words (ws : List PixelWord) (c : ChainRegs) (h : ws.length ≤ c.acc.length) :
    (chainAfter ws.length (ws.flatMap wordBits) c).acc.take ws.length = ws.reverse ∧
    (chainAfter ws.length (ws.flatMap wordBits) c).bitsSinceLoad = c.bitsSinceLoad + 24 * ws.length := by
  rw [chainAfter_eq _ _ _ h, shiftBits_words _ _ (by simp [h]), flatMap_wordBits_length]
  exact ⟨List.take_left' (by simp), rfl⟩

/-- Settles O34: the bits of as many words as registers are active replace every bit of the chain. -/
theorem fullFrameLandsInChain : Obligations.FullFrameLandsInChain := by
  intro s ws hlen hN
  obtain ⟨hacc, hbits⟩ := chainAfter_words ws s.chain (hlen ▸ hN)
  rw [hlen] at hacc hbits
  refine ⟨_, execAll_chainShift_eq _ s, hbits, fun i hi => ?_⟩
  have hin : (chainAfter s.mon.N (ws.flatMap wordBits) s.chain).acc[s.mon.N - 1 - i]? = ws.reverse[s.mon.N - 1 - i]? := by
    rw [← hacc, List.getElem?_take_of_lt (by omega)]
  rw [hin, List.getElem?_reverse (by omega), hlen]
  congr 1; omega

/-- The new bit of a register as a word. -/
theorem setWidth_ofBool (b : Bool) : BitVec.setWidth 24 (BitVec.ofBool b) = if b then 1 else 0 := by cases b <;> rfl

/-- Settles O31: `shiftRegs` register by register; the registers behind `mon_N` are those of before. -/
theorem shiftMovesOneBit : Obligations.ShiftMovesOneBit := by
  intro s b h1 hN
  refine ⟨(shiftChain b s).2, rfl, fun k hk => ?_, fun k hk => (registersKept_shiftChain b hk).1,
    shiftChain_acc_length b s, rfl, rfl⟩
  have htake : ∀ j < s.mon.N, (s.chain.acc.take s.mon.N).getD j 0 = s.chain.acc.getD j 0 := fun j hj => by
    simp [List.getD_eq_getElem?_getD, List.getElem?_take_of_lt hj]
  have hlen : (s.chain.acc.take s.mon.N).length = s.mon.N := by simp [hN]
  rw [shiftChain_eq]
  show (shiftRegs b (s.chain.acc.take s.mon.N) ++ s.chain.acc.drop s.mon.N).getD k 0 = _
  rw [List.getD_append _ _ _ _ (by rw [shiftRegs_length]; omega), shiftRegs_get b _ k (by omega), setWidth_ofBool,
    htake k hk, htake (k - 1) (by omega)]
  rfl

/-! ### Loads -/

theorem frameIsComplete_eq (s : State) : frameIsComplete s = decide (s.chain.bitsSinceLoad = 24 * s.mon.N) := rfl

/-- R125: the entries of a latch. -/
theorem frameDiags_eq (ts : Option Nat) (s : State) : frameDiags ts s =
    if s.chain.bitsSinceLoad = 24 * s.mon.N then []
    else [{ ts := ts, diag := .frameLength s.chain.bitsSinceLoad (24 * s.mon.N) }] := by
  simp [frameDiags, frameIsComplete_eq, frameBits]

/-- R125, R165: the outputs of a load. -/
theorem latch_out_eq (ts : Option Nat) (s : State) : (latch ts s).out =
    { s.out with
      viol := s.out.viol ||| (if s.chain.bitsSinceLoad = 24 * s.mon.N then 0 else 0b1000)
      frame := loadedFrame s, frameComplete := frameIsComplete s } := by
  by_cases h : s.chain.bitsSinceLoad = 24 * s.mon.N
  · simp [loadChain, checkFrame, frameIsComplete_eq, h]
  · simp [loadChain, checkFrame, frameIsComplete_eq, h, raise, Diag.violMask]

theorem loadedLat_active {s : State} {k : Nat} (hk : k < s.mon.N) (hN : s.mon.N ≤ s.chain.acc.length) :
    (loadedLat s)[k]? = (s.chain.acc[k]?).map unpackWord := by
  rw [loadedLat, List.getElem?_append_left (by simp; omega), List.getElem?_map, List.getElem?_take_of_lt hk]

theorem loadedLat_getD {s : State} {k : Nat} (hk : k < s.mon.N) (hN : s.mon.N ≤ s.chain.acc.length) :
    (loadedLat s)[k]? = some (unpackWord (s.chain.acc.getD k 0)) := by
  rw [loadedLat_active hk hN]
  simp [show k < s.chain.acc.length by omega]

theorem loadedFrame_length {s : State} (hc : ChainInv s) (hN : s.mon.N ≤ 16) : (loadedFrame s).length = s.mon.N := by
  simp [loadedFrame, loadedLat_length s hc.1 hc.2, hN]

/-- R124: the frame is the active latches in reverse. -/
theorem loadedFrame_get {s : State} (hc : ChainInv s) (hN : s.mon.N ≤ 16) {i : Nat} (hi : i < s.mon.N) :
    (loadedFrame s)[i]? = (loadedLat s)[s.mon.N - 1 - i]? := by
  have hlen : ((loadedLat s).take s.mon.N).length = s.mon.N := by simp [loadedLat_length s hc.1 hc.2, hN]
  rw [loadedFrame, List.getElem?_reverse (by omega), hlen, List.getElem?_take_of_lt (by omega)]

/-- The frame loaded from the words of pixels, the first in the last register, is those pixels (R123, R124, R127). -/
theorem loadedFrame_of_words {s : State} {pxs : List Pixel} (h : s.chain.acc.take s.mon.N = (pxs.map pixelWord).reverse)
    (hlen : pxs.length = s.mon.N) : loadedFrame s = pxs := by
  have hunpack : (s.chain.acc.take s.mon.N).map unpackWord = pxs.reverse := by
    have hid : unpackWord ∘ pixelWord = id := funext unpackWord_pixelWord
    rw [h, ← List.map_reverse, List.map_map, hid, List.map_id]
  rw [loadedFrame, loadedLat, hunpack, List.take_left' (by simp [hlen]), List.reverse_reverse]

/-- Settles O32: the load is `latch`, whose parts are the frame, the latches, the outputs and the entries. -/
theorem loadLatchesTheFrame : Obligations.LoadLatchesTheFrame := by
  intro s hc h1 hN
  have hlen : s.mon.N ≤ s.chain.acc.length := by rw [hc.1]; exact hN
  obtain ⟨hviols, -, -, -, -, hflag⟩ := raised_latch none s
  rw [frameDiags_eq] at hviols hflag
  refine ⟨latch none s, loadedFrame s, rfl, fun k hk => loadedLat_getD hk hlen, fun k hk => loadedLat_kept hc hk,
    by simp, rfl, loadedFrame_length hc hN, fun i hi => loadedFrame_get hc hN hi, latch_frames none s,
    by rw [latch_out_eq], by rw [latch_out_eq]; rfl, by rw [latch_out_eq], fun hb => ?_, fun hb => ?_,
    latch_cfg none s, latch_enc none s, latch_hold none s, latch_mon none s, latch_tick none s, latch_env none s⟩
  · rw [if_pos hb] at hviols hflag
    exact ⟨by simpa using hviols, by simpa using hflag, by rw [latch_out_eq, if_pos hb]; exact BitVec.or_zero⟩
  · rw [if_neg hb] at hviols hflag
    exact ⟨by simpa [Diag.code] using hflag, by rw [latch_out_eq, if_neg hb], hviols⟩

/-- A load after a load finds its latches as they are (R126). -/
theorem loadedLat_latch (ts : Option Nat) {s : State} (hN : s.mon.N ≤ s.chain.acc.length) :
    loadedLat (latch ts s) = loadedLat s := by
  have hlen : ((s.chain.acc.take s.mon.N).map unpackWord).length = s.mon.N := by simp [hN]
  simp only [loadedLat, latch_mon, latch_chain, loadChain_acc, loadChain_lat]
  rw [List.drop_left' hlen]

/-- DEC.TIMEOUT, where it is selected, is the latch of the frame (R133). -/
theorem execDecTimeout_next {ts : Nat} {level : Bool} {s t : State} : exec (.decTimeout ts level) s = .next t ↔
    s.mon.lastTs ≤ ts ∧ (s.mon.cfgSet = true ∧ timeoutDue ts s = true) ∧ latchFrame ts (acceptTs ts s) = t := by
  simp only [exec, execDecTimeout, inOrder_next, selectedWhen_next]

/-- Settles O33: the second load finds the same accumulators and latches, and no bit; DEC's load has a bit where R43 holds. -/
theorem secondLoadChangesNoValue : Obligations.SecondLoadChangesNoValue := by
  constructor
  · intro s t u hc h1 hN ht hu
    obtain rfl := Host.Outcome.next.inj ht
    obtain rfl := Host.Outcome.next.inj hu
    have hlat : loadedLat (latch none s) = loadedLat s := loadedLat_latch none (by rw [hc.1]; exact hN)
    have hmon : (latch none s).mon.N = s.mon.N := by rw [latch_mon]
    have hbits : (latch none s).chain.bitsSinceLoad = 0 := rfl
    have hcomplete : ¬ (latch none s).chain.bitsSinceLoad = 24 * (latch none s).mon.N := by rw [hbits, hmon]; omega
    refine ⟨hlat, by simp, ?_, ?_, ?_⟩
    · rw [latch_out_eq none (latch none s), latch_out_eq none s]
      simp only [loadedFrame, hlat, hmon]
    · rw [latch_out_eq, frameIsComplete_eq, decide_eq_false hcomplete]
    · rw [(raised_latch none (latch none s)).viols, frameDiags_eq, if_neg hcomplete, hbits, hmon]
  · intro s t ts level hpending h
    obtain ⟨-, ⟨-, hdue⟩, rfl⟩ := execDecTimeout_next.1 h
    have hp : s.mon.pending = true := by simp only [timeoutDue, Bool.and_eq_true] at hdue; exact hdue.1.2
    exact ⟨hpending hp, rfl, by rw [(raised_latchFrame ts _).viols, frameDiags_eq]; rfl⟩

end Sys2Proof.Machine
end

section
/-! PROOFS. The formats on the monitor's wire: cells, words, the gap, a whole frame (30_encoding.md R71 to R74, R85; R158's second
half). -/

namespace Sys2Proof.Machine

/-! ### Reports -/

theorem execAll_cons {i : Instr} {is : List Instr} {s t : State} (h : exec i s = .next t) : execAll (i :: is) s = execAll is t := by
  rw [execAll, h, andThen_next_left]

theorem execAll_single (i : Instr) (s : State) : execAll [i] s = exec i s := by
  cases h : exec i s <;> simp [execAll, h, andThen]

/-- A pulse is the report of its rise and the report of its fall (R85). -/
theorem pulse_eq_execAll (t0 h : Nat) (s : State) : pulse t0 h s = execAll [.report t0 true, .report (t0 + h) false] s := by
  cases hr : processReport t0 true s with
  | next s1 =>
    have he : exec (.report t0 true) s = .next s1 := hr
    rw [execAll_cons he, execAll_single, pulse, hr]; rfl
  | fault e => cases e
  | refused e =>
    have he : exec (.report t0 true) s = .refused e := hr
    rw [pulse, hr, execAll, he]; rfl

/-- The two reports of a pulse run when the first is in order. -/
theorem pulse_runs {t0 : Nat} (h : Nat) {s : State} (h0 : s.mon.lastTs ≤ t0) : ∃ t, pulse t0 h s = .next t := by
  have hrise : processReport t0 true s = .next _ := processReport_next.2 ⟨h0, rfl⟩
  obtain ⟨-, -, -, -, hlast, -⟩ := processReport_config hrise
  exact ⟨_, andThen_next.2 ⟨_, hrise, processReport_next.2 ⟨by omega, rfl⟩⟩⟩

/-- Settles O55: a cell is the pulse of its high time, `S` or `2 * S`. -/
theorem cellIsTwoReports : Obligations.CellIsTwoReports := by
  intro s t0 h0
  have hcell : ∀ b, ∃ t, wireCell b t0 s = .next t ∧
      execAll [.report t0 true, .report (t0 + highTime b s.mon.S) false] s = .next t := fun b => by
    obtain ⟨t, ht⟩ := pulse_runs (highTime b s.mon.S) h0
    exact ⟨t, ht, (pulse_eq_execAll _ _ _).symm.trans ht⟩
  have hzero : highTime false s.mon.S = s.mon.S := Nat.one_mul _
  exact ⟨hzero ▸ hcell false, hcell true⟩

/-- With the low time above `120 * S` and bits pending, the report of a low wire latches and does nothing more (R133, R142). -/
theorem takeReport_latches {ts : Nat} {s : State} (hp : s.mon.phase = .low) (hpending : s.mon.pending = true)
    (hlow : 120 * s.mon.S < ts - s.mon.fallTs) : takeReport ts false s = latchFrame ts (acceptTs ts s.clearOut) := by
  have hdue : timeoutDue ts (acceptTs ts s.clearOut) = true := by
    simp [timeoutDue, hp, hpending, (latchExceeded_iff _ _).2 hlow]
  have hheld : heldLevel (latchFrame ts (acceptTs ts s.clearOut)) = false := by simp [heldLevel, latchFrame_mon, hp]
  simp only [takeReport, hdue, if_true, takeLevel, hheld]

/-- The outputs of the report that latches (R39, R133). -/
theorem latchFrame_out (ts : Nat) (s : State) : (latchFrame ts s).out = { (latch (some ts) s).out with frameValid := true } := rfl

theorem takeReport_latches_frames {ts : Nat} {s : State} (h : takeReport ts false s = latchFrame ts (acceptTs ts s.clearOut)) :
    (takeReport ts false s).log.frames =
      s.log.frames ++ [{ ts := some ts, frame := loadedFrame s, complete := frameIsComplete s }] := by
  rw [h, latchFrame_frames]; rfl

/-- The report that latches a full chain of words emits the words' pixels, complete, and raises nothing (R123 to R125). -/
theorem takeReport_latches_words {ts : Nat} {s : State} {pxs : List Pixel} (hp : s.mon.phase = .low) (hpending : s.mon.pending = true)
    (hlow : 120 * s.mon.S < ts - s.mon.fallTs) (hchain : ChainInv s)
    (hacc : s.chain.acc.take s.mon.N = (pxs.map pixelWord).reverse) (hlen : pxs.length = s.mon.N)
    (hbits : s.chain.bitsSinceLoad = 24 * s.mon.N) :
    (takeReport ts false s).log.frames = s.log.frames ++ [{ ts := some ts, frame := pxs, complete := true }] ∧
    Raised s (takeReport ts false s) [] ∧ (takeReport ts false s).mon = { s.mon with pending := false, lastTs := ts } ∧
    (takeReport ts false s).chain.bitsSinceLoad = 0 ∧ ChainInv (takeReport ts false s) := by
  have hlatch := takeReport_latches hp hpending hlow
  have hraised : Raised s (latchFrame ts (acceptTs ts s.clearOut)) (frameDiags (some ts) s) := by
    obtain ⟨h, h0, h1, h2, h3, h4⟩ := raised_latchFrame ts (acceptTs ts s.clearOut)
    exact ⟨h, h0, h1, h2, h3, h4⟩
  rw [frameDiags_eq, if_pos hbits] at hraised
  refine ⟨?_, by rw [hlatch]; exact hraised, by rw [hlatch, latchFrame_mon]; rfl, by rw [hlatch]; rfl, ?_⟩
  · rw [takeReport_latches_frames hlatch, loadedFrame_of_words hacc hlen, frameIsComplete_eq, decide_eq_true hbits]
  · rw [hlatch]; simp [ChainInv, hchain]

/-- Settles O57: the gap's report finds a low time above `120 * S`, counted from a fall before the end of the cell. -/
theorem gapLatches : Obligations.GapLatches := by
  intro s t0 extra h0 hc hp hpending hfall
  have hlatch := takeReport_latches (ts := t0 + 120 * s.mon.S + extra) hp hpending (by omega)
  have hrun : exec (.frameGap t0 extra) s = .next (takeReport (t0 + 120 * s.mon.S + extra) false s) :=
    processReport_next.2 ⟨by omega, by rw [if_pos hc]⟩
  have hframe : (takeReport (t0 + 120 * s.mon.S + extra) false s).out.frame = loadedFrame s := by rw [hlatch]; rfl
  have hcomplete : (takeReport (t0 + 120 * s.mon.S + extra) false s).out.frameComplete = frameIsComplete s := by rw [hlatch]; rfl
  refine ⟨_, hrun, by rw [hlatch, latchFrame_mon], by rw [hlatch]; rfl, ?_, hcomplete⟩
  rw [takeReport_latches_frames hlatch, hframe, hcomplete]

/-! ### Words -/

/-- The bits `w[n-1]`, ..., `w[0]`. -/
def lowBits (w : PixelWord) : Nat → List Bool
  | 0 => []
  | n + 1 => w.getLsbD n :: lowBits w n

theorem wordBits_eq_lowBits (w : PixelWord) : wordBits w = lowBits w 24 := rfl

/-- A cell may begin at `t0`: the wire is low, the report is in order, and with bits pending it is exactly a bit period after the last
rise, whose pulse has fallen (R73, R134). -/
structure ReadyForCell (t0 : Nat) (s : State) : Prop where
  configured : s.mon.cfgSet = true
  positive : 1 ≤ s.mon.S
  low : s.mon.phase ≠ .high
  inOrder : s.mon.lastTs ≤ t0
  inTime : s.mon.pending = true → s.mon.phase = .low ∧ t0 = s.mon.riseTs + 3 * s.mon.S ∧ s.mon.riseTs ≤ s.mon.fallTs

/-- The machine after the reports of cells of the bits `bs`, the last rise at `rise`, the last bit `b`. -/
def afterCells (s : State) (bs : List Bool) (rise : Nat) (b : Bool) : State :=
  { s with
    out := ReportOut.none
    chain := chainAfter s.mon.N bs s.chain
    mon := { s.mon with
      riseTs := rise, lastTs := rise + highTime b s.mon.S, pending := true, fallTs := rise + highTime b s.mon.S, phase := .low } }

theorem wireCell_ready {t0 : Nat} {s : State} (h : ReadyForCell t0 s) (b : Bool) :
    wireCell b t0 s = .next (afterCells s [b] t0 b) :=
  wireCell_legal b t0 s h.inOrder h.configured h.low h.positive fun hp _ => by
    obtain ⟨-, ht0, hfall⟩ := h.inTime hp
    exact ⟨by omega, by omega⟩

/-- After cells the next one may begin a bit period after the last. -/
theorem readyForCell_afterCells {s : State} (hc : s.mon.cfgSet = true) (hS : 1 ≤ s.mon.S) (bs : List Bool) (rise : Nat) (b : Bool) :
    ReadyForCell (rise + 3 * s.mon.S) (afterCells s bs rise b) := by
  have hb := highTime_bounds b s.mon.S
  exact ⟨hc, hS, by simp [afterCells], by simp only [afterCells]; omega,
    fun _ => ⟨rfl, rfl, Nat.le_add_right _ _⟩⟩

/-- Cells one after another, each exactly in time: their bits are shifted in and nothing is raised (R73). -/
theorem wireCells_ready (w : PixelWord) (n : Nat) {t0 : Nat} {s : State} (h : ReadyForCell t0 s) :
    wireCells w s.mon.S (n + 1) t0 s = .next (afterCells s (lowBits w (n + 1)) (t0 + 3 * s.mon.S * n) (w.getLsbD 0)) := by
  induction n generalizing t0 s with
  | zero => rw [wireCells, wireCell_ready h, andThen_next_left]; rfl
  | succ n ih =>
    have hnext := readyForCell_afterCells h.configured h.positive [w.getLsbD (n + 1)] t0 (w.getLsbD (n + 1))
    have hlast : t0 + 3 * s.mon.S * (n + 1) = t0 + 3 * s.mon.S + 3 * s.mon.S * n := by rw [Nat.mul_succ]; omega
    rw [wireCells, wireCell_ready h, andThen_next_left, hlast]
    exact ih hnext

/-- The machine after WORD.PIXEL between frames or in time. -/
theorem execWordPixel_ready (px : Pixel) {t0 : Nat} {s : State} (h : ReadyForCell t0 s) : exec (.wordPixel px t0) s =
    .next (afterCells s (wordBits (pixelWord px)) (t0 + 69 * s.mon.S) ((pixelWord px).getLsbD 0)) := by
  have hcells := wireCells_ready (pixelWord px) 23 h
  rw [← wordBits_eq_lowBits, show 3 * s.mon.S * 23 = 69 * s.mon.S by omega] at hcells
  exact hcells

/-- Settles O56: the 24 cells of the word, each in time after the one before. -/
theorem wordOnTheWire : Obligations.WordOnTheWire := by
  intro s px t0 h0 hc hp hS hpending
  exact ⟨_, execWordPixel_ready px ⟨hc, hS, hp, h0, hpending⟩, execAll_chainShift_eq _ s, rfl, rfl, rfl, rfl, rfl, rfl, rfl, rfl, rfl⟩

/-! ### Frames -/

/-- The words of pixels on the wire, and the gap after them. -/
theorem execAll_wireFrame (pxs : List Pixel) {t0 : Nat} {s : State} (h : ReadyForCell t0 s) (hne : pxs ≠ []) :
    ∃ b, execAll (wireFrame s.mon.S t0 pxs) s = exec (.frameGap (t0 + 72 * s.mon.S * pxs.length) 0)
      (afterCells s ((pxs.map pixelWord).flatMap wordBits) (t0 + 72 * s.mon.S * pxs.length - 3 * s.mon.S) b) := by
  induction pxs generalizing t0 s with
  | nil => exact absurd rfl hne
  | cons px rest ih =>
    have hword := execWordPixel_ready px h
    generalize (pixelWord px).getLsbD 0 = b at hword
    have hend : t0 + 69 * s.mon.S + 3 * s.mon.S = t0 + 72 * s.mon.S := by omega
    have hnext := readyForCell_afterCells h.configured h.positive (wordBits (pixelWord px)) (t0 + 69 * s.mon.S) b
    rw [hend] at hnext
    rw [wireFrame, execAll_cons hword]
    cases rest with
    | nil =>
      refine ⟨b, ?_⟩
      rw [wireFrame, execAll_single]
      have hrise : t0 + 72 * s.mon.S * [px].length - 3 * s.mon.S = t0 + 69 * s.mon.S := by rw [List.length_singleton]; omega
      rw [hrise]
      simp
    | cons px' rest =>
      obtain ⟨b', hrest⟩ := ih hnext (List.cons_ne_nil _ _)
      refine ⟨b', hrest.trans ?_⟩
      have hlen : t0 + 72 * s.mon.S + 72 * s.mon.S * (px' :: rest).length = t0 + 72 * s.mon.S * (px :: px' :: rest).length := by
        rw [List.length_cons (a := px), Nat.mul_succ]; omega
      rw [show (afterCells s (wordBits (pixelWord px)) (t0 + 69 * s.mon.S) b).mon.S = s.mon.S from rfl, hlen]
      simp only [afterCells, List.map_cons, List.flatMap_cons, chainAfter_append]

/-- The gap after the words of a full frame decodes it (R64, R74, R123 to R125). -/
theorem frameGap_decodes {T : Nat} {s : State} {pxs : List Pixel} (hc : s.mon.cfgSet = true) (h0 : s.mon.lastTs ≤ T)
    (hp : s.mon.phase = .low) (hpending : s.mon.pending = true) (hfall : s.mon.fallTs < T) (hchain : ChainInv s)
    (hacc : s.chain.acc.take s.mon.N = (pxs.map pixelWord).reverse) (hlen : pxs.length = s.mon.N)
    (hbits : s.chain.bitsSinceLoad = 24 * s.mon.N) :
    ∃ t, exec (.frameGap T 0) s = .next t ∧
      t.log.frames = s.log.frames ++ [{ ts := some (T + 120 * s.mon.S), frame := pxs, complete := true }] ∧
      Raised s t [] ∧ t.mon = { s.mon with pending := false, lastTs := T + 120 * s.mon.S } ∧
      t.chain.bitsSinceLoad = 0 ∧ ChainInv t :=
  ⟨takeReport (T + 120 * s.mon.S) false s, processReport_next.2 ⟨by omega, (if_pos hc).symm⟩,
    takeReport_latches_words hp hpending (by omega) hchain hacc hlen hbits⟩

/-- Settles O58: the words fill the chain with the frame's pixels, and the gap's report latches them. -/
theorem monitorDecodesLegalFrame : Obligations.MonitorDecodesLegalFrame := by
  intro s pxs t0 hchain hc hS h1 hN hlen hpending hbits hp h0
  have hne : pxs ≠ [] := by rintro rfl; simp at hlen; omega
  obtain ⟨b, hrun⟩ := execAll_wireFrame pxs ⟨hc, hS, hp, h0, fun h => by simp [hpending] at h⟩ hne
  have hbounds := highTime_bounds b s.mon.S
  have hlong : 3 * s.mon.S ≤ 72 * s.mon.S * pxs.length := by
    have : 72 * s.mon.S * 1 ≤ 72 * s.mon.S * pxs.length := Nat.mul_le_mul_left _ (by omega)
    omega
  have hwords : ((pxs.map pixelWord).length) = s.mon.N := by simp [hlen]
  have hroom : s.mon.N ≤ s.chain.acc.length := by rw [hchain.1]; exact hN
  obtain ⟨hacc, hcount⟩ := chainAfter_words (pxs.map pixelWord) s.chain (hwords ▸ hroom)
  rw [hwords] at hacc hcount
  rw [hlen] at hrun hlong
  have hinv : ChainInv (afterCells s ((pxs.map pixelWord).flatMap wordBits) (t0 + 72 * s.mon.S * s.mon.N - 3 * s.mon.S) b) := by
    have hroom' : min s.mon.N s.chain.acc.length + (s.chain.acc.length - s.mon.N) = s.chain.acc.length := by omega
    simpa [ChainInv, afterCells, chainAfter_eq _ _ _ hroom, hroom'] using hchain
  obtain ⟨t, hgap, hframes, hraised, hmon, hload, hinv'⟩ := frameGap_decodes (T := t0 + 72 * s.mon.S * s.mon.N) (pxs := pxs)
    (s := afterCells s ((pxs.map pixelWord).flatMap wordBits) (t0 + 72 * s.mon.S * s.mon.N - 3 * s.mon.S) b)
    hc (by simp only [afterCells]; omega) rfl rfl (by simp only [afterCells]; omega) hinv hacc hlen (hcount.trans (by rw [hbits, Nat.zero_add]; rfl))
  refine ⟨t, hrun.trans hgap, hframes, by rw [hraised.viols, List.append_nil]; rfl, by rw [hmon], hload, by rw [hmon]; simp [afterCells],
    by rw [hmon]; rfl, hinv', by rw [hmon]; exact hc, by rw [hmon]; rfl, by rw [hmon]; rfl⟩

end Sys2Proof.Machine
end

section
/-! PROOFS. The wire of a pixel, tick by tick, of any machine without inputs (40_encoder.md R107 to R110, R119). -/

namespace Sys2Proof.Machine

/-! ### One cell -/

/-- The first tick of a cell: the high part begins (R104, R109). -/
structure BeginsCell (e : EncRegs) : Prop where
  high : e.phase = .high
  timer : e.tmr = highTime (topBit e.word) e.S - 1
  positive : 1 ≤ e.S

/-- The encoder's registers at the first tick of a cell are those `cellEnc` gives for tick 0. -/
theorem cellEnc_zero {s : State} (h : BeginsCell s.enc) : cellEnc s 0 = s.enc := by
  have hb := cellHigh_bounds s
  have hp := h.positive
  have hpos : 0 < cellHigh s := by omega
  rw [cellEnc, if_pos hpos, if_pos hpos, Nat.sub_zero, cellHigh, ← h.timer, ← h.high]

/-- Inside a cell that `s` began, the selected operation counts down or ends the high part (R107, R108, R110). -/
theorem encMove_inside_cell {s u : State} {k : Nat} (hk : k + 1 < 3 * s.enc.S) (hu : u.enc = cellEnc s k) :
    exec (encOp u) u = .next { u with enc := cellEnc s (k + 1) } := by
  have hb := cellHigh_bounds s
  have hlow := highTime_add_lowTime (topBit s.enc.word) s.enc.S
  have hhigh : cellHigh s = highTime (topBit s.enc.word) s.enc.S := rfl
  by_cases h1 : k < cellHigh s
  · have he : u.enc = { s.enc with phase := .high, tmr := cellHigh s - 1 - k } := by rw [hu, cellEnc, if_pos h1, if_pos h1]
    by_cases h2 : k + 1 < cellHigh s
    · have hpos : 0 < cellHigh s - 1 - k := by omega
      simp [encOp, exec, execEncHighTick, he, hpos, cellEnc, h2]
      omega
    · have hzero : cellHigh s - 1 - k = 0 := by omega
      simp [encOp, exec, execEncHighEnd, he, hzero, cellEnc, h2]
      omega
  · have he : u.enc = { s.enc with phase := .low, tmr := 3 * s.enc.S - 1 - k } := by rw [hu, cellEnc, if_neg h1, if_neg h1]
    have hpos : 0 < 3 * s.enc.S - 1 - k := by omega
    have h2 : ¬ k + 1 < cellHigh s := by omega
    simp [encOp, exec, execEncLowTick, he, hpos, cellEnc, h2]
    omega

/-- The encoder `k` ticks into a cell, with or without a monitor. -/
theorem cell_ticks {s : State} (h : Undisturbed s) (hb : BeginsCell s.enc) (k : Nat) (hk : k < 3 * s.enc.S) :
    ∃ t, core.run k s = .next t ∧ t.enc = cellEnc s k ∧ t.cfg = s.cfg ∧ Undisturbed t := by
  induction k with
  | zero => exact ⟨s, rfl, (cellEnc_zero hb).symm, rfl, h⟩
  | succ k ih =>
    obtain ⟨t, hrun, henc, hcfg, ht⟩ := ih (by omega)
    obtain ⟨u, hstep, huenc, hucfg, hu⟩ := step_undisturbed ht (encMove_inside_cell hk henc)
    exact ⟨u, by rw [core_run_add hrun, core_run_one hstep], huenc, hucfg.trans hcfg, hu⟩

/-- At the last tick of a cell the encoder is in the low part, with its timer run down. -/
theorem cellEnc_last {s : State} (hS : 1 ≤ s.enc.S) :
    cellEnc s (3 * s.enc.S - 1) = { s.enc with phase := .low, tmr := 0 } := by
  have hb := cellHigh_bounds s
  have h : ¬ 3 * s.enc.S - 1 < cellHigh s := by omega
  rw [cellEnc, if_neg h, if_neg h, Nat.sub_self]

/-! ### The cells of a pixel -/

/-- The encoder at the first tick of the cell `j` bits on (R109). -/
def bitEnc (e : EncRegs) (j : Nat) : EncRegs :=
  { e with word := e.word <<< j, cnt := e.cnt - j, phase := .high, tmr := highTime (topBit (e.word <<< j)) e.S - 1 }

theorem bitEnc_zero {e : EncRegs} (h : BeginsCell e) : bitEnc e 0 = e := by
  simp only [bitEnc, BitVec.shiftLeft_zero, Nat.sub_zero, ← h.timer, ← h.high]

theorem beginsCell_bitEnc {e : EncRegs} (h : BeginsCell e) (j : Nat) : BeginsCell (bitEnc e j) := ⟨rfl, rfl, h.positive⟩

/-- ENC.NEXT_BIT at the last tick of a cell begins the next bit's (R109). -/
theorem nextBit_of_cell {e : EncRegs} {j : Nat} (hj : j < e.cnt) {u : State}
    (hu : u.enc = { bitEnc e j with phase := .low, tmr := 0 }) :
    exec (encOp u) u = .next { u with enc := bitEnc e (j + 1) } := by
  have hcnt : 0 < e.cnt - j := by omega
  have hop : encOp u = .encNextBit := by simp [encOp, hu, bitEnc, hcnt]
  have hmove := EncMove.nextBit (s := u) (by rw [hu]) (by rw [hu]) (by rw [hu]; exact hcnt)
  rw [hop, exec_of_encMove hmove, withEnc_nil, hu]
  simp [bitEnc, BitVec.shiftLeft_add, Nat.sub_sub]

/-- From the first tick of a pixel to that of its cell `j`. -/
theorem pixel_cells {s : State} (h : Undisturbed s) (hb : BeginsCell s.enc) (j : Nat) (hj : j ≤ s.enc.cnt) :
    ∃ t, core.run (3 * s.enc.S * j) s = .next t ∧ t.enc = bitEnc s.enc j ∧ t.cfg = s.cfg ∧ Undisturbed t := by
  induction j with
  | zero => exact ⟨s, rfl, (bitEnc_zero hb).symm, rfl, h⟩
  | succ j ih =>
    obtain ⟨t, hrun, henc, hcfg, ht⟩ := ih (by omega)
    have htb : BeginsCell t.enc := henc ▸ beginsCell_bitEnc hb j
    have hS : t.enc.S = s.enc.S := by rw [henc]; rfl
    have hpos := hb.positive
    obtain ⟨u, hrunu, huenc, hucfg, hu⟩ := cell_ticks ht htb (3 * s.enc.S - 1) (by omega)
    have hlast : u.enc = { bitEnc s.enc j with phase := .low, tmr := 0 } := by
      rw [huenc, ← hS, cellEnc_last htb.positive, henc]
    obtain ⟨v, hstep, hvenc, hvcfg, hv⟩ := step_undisturbed hu (nextBit_of_cell (by omega) hlast)
    refine ⟨v, ?_, hvenc, hvcfg.trans (hucfg.trans hcfg), hv⟩
    rw [show 3 * s.enc.S * (j + 1) = 3 * s.enc.S * j + ((3 * s.enc.S - 1) + 1) by rw [Nat.mul_succ]; omega,
      core_run_add hrun, core_run_add hrunu, core_run_one hstep]

theorem topBit_shiftLeft (w : PixelWord) {j : Nat} (hj : j < 24) : topBit (w <<< j) = w.getLsbD (23 - j) := by
  unfold topBit
  rw [BitVec.getLsbD_shiftLeft]
  simp [show ¬ 23 < j by omega]

/-- The wire and `ready` at tick `k` of a cell (R101, R102, R119). -/
theorem outputs_in_cell {s t : State} {k : Nat} (hk : k < 3 * s.enc.S) (ht : t.enc = cellEnc s k) :
    t.wire = decide (k < cellHigh s) ∧ (t.ready = true ↔ s.enc.cnt = 0 ∧ k = 3 * s.enc.S - 1 ∧ s.enc.last = false) := by
  have hb := cellHigh_bounds s
  by_cases h : k < cellHigh s
  · have he : t.enc.phase = .high := by rw [ht, cellEnc, if_pos h]
    rw [ready_of_high he, wire_of_high he, decide_eq_true h]
    exact ⟨rfl, fun h => by simp at h, fun h => by omega⟩
  · have he : t.enc = { s.enc with phase := .low, tmr := 3 * s.enc.S - 1 - k } := by rw [ht, cellEnc, if_neg h, if_neg h]
    refine ⟨by rw [wire_of_ne_high (by simp [he]), decide_eq_false h], ?_⟩
    simp only [ready_iff, he, reduceCtorEq, false_and, true_and, false_or, or_false]
    have hlast : 3 * s.enc.S - 1 - k = 0 ↔ k = 3 * s.enc.S - 1 := by omega
    rw [hlast]
    exact ⟨fun ⟨h1, h2, h3⟩ => ⟨h2, h1, h3⟩, fun ⟨h1, h2, h3⟩ => ⟨h2, h1, h3⟩⟩

/-- Settles O30: to cell `j` by induction over the cells, and to its tick `k` by induction over the ticks. -/
theorem pixelOnTheWire : Obligations.PixelOnTheWire := by
  intro s hpending horder hS hp hcnt htmr j k hj hk
  have hb : BeginsCell s.enc := ⟨hp, by rw [htmr, highTime_eq]; rfl, hS⟩
  obtain ⟨u, hrun, henc, -, hu⟩ := pixel_cells ⟨hpending, horder⟩ hb j (by omega)
  have hSu : u.enc.S = s.enc.S := by rw [henc]; rfl
  obtain ⟨t, hrunt, htenc, -⟩ := cell_ticks hu (henc ▸ beginsCell_bitEnc hb j) k (by omega)
  obtain ⟨hwire, hready⟩ := outputs_in_cell (by omega) htenc
  have hhigh : cellHigh u = (1 + (s.enc.word.getLsbD (23 - j)).toNat) * s.enc.S := by
    unfold cellHigh
    rw [highTime_eq, henc, ← topBit_shiftLeft _ hj]; rfl
  refine ⟨t, by rw [core_run_add hrun, hrunt], by rw [hwire, hhigh], ?_⟩
  rw [hready, hSu, henc]
  simp only [bitEnc, hcnt]
  rw [show 23 - j = 0 ↔ j = 23 by omega]

end Sys2Proof.Machine
end

section
/-! PROOFS. The round trip: the encoder's frames as the attached monitor decodes them (R158, R200; log 25). -/

namespace Sys2Proof.Machine

/-! ### What a quiet run keeps -/

/-- From `s` to `t` nothing is raised and nothing of the configuration, the facade or the outside world but the queue changes. -/
structure Kept (s t : State) : Prop where
  cfg : t.cfg = s.cfg
  hold : t.hold = s.hold
  monS : t.mon.S = s.mon.S
  monN : t.mon.N = s.mon.N
  cfgSet : t.mon.cfgSet = s.mon.cfgSet
  tsBase : t.mon.tsBase = s.mon.tsBase
  env : t.env = { s.env with stream := t.env.stream }
  raised : Raised s t []

/-- The machine runs from `s` to `t` in `n` steps, each a tick, and keeps what `Kept` says. -/
structure Advances (s t : State) (n : Nat) : Prop where
  run : core.run n s = .next t
  ticks : t.tick = s.tick + n
  kept : Kept s t

theorem Kept.refl (s : State) : Kept s s := ⟨rfl, rfl, rfl, rfl, rfl, rfl, rfl, .refl s⟩

theorem Kept.trans {s t u : State} (h : Kept s t) (h' : Kept t u) : Kept s u where
  cfg := h'.cfg.trans h.cfg
  hold := h'.hold.trans h.hold
  monS := h'.monS.trans h.monS
  monN := h'.monN.trans h.monN
  cfgSet := h'.cfgSet.trans h.cfgSet
  tsBase := h'.tsBase.trans h.tsBase
  env := by rw [h'.env, h.env]
  raised := h.raised.trans h'.raised

theorem Advances.refl (s : State) : Advances s s 0 := ⟨rfl, rfl, .refl s⟩

theorem Advances.trans {s t u : State} {m n : Nat} (h : Advances s t m) (h' : Advances t u n) : Advances s u (m + n) :=
  ⟨(core_run_add h.run).trans h'.run, by rw [h'.ticks, h.ticks, Nat.add_assoc], h.kept.trans h'.kept⟩

theorem Advances.reportTime {s t : State} {n : Nat} (h : Advances s t n) : t.reportTime = s.reportTime + n := by
  rw [State.reportTime, State.reportTime, h.kept.tsBase, h.ticks, Nat.add_assoc]

/-- Quiet stays quiet while what `Kept` says is kept and no report is late. -/
theorem Quiet.of_kept {s t : State} (q : Quiet s) (h : Kept s t) (ho : t.mon.lastTs ≤ t.reportTime) : Quiet t where
  noInputs := by rw [h.env]; exact q.noInputs
  noneHeld := by rw [h.env]; exact q.noneHeld
  noHold := by rw [h.hold]; exact q.noHold
  attached := by rw [h.env]; exact q.attached
  configured := h.cfgSet.trans q.configured
  inOrder := ho

/-! ### The stream inputs -/

/-- Items queued to be presented at once (R84 `PIX`). -/
def queuedItems (its : List Item) : List Queued := its.map fun it => { notBefore := 0, item := it }

theorem queuedFrames_cons (f : List Pixel) (fs : List (List Pixel)) :
    queuedFrames (f :: fs) = queuedItems (frameItems 0 f) ++ queuedFrames fs := rfl

/-- The item at position `i` of a frame, `rest` being the pixels after it (R77). -/
def pixelItemAt (i : Nat) (px : Pixel) (rest : List Pixel) : Item :=
  { red := px.red, green := px.green, blue := px.blue, pos := BitVec.ofNat 4 i, first := decide (i = 0), last := rest.isEmpty }

theorem queuedItems_frameItems_cons (i : Nat) (px : Pixel) (rest : List Pixel) :
    queuedItems (frameItems i (px :: rest)) = { notBefore := 0, item := pixelItemAt i px rest } :: queuedItems (frameItems (i + 1) rest) :=
  rfl

theorem presented_of_queue {s : State} {it : Item} {q : List Queued} (hh : s.hold.valid = false)
    (hs : s.env.stream = { notBefore := 0, item := it } :: q) : s.presented = some it := by simp [State.presented, hh, hs]

theorem presented_of_empty {s : State} (hh : s.hold.valid = false) (hs : s.env.stream = []) : s.presented = none := by
  simp [State.presented, hh, hs]

theorem pixelItemAt_pos {i : Nat} (hi : i < 16) (px : Pixel) (rest : List Pixel) : (pixelItemAt i px rest).pos.toNat = i := by
  simp [pixelItemAt, Nat.mod_eq_of_lt hi]

/-- The items of a frame are accepted in their order (R103). -/
theorem itemOk_pixelItemAt {i N : Nat} {px : Pixel} {rest : List Pixel} (hN : N ≤ 16) (hlen : i + 1 + rest.length = N) :
    itemOk (pixelItemAt i px rest) N i = true := by
  have hpos := pixelItemAt_pos (i := i) (by omega) px rest
  rw [itemOk_iff, hpos]
  refine ⟨rfl, rfl, ?_⟩
  show rest.isEmpty = decide (i = N - 1)
  cases rest with
  | nil => simpa using by simp at hlen; omega
  | cons px' rest => simp at hlen ⊢; omega

/-! ### The cells of a pixel, as the attached monitor sees them -/

/-- The machine after a cell in whose last tick the encoder goes on as `e` and the queue as `q`. -/
def afterCell (s : State) (e : EncRegs) (q : List Queued) : State :=
  { s with
    out := ReportOut.none
    enc := e
    chain := (shiftChain (topBit s.enc.word) s).2.chain
    mon := { s.mon with
      lastTs := s.reportTime + 3 * s.enc.S - 1, riseTs := s.reportTime, fallTs := s.reportTime + cellHigh s, pending := true, phase := .low }
    tick := s.tick + 3 * s.enc.S
    env := { s.env with stream := q } }

theorem afterCell_chain (s : State) (e : EncRegs) (q : List Queued) :
    (afterCell s e q).chain = chainAfter s.mon.N [topBit s.enc.word] s.chain := rfl

theorem kept_afterCell (s : State) {e : EncRegs} (q : List Queued) (he : e.seqErr = s.enc.seqErr) : Kept s (afterCell s e q) :=
  ⟨rfl, rfl, rfl, rfl, rfl, rfl, rfl, by constructor <;> simp [afterCell, he]⟩

theorem reportTime_afterCell (s : State) (e : EncRegs) (q : List Queued) :
    (afterCell s e q).reportTime = s.reportTime + 3 * s.enc.S := (Nat.add_assoc _ _ _).symm

theorem quiet_afterCell {s : State} (h : CellStart s) {e : EncRegs} (q : List Queued) (he : e.seqErr = s.enc.seqErr) :
    Quiet (afterCell s e q) :=
  h.quiet.of_kept (kept_afterCell s q he) (by rw [reportTime_afterCell]; exact Nat.sub_le _ _)

/-- Where the last tick of a cell makes the encoder's registers `e`, the cell leads to `afterCell`. -/
theorem cell_advances {s : State} (h : CellStart s) {e : EncRegs} (hseq : e.seqErr = s.enc.seqErr)
    (he : exec (encOp (cellState s (3 * s.enc.S - 1))) (cellState s (3 * s.enc.S - 1)) =
      .next { cellState s (3 * s.enc.S - 1) with enc := e }) :
    Advances s (afterCell s e (if (cellState s (3 * s.enc.S - 1)).transfers then s.env.stream.tail else s.env.stream))
      (3 * s.enc.S) :=
  ⟨cell_end h he, rfl, kept_afterCell s _ hseq⟩

/-- After a cell the next one begins in time, if the encoder begins it (R73). -/
theorem cellStart_afterCell {s : State} (h : CellStart s) {e : EncRegs} (q : List Queued) (hseq : e.seqErr = s.enc.seqErr)
    (hb : BeginsCell e) (hS : e.S = s.enc.S) : CellStart (afterCell s e q) where
  quiet := quiet_afterCell h q hseq
  high := hb.high
  timer := hb.timer
  positive := hb.positive
  same := h.same.trans hS.symm
  low := by simp [afterCell]
  inTime := fun _ _ => by
    have hbounds := cellHigh_bounds s
    have hsame := h.same
    rw [reportTime_afterCell]
    simp only [afterCell]
    omega

theorem cellState_last {s : State} (h : CellStart s) : (cellState s (3 * s.enc.S - 1)).enc = { s.enc with phase := .low, tmr := 0 } :=
  cellEnc_last h.positive

/-- A cell that is not the pixel's last: the next bit's cell begins (R109). -/
theorem cell_to_next_bit {s : State} (h : CellStart s) {e : EncRegs} {j : Nat} (hj : j < e.cnt) (he : s.enc = bitEnc e j) :
    ∃ t, Advances s t (3 * s.enc.S) ∧ CellStart t ∧ t.enc = bitEnc e (j + 1) ∧
      t.chain = chainAfter s.mon.N [topBit (e.word <<< j)] s.chain ∧ t.env.stream = s.env.stream ∧ t.log = s.log := by
  have hlast := cellState_last h
  have hcnt : 0 < s.enc.cnt := by rw [he]; show 0 < e.cnt - j; omega
  have hmove := nextBit_of_cell hj (u := cellState s (3 * s.enc.S - 1)) (by rw [hlast, he])
  have hready := ready_of_low_tick (s := cellState s (3 * s.enc.S - 1)) (by rw [hlast]) (.inr (by rw [hlast]; exact hcnt))
  have hadv := cell_advances h (e := bitEnc e (j + 1)) (by rw [he]; rfl) hmove
  rw [State.transfers, hready, Bool.false_and, if_neg (by simp)] at hadv
  exact ⟨_, hadv, cellStart_afterCell h _ (by rw [he]; rfl) ⟨rfl, rfl, by have := h.positive; rwa [he] at this⟩ (by rw [he]; rfl),
    rfl, by rw [afterCell_chain, he]; rfl, rfl, rfl⟩

theorem wordBits_take_succ (w : PixelWord) {j : Nat} (hj : j < 24) :
    (wordBits w).take (j + 1) = (wordBits w).take j ++ [topBit (w <<< j)] := by
  rw [List.take_add_one, topBit_shiftLeft w hj]
  simp [wordBits, hj]

/-- From the first tick of a pixel to that of its cell `j`: the bits before it are in the chain. -/
theorem cells_advance {s : State} (h : CellStart s) (hcnt : s.enc.cnt = 23) (j : Nat) (hj : j ≤ 23) :
    ∃ t, Advances s t (3 * s.enc.S * j) ∧ CellStart t ∧ t.enc = bitEnc s.enc j ∧
      t.chain = chainAfter s.mon.N ((wordBits s.enc.word).take j) s.chain ∧ t.env.stream = s.env.stream ∧ t.log = s.log := by
  induction j with
  | zero => exact ⟨s, .refl s, h, (bitEnc_zero ⟨h.high, h.timer, h.positive⟩).symm, rfl, rfl, rfl⟩
  | succ j ih =>
    obtain ⟨t, hadv, hcell, henc, hchain, hstream, hlog⟩ := ih (by omega)
    obtain ⟨u, hadvu, hcellu, hencu, hchainu, hstreamu, hlogu⟩ := cell_to_next_bit hcell (by omega) henc
    have hS : t.enc.S = s.enc.S := by rw [henc]; rfl
    refine ⟨u, ?_, hcellu, hencu, ?_, hstreamu.trans hstream, hlogu.trans hlog⟩
    · have := hadv.trans hadvu
      rwa [hS, ← Nat.mul_succ] at this
    · rw [hchainu, hchain, hadv.kept.monN, ← chainAfter_append, wordBits_take_succ _ (by omega)]

/-! ### The pixels of a frame -/

/-- The first tick of the pixel `px` at position `i`, with `rest` after it in its frame and the frames `fs` after that queued. -/
structure PixelStart (i : Nat) (px : Pixel) (rest : List Pixel) (fs : List (List Pixel)) (s : State) : Prop where
  cell : CellStart s
  word : s.enc.word = pixelWord px
  cnt : s.enc.cnt = 23
  last : s.enc.last = rest.isEmpty
  expPos : s.enc.expPos = if rest.isEmpty then 0 else i + 1
  length : i + 1 + rest.length = s.enc.N
  bound : s.enc.N ≤ 16
  queue : s.env.stream = queuedItems (frameItems (i + 1) rest) ++ queuedFrames fs

/-- The first tick of the gap, the frames `fs` queued. -/
structure GapStart (fs : List (List Pixel)) (s : State) : Prop where
  quiet : Quiet s
  gap : s.enc.phase = .gap
  timer : s.enc.tmr = 120 * s.enc.S - 1
  positive : 1 ≤ s.enc.S
  same : s.mon.S = s.enc.S
  low : s.mon.phase = .low
  pending : s.mon.pending = true
  fall : s.mon.fallTs < s.reportTime ∧ s.reportTime ≤ s.mon.fallTs + 2 * s.mon.S
  queue : s.env.stream = queuedFrames fs

/-- A pixel that an accepted item begins, from whatever encoder. -/
theorem pixelStart_of_accepted {i : Nat} {px : Pixel} {rest : List Pixel} {fs : List (List Pixel)} {s t : State}
    (hcell : CellStart t) (henc : t.enc = (beginPixel (pixelItemAt i px rest) s.enc.S s).enc)
    (hlen : i + 1 + rest.length = s.enc.N) (hN : s.enc.N ≤ 16)
    (hq : t.env.stream = queuedItems (frameItems (i + 1) rest) ++ queuedFrames fs) : PixelStart i px rest fs t where
  cell := hcell
  word := by rw [henc]; rfl
  cnt := by rw [henc]; rfl
  last := by rw [henc]; rfl
  expPos := by
    rw [henc]
    show (if rest.isEmpty then 0 else (pixelItemAt i px rest).pos.toNat + 1) = _
    rw [pixelItemAt_pos (by omega)]
  length := by rw [henc]; exact hlen
  bound := by rw [henc]; exact hN
  queue := hq

theorem beginsCell_beginPixel (it : Item) {s : State} (hS : 1 ≤ s.enc.S) : BeginsCell (beginPixel it s.enc.S s).enc :=
  ⟨rfl, rfl, hS⟩

/-- The last cell of a pixel that is not the frame's last: the next item is there, and its pixel begins (R111). -/
theorem last_cell_to_next_pixel {i : Nat} {px' : Pixel} {rest : List Pixel} {fs : List (List Pixel)} {s : State} (h : CellStart s)
    (hcnt : s.enc.cnt = 0) (hl : s.enc.last = false) (hexp : s.enc.expPos = i + 1) (hlen : i + 2 + rest.length = s.enc.N)
    (hN : s.enc.N ≤ 16) (hq : s.env.stream = queuedItems (frameItems (i + 1) (px' :: rest)) ++ queuedFrames fs) :
    ∃ t, Advances s t (3 * s.enc.S) ∧ PixelStart (i + 1) px' rest fs t ∧
      t.chain = chainAfter s.mon.N [topBit s.enc.word] s.chain ∧ t.log = s.log := by
  have hlast := cellState_last h
  generalize hu : cellState s (3 * s.enc.S - 1) = u at hlast
  have hpres : u.presented = some (pixelItemAt (i + 1) px' rest) :=
    presented_of_queue (q := queuedItems (frameItems (i + 2) rest) ++ queuedFrames fs) (by rw [← hu]; exact h.quiet.noHold)
      (by rw [← hu]; exact hq.trans (by rw [queuedItems_frameItems_cons]; rfl))
  have hok : itemOk (pixelItemAt (i + 1) px' rest) u.enc.N u.enc.expPos = true := by
    rw [hlast]; show itemOk _ s.enc.N s.enc.expPos = true
    rw [hexp]; exact itemOk_pixelItemAt hN (by omega)
  have hend : u.pixelEnd = true := by rw [pixelEnd_iff, hlast]; exact ⟨rfl, rfl, hcnt⟩
  have hul : u.enc.last = false := by rw [hlast]; exact hl
  have hmove := EncMove.acceptNext (s := u) _ (.inl ⟨hend, hul⟩) hok
  have hop := encOp_of_encMove hmove (.inr (by rw [hpres]; rfl))
  have hexec : exec (encOp u) u = .next { u with enc := (beginPixel (pixelItemAt (i + 1) px' rest) u.enc.S u).enc } := by
    rw [hop, exec_of_encMove hmove, withEnc_nil]
  have htransfers : u.transfers = true := by simp [State.transfers, State.ready, hend, hul, hpres]
  have hseq : (beginPixel (pixelItemAt (i + 1) px' rest) u.enc.S u).enc.seqErr = s.enc.seqErr := by
    rw [beginPixel_enc_seqErr, hlast]
  have hS : u.enc.S = s.enc.S := by rw [hlast]
  have hNu : u.enc.N = s.enc.N := by rw [hlast]
  subst hu
  have hadv := cell_advances h hseq hexec
  rw [if_pos htransfers, hq] at hadv
  refine ⟨_, hadv, pixelStart_of_accepted (cellStart_afterCell h _ hseq (beginsCell_beginPixel _ (by rw [hS]; exact h.positive)) hS)
    rfl (by rw [hNu]; omega) (by rw [hNu]; exact hN) rfl, rfl, rfl⟩

/-- The last cell of the frame: the gap begins (R115). -/
theorem last_cell_to_gap {fs : List (List Pixel)} {s : State} (h : CellStart s) (hcnt : s.enc.cnt = 0) (hl : s.enc.last = true)
    (hq : s.env.stream = queuedFrames fs) :
    ∃ t, Advances s t (3 * s.enc.S) ∧ GapStart fs t ∧
      t.chain = chainAfter s.mon.N [topBit s.enc.word] s.chain ∧ t.log = s.log := by
  have hlast := cellState_last h
  generalize hu : cellState s (3 * s.enc.S - 1) = u at hlast
  have hexec : exec (encOp u) u = .next { u with enc := { u.enc with phase := .gap, tmr := 120 * u.enc.S - 1 } } := by
    have hp : u.enc.phase = .low := by rw [hlast]
    have ht : u.enc.tmr = 0 := by rw [hlast]
    have hc : u.enc.cnt = 0 := by rw [hlast]; exact hcnt
    have hul : u.enc.last = true := by rw [hlast]; exact hl
    rw [encOp_of_last_low_tick hp ht hc hul, exec_encGapStart hp ht hc hul]
  have htransfers : u.transfers = false := by
    rw [State.transfers, ready_of_low_last (by rw [hlast]) (by rw [hlast]; exact hl), Bool.false_and]
  have hseq : ({ u.enc with phase := .gap, tmr := 120 * u.enc.S - 1 } : EncRegs).seqErr = s.enc.seqErr := by rw [hlast]
  have hS : u.enc.S = s.enc.S := by rw [hlast]
  subst hu
  have hadv := cell_advances h hseq hexec
  rw [if_neg (by simp [htransfers])] at hadv
  have hb := cellHigh_bounds s
  have hpos := h.positive
  have hsame := h.same
  refine ⟨_, hadv, ?_, rfl, rfl⟩
  exact {
    quiet := quiet_afterCell h _ hseq
    gap := rfl
    timer := rfl
    positive := by show 1 ≤ (cellState s (3 * s.enc.S - 1)).enc.S; omega
    same := by show s.mon.S = (cellState s (3 * s.enc.S - 1)).enc.S; omega
    low := rfl
    pending := rfl
    fall := by rw [reportTime_afterCell]; simp only [afterCell]; omega
    queue := hq }

/-- One bit of the pixel is left at its last cell. -/
theorem wordBits_eq_append_last (w : PixelWord) : (wordBits w).take 23 ++ [topBit (w <<< 23)] = wordBits w := by
  rw [← wordBits_take_succ w (by omega), List.take_of_length_le (by rw [wordBits_length])]

/-- From the first tick of a pixel to that of its last cell (R109). -/
theorem pixel_to_last_cell {i : Nat} {px : Pixel} {rest : List Pixel} {fs : List (List Pixel)} {s : State}
    (h : PixelStart i px rest fs s) : ∃ t, Advances s t (69 * s.enc.S) ∧ CellStart t ∧ t.enc = bitEnc s.enc 23 ∧
      chainAfter t.mon.N [topBit t.enc.word] t.chain = chainAfter s.mon.N (wordBits (pixelWord px)) s.chain ∧
      t.env.stream = s.env.stream ∧ t.log = s.log := by
  obtain ⟨t, hadv, hcell, henc, hchain, hstream, hlog⟩ := cells_advance h.cell h.cnt 23 le_rfl
  rw [show 3 * s.enc.S * 23 = 69 * s.enc.S by omega] at hadv
  refine ⟨t, hadv, hcell, henc, ?_, hstream, hlog⟩
  rw [hchain, hadv.kept.monN, ← chainAfter_append, henc, ← h.word]
  exact congrArg (fun bs => chainAfter s.mon.N bs s.chain) (wordBits_eq_append_last s.enc.word)

/-- The pixels that are left of a frame, and then the gap (R104, R109, R111, R115). -/
theorem frame_to_gap {fs : List (List Pixel)} (rest : List Pixel) {i : Nat} {px : Pixel} {s : State}
    (h : PixelStart i px rest fs s) : ∃ t, Advances s t (72 * s.enc.S * (rest.length + 1)) ∧ GapStart fs t ∧ t.enc.S = s.enc.S ∧
      t.chain = chainAfter s.mon.N (((px :: rest).map pixelWord).flatMap wordBits) s.chain ∧ t.log = s.log := by
  induction rest generalizing i px s with
  | nil =>
    obtain ⟨t, hadv, hcell, henc, hchain, hstream, hlog⟩ := pixel_to_last_cell h
    have hS : t.enc.S = s.enc.S := by rw [henc]; rfl
    obtain ⟨u, hadvu, hgap, hchainu, hlogu⟩ := last_cell_to_gap hcell (by rw [henc]; show s.enc.cnt - 23 = 0; rw [h.cnt])
      (by rw [henc]; exact h.last) (hstream.trans h.queue)
    have hsum : 69 * s.enc.S + 3 * t.enc.S = 72 * s.enc.S * (([] : List Pixel).length + 1) := by simp; omega
    refine ⟨u, hsum ▸ hadv.trans hadvu, hgap, ?_, ?_, hlogu.trans hlog⟩
    · have h1 := hgap.same
      have h2 := h.cell.same
      rw [hadvu.kept.monS, hadv.kept.monS] at h1
      omega
    · rw [hchainu, hchain]; simp
  | cons px' rest ih =>
    obtain ⟨t, hadv, hcell, henc, hchain, hstream, hlog⟩ := pixel_to_last_cell h
    have hS : t.enc.S = s.enc.S := by rw [henc]; rfl
    have hlen := h.length
    rw [List.length_cons] at hlen
    obtain ⟨u, hadvu, hpixel, hchainu, hlogu⟩ := last_cell_to_next_pixel (i := i) hcell
      (by rw [henc]; show s.enc.cnt - 23 = 0; rw [h.cnt]) (by rw [henc]; exact h.last) (by rw [henc]; exact h.expPos)
      (by rw [henc]; show _ = s.enc.N; omega) (by rw [henc]; exact h.bound) (hstream.trans h.queue)
    obtain ⟨v, hadvv, hgap, hSv, hchainv, hlogv⟩ := ih hpixel
    have hSu : u.enc.S = s.enc.S := by
      have h1 := hpixel.cell.same
      have h2 := h.cell.same
      rw [hadvu.kept.monS, hadv.kept.monS] at h1
      omega
    have hsum : 69 * s.enc.S + 3 * t.enc.S + 72 * u.enc.S * (rest.length + 1) = 72 * s.enc.S * ((px' :: rest).length + 1) := by
      rw [hSu, hS, List.length_cons, Nat.mul_succ _ (rest.length + 1)]; omega
    refine ⟨v, hsum ▸ (hadv.trans hadvu).trans hadvv, hgap, hSv.trans hSu, ?_, hlogv.trans (hlogu.trans hlog)⟩
    rw [hchainv, hadvu.kept.monN, hadv.kept.monN, hchainu, hchain, ← chainAfter_append]
    simp [List.flatMap_cons]

/-! ### The monitor on a low wire -/

/-- The monitor has logged the frames `F`, or has them complete but for the latch, which is due at the report after `120 * S` ticks. -/
inductive Decoded (F : List FrameEntry) (s : State) : Prop where
  | settled (hp : s.mon.phase ≠ .high) (hpending : s.mon.pending = false) (hbits : s.chain.bitsSinceLoad = 0) (hchain : ChainInv s)
      (hframes : s.log.frames = F)
  | owing (f : List Pixel) (hp : s.mon.phase = .low) (hpending : s.mon.pending = true)
      (hacc : s.chain.acc.take s.mon.N = (f.map pixelWord).reverse) (hlen : f.length = s.mon.N)
      (hbits : s.chain.bitsSinceLoad = 24 * s.mon.N) (hchain : ChainInv s)
      (htime : s.reportTime ≤ s.mon.fallTs + 120 * s.mon.S + 1)
      (hframes : F = s.log.frames ++ [{ ts := some (s.mon.fallTs + 120 * s.mon.S + 1), frame := f, complete := true }])

/-- The report of a low wire takes a decoded frame on, and latches it when its time has come (R133, R142). -/
theorem takeReport_low {F : List FrameEntry} {s : State} (h : Decoded F s) :
    Raised s (takeReport s.reportTime false s) [] ∧
    (∃ b, (takeReport s.reportTime false s).mon = { s.mon with pending := b, lastTs := s.reportTime } ∧
      (s.mon.pending = false ∨ s.mon.fallTs + 120 * s.mon.S < s.reportTime → b = false)) ∧
    ∀ t, t.mon = (takeReport s.reportTime false s).mon → t.chain = (takeReport s.reportTime false s).chain →
      t.log = (takeReport s.reportTime false s).log → t.tick = s.tick + 1 → Decoded F t := by
  cases h with
  | settled hp hpending hbits hchain hframes =>
    have hhold := takeReport_hold s.reportTime false s (by simp [heldLevel, hp]) (by simp [hpending])
    rw [hhold]
    refine ⟨by constructor <;> simp, ⟨false, by rw [← hpending], fun _ => rfl⟩, fun t hm hc hl ht => ?_⟩
    exact .settled (by rw [hm]; exact hp) (by rw [hm]; exact hpending) (by rw [hc]; exact hbits) (by simpa [ChainInv, hc] using hchain)
      (by rw [hl]; exact hframes)
  | owing f hp hpending hacc hlen hbits hchain htime hframes =>
    by_cases hdue : s.mon.fallTs + 120 * s.mon.S < s.reportTime
    · have hts : s.reportTime = s.mon.fallTs + 120 * s.mon.S + 1 := by omega
      obtain ⟨hlog, hraised, hmon, hload, hinv⟩ := takeReport_latches_words (ts := s.reportTime) hp hpending (by omega) hchain hacc hlen hbits
      refine ⟨hraised, ⟨false, hmon, fun _ => rfl⟩, fun t hm hc hl ht => ?_⟩
      exact .settled (by rw [hm, hmon]; simp [hp]) (by rw [hm, hmon]) (by rw [hc]; exact hload) (by simpa [ChainInv, hc] using hinv)
        (by rw [hl, hlog, hframes, hts])
    · have hhold := takeReport_hold s.reportTime false s (by simp [heldLevel, hp]) (fun _ _ => by omega)
      rw [hhold]
      refine ⟨by constructor <;> simp, ⟨s.mon.pending, rfl, fun h => h.elim id fun h => absurd h hdue⟩, fun t hm hc hl ht => ?_⟩
      refine .owing f (by rw [hm]; exact hp) (by rw [hm]; exact hpending) (by rw [hm, hc]; exact hacc) (by rw [hm]; exact hlen)
        (by rw [hm, hc]; exact hbits) (by simpa [ChainInv, hc] using hchain) ?_ (by rw [hm, hl]; exact hframes)
      rw [State.reportTime, hm, ht]
      show s.mon.tsBase + (s.tick + 1) ≤ s.mon.fallTs + 120 * s.mon.S + 1
      have : s.reportTime = s.mon.tsBase + s.tick := rfl
      omega

/-- One tick of a low wire: the encoder goes on as its operation says, the monitor as `takeReport_low`. -/
theorem low_tick {F : List FrameEntry} {s : State} (q : Quiet s) (hw : s.wire = false) (hd : Decoded F s) {e : EncRegs}
    (he : exec (encOp s) s = .next { s with enc := e }) (hseq : e.seqErr = s.enc.seqErr) :
    ∃ t, Advances s t 1 ∧ Quiet t ∧ Decoded F t ∧ t.enc = e ∧ t.mon.fallTs = s.mon.fallTs ∧
      t.env.stream = (if s.transfers then s.env.stream.tail else s.env.stream) ∧
      (s.mon.pending = false ∨ s.mon.fallTs + 120 * s.mon.S < s.reportTime → t.mon.pending = false) := by
  have hstep := step_quiet q he
  rw [hw] at hstep
  obtain ⟨hc, henc, hh, ht, hv⟩ := takeReport_others s.reportTime false s
  obtain ⟨hraised, ⟨b, hmon, hb⟩, hdecoded⟩ := takeReport_low hd
  generalize hr : takeReport s.reportTime false s = r at *
  have hkept : Kept s { r with
      enc := e, tick := s.tick + 1, env := { s.env with stream := if s.transfers then s.env.stream.tail else s.env.stream } } := by
    refine ⟨hc, hh, by rw [hmon], by rw [hmon], by rw [hmon], by rw [hmon], rfl, ?_⟩
    obtain ⟨h, h0, h1, h2, h3, h4⟩ := hraised
    exact ⟨h, by simp [hseq], h1, h2, h3, h4⟩
  have hadv : Advances s { r with
      enc := e, tick := s.tick + 1, env := { s.env with stream := if s.transfers then s.env.stream.tail else s.env.stream } } 1 :=
    ⟨core_run_one hstep, rfl, hkept⟩
  refine ⟨_, hadv, q.of_kept hkept ?_, hdecoded _ rfl rfl rfl rfl, rfl, by rw [hmon], rfl, fun h => by rw [hmon]; exact hb h⟩
  rw [hadv.reportTime, hmon]
  exact Nat.le_succ _

/-! ### The gap -/

/-- `k` ticks into the gap (R116). -/
theorem gap_advances {F : List FrameEntry} {s : State} (q : Quiet s) (hd : Decoded F s) (hp : s.enc.phase = .gap) (k : Nat)
    (hk : k ≤ s.enc.tmr) : ∃ t, Advances s t k ∧ Quiet t ∧ Decoded F t ∧ t.enc = { s.enc with tmr := s.enc.tmr - k } ∧
      t.mon.fallTs = s.mon.fallTs ∧ t.env.stream = s.env.stream := by
  induction k with
  | zero => exact ⟨s, .refl s, q, hd, rfl, rfl, rfl⟩
  | succ k ih =>
    obtain ⟨t, hadv, qt, hdt, henc, hfall, hstream⟩ := ih (by omega)
    have hpt : t.enc.phase = .gap := by rw [henc]; exact hp
    have htmr : 0 < t.enc.tmr := by rw [henc]; show 0 < s.enc.tmr - k; omega
    have hop := (congrArg (exec · t) (encOp_of_gap hpt htmr)).trans (exec_encGapTick hpt htmr)
    obtain ⟨u, hadvu, qu, hdu, hencu, hfallu, hstreamu, -⟩ := low_tick qt (wire_of_ne_high (by simp [hpt])) hdt hop rfl
    rw [State.transfers, ready_of_gap hpt, Bool.false_and, if_neg (by simp)] at hstreamu
    exact ⟨u, hadv.trans hadvu, qu, hdu, by rw [hencu, henc, Nat.sub_sub], hfallu.trans hfall, hstreamu.trans hstream⟩

/-- The whole gap: the encoder is idle again (R118). -/
theorem gap_to_idle {F : List FrameEntry} {fs : List (List Pixel)} {s : State} (h : GapStart fs s) (hd : Decoded F s) :
    ∃ t, Advances s t (120 * s.enc.S) ∧ Quiet t ∧ Decoded F t ∧ t.enc.phase = .idle ∧ t.mon.fallTs = s.mon.fallTs ∧
      t.env.stream = queuedFrames fs := by
  obtain ⟨t, hadv, qt, hdt, henc, hfall, hstream⟩ := gap_advances h.quiet hd h.gap s.enc.tmr le_rfl
  have hpt : t.enc.phase = .gap := by rw [henc]; exact h.gap
  have htmr : t.enc.tmr = 0 := by rw [henc]; exact Nat.sub_self _
  have hop := (congrArg (exec · t) (encOp_of_gap_over hpt htmr)).trans (exec_encGapEnd hpt htmr)
  obtain ⟨u, hadvu, qu, hdu, hencu, hfallu, hstreamu, -⟩ := low_tick qt (wire_of_ne_high (by simp [hpt])) hdt hop rfl
  rw [State.transfers, ready_of_gap hpt, Bool.false_and, if_neg (by simp)] at hstreamu
  have hsum : s.enc.tmr + 1 = 120 * s.enc.S := by
    have h1 := h.timer
    have h2 := h.positive
    omega
  exact ⟨u, hsum ▸ hadv.trans hadvu, qu, hdu, by rw [hencu], hfallu.trans hfall, hstreamu.trans (hstream.trans h.queue)⟩

/-! ### The idle tick between frames -/

/-- The encoder's configuration register and the monitor's active configuration are alike (R158). -/
structure SameConfig (s : State) : Prop where
  set : s.cfg.isSet = true
  subPeriod : s.mon.S = subPeriod s.cfg.divider
  length : s.mon.N = chainLength s.cfg.lastLed

theorem SameConfig.of_kept {s t : State} (h : SameConfig s) (hk : Kept s t) : SameConfig t :=
  ⟨by rw [hk.cfg]; exact h.set, by rw [hk.cfg, hk.monS]; exact h.subPeriod, by rw [hk.cfg, hk.monN]; exact h.length⟩

/-- A tick of `E_IDLE` has passed: the first frame queued has begun, or with none the encoder is idle still. -/
inductive AfterIdle (s : State) : List (List Pixel) → Prop where
  | done (q : Quiet s) (hp : s.enc.phase = .idle) (hq : s.env.stream = []) : AfterIdle s []
  | begun {px : Pixel} {rest : List Pixel} {fs : List (List Pixel)} (h : PixelStart 0 px rest fs s) : AfterIdle s ((px :: rest) :: fs)

/-- The tick of `E_IDLE` in which nothing is left to latch afterwards (R105, R106). -/
theorem idle_tick {F : List FrameEntry} {fs : List (List Pixel)} {s : State} (q : Quiet s) (hd : Decoded F s) (hc : SameConfig s)
    (hp : s.enc.phase = .idle) (hlen : ∀ f ∈ fs, f.length = s.mon.N) (hq : s.env.stream = queuedFrames fs)
    (hsettles : s.mon.pending = false ∨ s.mon.fallTs + 120 * s.mon.S < s.reportTime) :
    ∃ t, Advances s t 1 ∧ Decoded F t ∧ t.mon.pending = false ∧ AfterIdle t fs := by
  have hw : s.wire = false := wire_of_ne_high (by simp [hp])
  cases fs with
  | nil =>
    have hpres := presented_of_empty q.noHold hq
    have hmove := EncMove.idleHold (s := s) hp (by simp [hpres])
    have hop := encOp_of_encMove hmove (.inl rfl)
    obtain ⟨t, hadv, qt, hdt, henc, -, hstream, hpend⟩ := low_tick (e := s.enc) q hw hd
      (by rw [hop, exec_of_encMove hmove, withEnc_nil]) rfl
    rw [State.transfers, hpres, Option.isSome_none, Bool.and_false, if_neg (by simp)] at hstream
    exact ⟨t, hadv, hdt, hpend hsettles, .done qt (by rw [henc]; exact hp) (hstream.trans hq)⟩
  | cons f fs =>
    have hN := chainLength_bounds s.cfg.lastLed
    have hS := subPeriod_bounds s.cfg.divider
    have hf : f.length = chainLength s.cfg.lastLed := (hlen f List.mem_cons_self).trans hc.length
    cases f with
    | nil => simp at hf; omega
    | cons px rest =>
      rw [List.length_cons] at hf
      have hpres : s.presented = some (pixelItemAt 0 px rest) :=
        presented_of_queue (q := queuedItems (frameItems 1 rest) ++ queuedFrames fs) q.noHold
          (hq.trans (by rw [queuedFrames_cons, queuedItems_frameItems_cons]; rfl))
      have hok : itemOk (pixelItemAt 0 px rest) (chainLength s.cfg.lastLed) 0 = true := itemOk_pixelItemAt hN.2 (by omega)
      have hmove := EncMove.acceptFirst (s := s) _ hp hc.set hok
      have hop := encOp_of_encMove hmove (.inr (by rw [hpres]; rfl))
      obtain ⟨t, hadv, qt, hdt, henc, -, hstream, hpend⟩ := low_tick q hw hd
        (by rw [hop, exec_of_encMove hmove, withEnc_nil]) (beginPixel_enc_seqErr _ _ (takeConfig s))
      have hpt := hpend hsettles
      have hready : s.transfers = true := by rw [State.transfers, ready_of_idle hp, hc.set, hpres]; rfl
      rw [if_pos hready, hq] at hstream
      have hcell : CellStart t := {
        quiet := qt
        high := by rw [henc]; rfl
        timer := by unfold cellHigh; rw [henc]; rfl
        positive := by rw [henc]; exact hS.1
        same := by rw [hadv.kept.monS, hc.subPeriod, henc]; rfl
        low := by
          cases hdt with
          | settled hp => exact hp
          | owing f hp => simp [hp]
        inTime := by simp [hpt] }
      exact ⟨t, hadv, hdt, hpt, .begun (pixelStart_of_accepted (s := takeConfig s) hcell henc
        (by show 0 + 1 + rest.length = chainLength s.cfg.lastLed; omega) hN.2 hstream)⟩

/-! ### Frames -/

/-- From the tick after a frame's first item is taken to the tick after the next frame's: the frame is decoded (R158, R200). -/
theorem frame_advances {px : Pixel} {rest : List Pixel} {fs : List (List Pixel)} {s : State} (h : PixelStart 0 px rest fs s)
    (hd : Decoded s.log.frames s) (hpending : s.mon.pending = false) (hc : SameConfig s) (hrest : rest.length + 1 = s.mon.N)
    (hlen : ∀ f ∈ fs, f.length = s.mon.N) :
    ∃ (t : State) (ts : Nat), Advances s t (72 * s.mon.N * s.mon.S + 120 * s.mon.S + 1) ∧
      Decoded (s.log.frames ++ [{ ts := some ts, frame := px :: rest, complete := true }]) t ∧
      t.mon.pending = false ∧ AfterIdle t fs := by
  obtain ⟨g, hadvg, hgap, hSg, hchain, hlog⟩ := frame_to_gap rest h
  have hsame := h.cell.same
  obtain ⟨hbits0, hinv⟩ : s.chain.bitsSinceLoad = 0 ∧ ChainInv s := by
    cases hd with
    | settled _ _ hbits hchain _ => exact ⟨hbits, hchain⟩
    | owing _ _ hp => simp [hpending] at hp
  have hN : s.mon.N ≤ 16 := by rw [hc.length]; exact (chainLength_bounds _).2
  have hroom : s.mon.N ≤ s.chain.acc.length := by rw [hinv.1]; exact hN
  have hwords : ((px :: rest).map pixelWord).length = s.mon.N := by simpa using hrest
  obtain ⟨hacc, hcount⟩ := chainAfter_words ((px :: rest).map pixelWord) s.chain (hwords ▸ hroom)
  rw [hwords] at hacc hcount
  have hfall := hgap.fall
  have hdg : Decoded (s.log.frames ++ [{ ts := some (g.mon.fallTs + 120 * g.mon.S + 1), frame := px :: rest, complete := true }]) g := by
    have hinvg : ChainInv g := by
      have hroom' : min s.mon.N s.chain.acc.length + (s.chain.acc.length - s.mon.N) = s.chain.acc.length := by omega
      simpa [ChainInv, hchain, chainAfter_eq _ _ _ hroom, hroom'] using hinv
    exact .owing (px :: rest) hgap.low hgap.pending (by rw [hadvg.kept.monN, hchain]; exact hacc)
      (by rw [hadvg.kept.monN]; exact hrest) (by rw [hadvg.kept.monN, hchain, hcount, hbits0, Nat.zero_add]) hinvg
      (by omega) (by rw [hlog])
  obtain ⟨u, hadvu, qu, hdu, hpu, hfallu, hstreamu⟩ := gap_to_idle hgap hdg
  have hkept := hadvg.kept.trans hadvu.kept
  obtain ⟨t, hadvt, hdt, hpt, hidle⟩ := idle_tick (fs := fs) qu hdu (hc.of_kept hkept) hpu (by rw [hkept.monN]; exact hlen) hstreamu
    (.inr (by rw [hfallu, hadvu.kept.monS, hadvu.reportTime, hgap.same]; omega))
  refine ⟨t, _, ?_, hdt, hpt, hidle⟩
  have hsum : 72 * s.enc.S * (rest.length + 1) + 120 * g.enc.S + 1 = 72 * s.mon.N * s.mon.S + 120 * s.mon.S + 1 := by
    rw [hSg, hrest, ← hsame]; ring
  exact hsum ▸ (hadvg.trans hadvu).trans hadvt

theorem Decoded.frames_of_settled {F : List FrameEntry} {s : State} (h : Decoded F s) (hp : s.mon.pending = false) :
    s.log.frames = F ∧ s.mon.phase ≠ .high ∧ s.chain.bitsSinceLoad = 0 := by
  cases h with
  | settled hp _ hbits _ hframes => exact ⟨hframes, hp, hbits⟩
  | owing _ _ hpending => simp [hp] at hpending

theorem Decoded.of_frames {F : List FrameEntry} {s : State} (h : Decoded F s) (hp : s.mon.pending = false) :
    Decoded s.log.frames s := by rwa [(h.frames_of_settled hp).1]

/-- All the frames queued, one after another. -/
theorem frames_advance (fs : List (List Pixel)) {s : State} (h : AfterIdle s fs) (hd : Decoded s.log.frames s)
    (hpending : s.mon.pending = false) (hc : SameConfig s) (hlen : ∀ f ∈ fs, f.length = s.mon.N) :
    ∃ (t : State) (tss : List Nat), Advances s t (fs.length * (72 * s.mon.N * s.mon.S + 120 * s.mon.S + 1)) ∧
      tss.length = fs.length ∧
      Decoded (s.log.frames ++ List.zipWith (fun ts f => { ts := some ts, frame := f, complete := true }) tss fs) t ∧
      t.mon.pending = false ∧ AfterIdle t [] := by
  induction fs generalizing s with
  | nil => exact ⟨s, [], by simpa using Advances.refl s, rfl, by simpa using hd, hpending, h⟩
  | cons f fs ih =>
    cases h with
    | begun h =>
      obtain ⟨t, ts, hadv, hdt, hpt, hidle⟩ := frame_advances h hd hpending hc (hlen _ List.mem_cons_self)
        fun f hf => hlen f (List.mem_cons_of_mem _ hf)
      have hk := hadv.kept
      obtain ⟨u, tss, hadvu, hcount, hdu, hpu, hdone⟩ := ih hidle (hdt.of_frames hpt) hpt (hc.of_kept hk)
        fun f hf => (hlen f (List.mem_cons_of_mem _ hf)).trans hk.monN.symm
      rw [hk.monN, hk.monS] at hadvu
      refine ⟨u, ts :: tss, ?_, by simp [hcount], ?_, hpu, hdone⟩
      · rw [List.length_cons, Nat.succ_mul, Nat.add_comm]
        exact hadv.trans hadvu
      · rw [(hdt.frames_of_settled hpt).1, List.append_assoc] at hdu
        exact hdu

/-- Settles O59: one tick to take the first item, then each frame from its first tick to the tick after the next frame's, the latch of
a frame coming by the idle tick after its gap at the latest. -/
theorem frameRoundTrip : Obligations.FrameRoundTrip := by
  intro s fs h
  obtain ⟨hpending, hbits, hp, horder⟩ := h.between
  have q : Quiet s := ⟨h.noInputs, h.noneHeld, h.noHold, h.attached, h.monitorConfigured, horder⟩
  have hc : SameConfig s := ⟨h.encoderConfigured, h.sameSubPeriod, h.sameLength⟩
  obtain ⟨a, hadva, hda, hpa, hidle⟩ := idle_tick q (.settled hp hpending hbits h.registers rfl) hc h.idle h.lengths h.queued (.inl hpending)
  have hk := hadva.kept
  obtain ⟨t, tss, hadvt, hcount, hdt, hpt, hdone⟩ := frames_advance fs hidle (hda.of_frames hpa) hpa (hc.of_kept hk)
    fun f hf => (h.lengths f hf).trans hk.monN.symm
  rw [hk.monN, hk.monS] at hadvt
  obtain ⟨hframes, hpt', hbitst⟩ := hdt.frames_of_settled hpt
  obtain ⟨hviols, h0, h1, h2, h3, h4⟩ := (hk.trans hadvt.kept).raised
  cases hdone with
  | done qt hidlet hstream =>
    refine ⟨t, tss, by rw [Nat.add_comm]; exact (hadva.trans hadvt).run, hcount, ?_, by simpa using hviols, hidlet, hstream,
      ⟨hpt, hbitst, hpt', qt.inOrder⟩, by simpa using h0, by simpa using h1, by simpa using h2, by simpa using h3, by simpa using h4⟩
    rw [hframes, (hda.frames_of_settled hpa).1]

end Sys2Proof.Machine
end

section
/-! PROOFS. The step and the composed tick (43_register_facade.md R157; 30_encoding.md R84). -/

namespace Sys2Proof.Machine

/-! ### The step -/

/-- The first input, when it is due, is what `fetch` answers. -/
theorem fetch_of_due {s : State} {p : Pending} {rest : List Pending} (hp : s.env.pending = p :: rest) (hd : p.due ≤ s.tick) :
    fetch s = some (decode s.env.par p.bytes, { s with env := { s.env with pending := rest } }) := by
  simp only [fetch, hp, if_pos hd]

theorem fetch_of_none_due {s : State} (h : ∀ p ∈ s.env.pending.head?, s.tick < p.due) : fetch s = none := by
  unfold fetch
  split
  · rfl
  · next p rest hp => rw [if_neg (by have := h p (by simp [hp]); omega)]

/-- Settles O5: `advance` by what `fetch` answers. -/
theorem stepRunsTheDecoded : Obligations.StepRunsTheDecoded := by
  intro s
  refine ⟨fun p rest i hp hd hi => ?_, fun p rest e hp hd he => ?_, fun h => ?_⟩
  · have hf := fetch_of_due (s := s.clearOut) hp hd
    simp only [step, advance, hf]
    rw [show decode s.clearOut.env.par p.bytes = .ok i from hi]
    rfl
  · have hf := fetch_of_due (s := s.clearOut) hp hd
    simp only [step, advance, hf]
    rw [show decode s.clearOut.env.par p.bytes = .error e from he]
  · have hf := fetch_of_none_due (s := s.clearOut) h
    simp only [step, advance, hf]
    rfl

/-! ### The transfer's phase -/

/-- The holding register after the transfer's phase: freed at a transfer of what it holds (R153). -/
def holdAfterTransfer (s : State) : HoldReg := if s.hold.valid = true ∧ s.ready = true then { s.hold with valid := false } else s.hold

/-- The external producer's queue after the transfer's phase (R84). -/
def streamAfterTransfer (s : State) : List Queued :=
  if s.transfers = true ∧ s.hold.valid = false then s.env.stream.tail else s.env.stream

/-- A held item is on the stream inputs, so that `ready` alone makes the transfer (R30, R63). -/
theorem transfers_of_held {s : State} (hv : s.hold.valid = true) : s.transfers = s.ready := by
  simp [State.transfers, State.presented, hv]

theorem transferPhase_eq (s : State) : transferPhase s =
    .next { s with hold := holdAfterTransfer s, env := { s.env with stream := streamAfterTransfer s } } := by
  obtain ⟨t, ht, -, hnone, hheld, hqueued⟩ := transferPhase_next s
  rw [ht, holdAfterTransfer, streamAfterTransfer]
  congr 1
  cases hv : s.hold.valid with
  | true =>
    have htr := transfers_of_held hv
    cases hr : s.ready with
    | true => simpa [freeHold] using hheld (htr.trans hr) hv
    | false => simpa using hnone (htr.trans hr)
  | false =>
    cases htr : s.transfers with
    | true => simpa [popStream] using hqueued htr hv
    | false => simpa using hnone htr

/-! ### The tick -/

theorem monitorPhase_others {s t : State} (h : monitorPhase s = .next t) :
    t.cfg = s.cfg ∧ t.enc = s.enc ∧ t.hold = s.hold ∧ t.tick = s.tick ∧ t.env = s.env :=
  (monitorPhase_subSteps h).others

/-- One tick in closed form: the monitor's phase `r`, the transfer, the encoder's move, the end of the tick (R157). -/
theorem tick_closed_form {s t : State} (h : tick s = .next t) : ∃ r e l, monitorPhase s = .next r ∧ EncMove s (encOp s) e l ∧
    t = endTick { r with
      enc := e, hold := holdAfterTransfer s, log := { r.log with viols := r.log.viols ++ l }
      env := { s.env with stream := streamAfterTransfer s } } := by
  obtain ⟨r, s2, e, l, -, hmon, htransfer, hm, rfl⟩ := tick_phases h
  obtain ⟨hc, he, hh, ht, hv⟩ := monitorPhase_others hmon
  have hready : r.ready = s.ready ∧ r.transfers = s.transfers := by
    simp [State.transfers, State.ready, State.pixelEnd, State.presented, hc, he, hh, ht, hv]
  rw [transferPhase_eq, Host.Outcome.next.injEq] at htransfer
  refine ⟨r, e, l, hmon, hm, ?_⟩
  rw [← htransfer]
  simp only [State.withEnc, holdAfterTransfer, streamAfterTransfer, hh, hv, hready]

/-- The holding register and the waiting writes at the end of a tick that leaves the register free (R152, R157 step 4). -/
theorem endTick_hold_free {s : State} (hv : s.hold.valid = false) :
    (s.env.held = [] → (endTick s).hold = s.hold ∧ (endTick s).env.held = []) ∧
    (∀ w rest, s.env.held = w :: rest →
      (endTick s).hold = { valid := true, item := pixelItem w.k w.v s } ∧ (endTick s).env.held = rest) := by
  rw [endTick_others]
  unfold releaseHeld
  rw [if_neg (by simp [hv])]
  exact ⟨fun h => by simp [h], fun w rest h => by simp [h, writePix]⟩

theorem endTick_hold_full {s : State} (hv : s.hold.valid = true) :
    (endTick s).hold = s.hold ∧ (endTick s).env.held = s.env.held := by
  rw [endTick_others]
  simp [releaseHeld, hv]

theorem holdAfterTransfer_free {s : State} (h : s.hold.valid = false ∨ s.ready = true) :
    holdAfterTransfer s = { s.hold with valid := false } := by
  unfold holdAfterTransfer
  cases hv : s.hold.valid with
  | true => simp [show s.ready = true by simpa [hv] using h]
  | false => cases hh : s.hold; simp_all

theorem holdAfterTransfer_full {s : State} (hr : s.ready = false) : holdAfterTransfer s = s.hold := by
  simp [holdAfterTransfer, hr]

/-- Settles O6: the closed form of a tick, part by part. -/
theorem tickComposesTheAgents : Obligations.TickComposesTheAgents := by
  intro s t h
  obtain ⟨r, e, l, hmon, hm, rfl⟩ := tick_closed_form h
  obtain ⟨hc, -, -, ht, hv⟩ := monitorPhase_others hmon
  refine ⟨by simp [ht], ⟨_, exec_of_encMove hm, by simp [State.withEnc], fun ha => ?_, fun ha => ?_⟩, by simpa using hc, ?_,
    fun hheld hr => ?_, fun hfree => ?_, by simp, by rw [endTick_others], by simp⟩
  · rw [monitorPhase, if_neg (by simp [ha])] at hmon
    obtain rfl := Host.Outcome.next.inj hmon
    simp [State.withEnc]
  · rw [monitorPhase, if_pos ha] at hmon
    exact ⟨r, hmon, by simp, by simp, by simp, by simp, l, rfl, by simp⟩
  · simp [streamAfterTransfer]
  · obtain ⟨hh, hw⟩ := endTick_hold_full (s := { r with
      enc := e, hold := holdAfterTransfer s, log := { r.log with viols := r.log.viols ++ l }
      env := { s.env with stream := streamAfterTransfer s } }) (by rw [holdAfterTransfer_full hr]; exact hheld)
    exact ⟨hh.trans (holdAfterTransfer_full hr), hw⟩
  · obtain ⟨hnone, hsome⟩ := endTick_hold_free (s := { r with
      enc := e, hold := holdAfterTransfer s, log := { r.log with viols := r.log.viols ++ l }
      env := { s.env with stream := streamAfterTransfer s } }) (by rw [holdAfterTransfer_free hfree])
    refine ⟨fun h => ⟨(hnone h).1.trans (holdAfterTransfer_free hfree), (hnone h).2⟩, fun w rest h => ?_⟩
    refine ⟨(hsome w rest h).1.trans ?_, (hsome w rest h).2⟩
    simp only [pixelItem, hc]

/-- Settles O7: the monitor's phase runs when its report is in order, and whatever it leaves, the tick goes on to its end. -/
theorem tickAlwaysRuns : Obligations.TickAlwaysRuns := by
  intro s horder
  obtain ⟨r, hr⟩ : ∃ r, monitorPhase s = .next r := by
    unfold monitorPhase
    split
    · next ha => exact ⟨_, processReport_next.2 ⟨horder ha, rfl⟩⟩
    · exact ⟨s, rfl⟩
  obtain ⟨e, l, s2, -, -, htick⟩ := tick_of_report hr
  exact ⟨_, htick⟩

/-! ### The fields of a register value -/

/-- A field of a value as a number (R75, R76). -/
theorem extractLsb'_eq_ofNat (v : RegValue) (start len : Nat) :
    v.extractLsb' start len = BitVec.ofNat len (v.toNat / 2 ^ start % 2 ^ len) := by
  apply BitVec.eq_of_toNat_eq
  rw [BitVec.extractLsb'_toNat, BitVec.toNat_ofNat, Nat.mod_mod, Nat.shiftRight_eq_div_pow]

/-- R76: the item of a pixel write, from the number written. -/
theorem pixelItem_eq (k : Nat) (v : RegValue) (s : State) : pixelItem k v s = {
    red := BitVec.ofNat 8 (v.toNat % 256), green := BitVec.ofNat 8 (v.toNat / 256 % 256),
    blue := BitVec.ofNat 8 (v.toNat / 65536 % 256), pos := BitVec.ofNat 4 k, first := decide (k = 0),
    last := decide (k = s.cfg.lastLed.toNat) } := by
  simp [pixelItem, pixRed, pixGreen, pixBlue, extractLsb'_eq_ofNat]

/-- R75: the fields of a configuration write, from the number written. -/
theorem writeCfg_eq (v : RegValue) (s : State) : writeCfg v s = { s with cfg := {
    divider := BitVec.ofNat 8 (v.toNat % 256), lastLed := BitVec.ofNat 4 (v.toNat / 65536 % 16), isSet := true } } := by
  simp [writeCfg, cfgDivider, cfgLastLed, extractLsb'_eq_ofNat]

/-- Settles O51: what a tick makes of the holding register and the waiting writes. -/
theorem waitingWriteIsReleased : Obligations.WaitingWriteIsReleased := by
  intro s t k v rest hheld h
  obtain ⟨-, -, hcfg, -, hfull, hfree, -⟩ := tickComposesTheAgents s t h
  refine ⟨hcfg, fun hf => ?_, fun hv hr => (hfull hv hr).symm⟩
  obtain ⟨hhold, hrest⟩ := (hfree hf).2 _ _ hheld
  exact ⟨hrest, by rw [hhold, pixelItem_eq]⟩

/-! ### An item that is not ok -/

/-- An operation of ENC makes one move. -/
theorem EncMove.unique {s : State} {i : Instr} {e e' : EncRegs} {l l' : List ViolEntry} (h : EncMove s i e l) (h' : EncMove s i e' l') :
    e = e' :=
  congrArg State.enc (Host.Outcome.next.inj ((exec_of_encMove h).symm.trans (exec_of_encMove h')))

/-- In a tick the encoder's registers become what the selected move makes of them. -/
theorem tick_enc {s t : State} {i : Instr} {e : EncRegs} {l : List ViolEntry} (h : tick s = .next t) (hm : EncMove s i e l)
    (hop : encOp s = i) : t.enc = e := by
  obtain ⟨r, e', l', -, hm', rfl⟩ := tick_closed_form h
  rw [endTick_enc]
  exact EncMove.unique (hop ▸ hm') hm

/-- Settles O27: ENC.REJECT's move, and the tick that selects it. -/
theorem badItemRejected : Obligations.BadItemRejected := by
  intro s it N exp hr hidle hactive hbad
  obtain ⟨rfl, rfl⟩ : N = s.itemN ∧ exp = s.itemExp := by
    by_cases hp : s.enc.phase = .idle
    · simpa [State.itemN, State.itemExp, hp, chainLength] using hidle hp
    · simpa [State.itemN, State.itemExp, hp] using hactive hp
  have hmove := EncMove.reject it hr (mt itemOk_iff.1 hbad)
  refine ⟨_, exec_of_encMove hmove, rfl, ?_, wire_of_ne_high (by simp [State.withEnc, rejectedEnc]),
    ready_of_fault (by simp [State.withEnc, rejectedEnc]), fun u hpres hu => ?_⟩
  · by_cases hp : s.enc.phase = .idle <;> simp [State.withEnc, rejectedEnc, takeConfig, hp, subPeriod, chainLength]
  · have htransfers : s.transfers = true := by simp [State.transfers, hr, hpres]
    obtain ⟨-, -, -, hstream, -, hfree, -⟩ := tickComposesTheAgents s u hu
    refine ⟨tick_enc hu hmove (encOp_of_encMove hmove (.inr (by rw [hpres]; rfl))), fun hv => ?_, fun _ hheld => ?_⟩
    · rw [hstream, if_pos ⟨htransfers, hv⟩]
    · rw [((hfree (.inr hr)).1 hheld).1]

end Sys2Proof.Machine
end

section
/-! PROOFS. Single operations of the encoder against their rules (40_encoder.md R104 to R118). -/

namespace Sys2Proof.Machine

/-- Settles O23: ENC.HIGH_END's move, the low time written as R79 writes it. -/
theorem highPartEnds : Obligations.HighPartEnds := by
  intro s hp ht
  rw [exec_of_encMove (.highEnd hp ht), withEnc_nil, lowTime_eq]
  rfl

/-- Settles O24: ENC.NEXT_BIT's move; the new bit is the old bit 22. -/
theorem nextBitBegins : Obligations.NextBitBegins := by
  intro s hp ht hc
  rw [exec_of_encMove (.nextBit hp ht hc), withEnc_nil, highTime_eq, topBit_shiftLeft s.enc.word (by omega)]

/-- `begin_pixel` (R104), its timer and its word written from the item's channels. -/
theorem beginPixel_eq (it : Item) (S : Nat) (s : State) : (beginPixel it S s).enc = { s.enc with
    phase := .high, word := it.green ++ it.red ++ it.blue, cnt := 23, last := it.last
    expPos := if it.last then 0 else it.pos.toNat + 1, tmr := (1 + (it.green.getLsbD 7).toNat) * S - 1 } := by
  rw [← highTime_eq, ← show topBit (pixelWord (itemPixel it)) = it.green.getLsbD 7 from topBit_pixelWord _]
  rfl

/-- Settles O25: an item at position 0 with its flags as they must be is accepted, and its pixel begins under the new configuration. -/
theorem firstItemAccepted : Obligations.FirstItemAccepted := by
  intro s it hp hset hpos hfirst hlast
  have hzero : it.pos.toNat = 0 := by rw [hpos]; rfl
  have hled : (s.cfg.lastLed = 0) ↔ 0 = s.cfg.lastLed.toNat := by
    rw [← BitVec.toNat_inj]; exact eq_comm
  have hok : itemOk it (chainLength s.cfg.lastLed) 0 = true :=
    itemOk_iff.2 ⟨hzero, by rw [hfirst, hzero]; rfl, by rw [hlast, hzero]; simp only [chainLength, Nat.add_sub_cancel, hled]⟩
  rw [exec_of_encMove (.acceptFirst it hp hset hok), withEnc_nil, beginPixel_eq, hzero]
  rfl

/-- Settles O26: the item that is expected is accepted at either entry, and its pixel begins. -/
theorem nextItemAccepted : Obligations.NextItemAccepted := by
  intro s it hat hpos hfirst hlast
  have hzero : it.pos = 0 ↔ it.pos.toNat = 0 := by rw [← BitVec.toNat_inj]; rfl
  have hok : itemOk it s.enc.N s.enc.expPos = true := itemOk_iff.2 ⟨hpos, by rw [hfirst]; simp only [hzero], hlast⟩
  have hat' : (s.pixelEnd = true ∧ s.enc.last = false) ∨ s.enc.phase = .wait :=
    hat.imp_left fun ⟨hp, ht, hc, hl⟩ => ⟨pixelEnd_of hp ht hc, hl⟩
  rw [exec_of_encMove (.acceptNext it hat' hok), withEnc_nil, beginPixel_eq]

/-- Settles O28: the moves that hold write nothing, and ENC.UNDERRUN's enters `E_WAIT`. -/
theorem encoderWaits : Obligations.EncoderWaits := by
  intro s
  refine ⟨fun hp h => ?_, fun hp ht hc hl hn => ?_, fun hp hn => ?_, fun hp => ?_⟩
  · have hidle : ¬ (s.cfg.isSet = true ∧ s.presented.isSome = true) := by rcases h with h | h <;> simp [h]
    rw [exec_of_encMove (.idleHold hp hidle), withEnc_nil]
  · rw [exec_of_encMove (.underrun (pixelEnd_of hp ht hc) hl hn), withEnc_nil]
  · rw [exec_of_encMove (.waitHold hp hn), withEnc_nil]
  · rw [exec_of_encMove (.faultHold hp), withEnc_nil]

end Sys2Proof.Machine
end

section
/-! PROOFS. The monitor: tolerances, the sub-steps of a report, and what a report may raise (42_decoder.md R130 to R148). -/

namespace Sys2Proof.Machine

/-! ### The tolerance -/

/-- The difference of two times in their order, as an integer. -/
theorem outside_iff_abs {ts rise : Nat} (h : rise ≤ ts) (k S : Nat) :
    outside (ts - rise) k S = true ↔ (S : Int) < 10 * |((ts : Int) - rise) - k * S| := by
  rw [outside_iff, abs_eq_max_neg, ← Nat.cast_mul]
  omega

theorem within_iff_not_outside (x k S : Nat) : within x k S = true ↔ ¬ outside x k S = true := by
  rw [within_iff, outside_iff]; omega

/-- R12: the comparison over the rationals, cleared of its denominators. -/
theorem outside_iff_rat {x k S : Nat} (hS : 1 ≤ S) : outside x k S = true ↔ (1 / 10 : ℚ) < |(x : ℚ) / S - k| := by
  have hpos : (0 : ℚ) < S := by exact_mod_cast hS
  have hscale : |(x : ℚ) / S - k| = |(x : ℚ) - k * S| / S := by
    rw [← abs_of_pos hpos, ← abs_div, abs_of_pos hpos, sub_div, mul_div_cancel_right₀ _ hpos.ne']
  rw [outside_iff, hscale, lt_div_iff₀ hpos, lt_abs, ← @Nat.cast_lt ℚ, ← @Nat.cast_lt ℚ]
  push_cast
  constructor
  · rintro (h | h)
    · left; linarith
    · right; linarith
  · rintro (h | h)
    · left; linarith
    · right; linarith

/-- Settles O44: `outside` is the rational comparison, and `within` its negation. -/
theorem toleranceIsExact : Obligations.ToleranceIsExact := by
  intro x k S hS
  refine ⟨outside_iff_rat hS, ?_⟩
  rw [within_iff_not_outside, outside_iff_rat hS, not_lt]

/-- Settles O45: the bands as linear bounds on ten times the pulse. -/
theorem bandsOfAPulse : Obligations.BandsOfAPulse := by
  intro h S hS
  simp only [zeroBand_iff, oneBand_iff]
  omega

/-- Settles O46: each comparison is false below the saturation value or true above it, at every `S` and `N` in range. -/
theorem saturationIsInvisible : Obligations.SaturationIsInvisible := by
  refine ⟨fun x S hS hS' => ?_, fun bits N hN => by omega⟩
  refine ⟨Bool.eq_iff_iff.2 ?_, Bool.eq_iff_iff.2 ?_, Bool.eq_iff_iff.2 ?_, Bool.eq_iff_iff.2 ?_, Bool.eq_iff_iff.2 ?_,
    Bool.eq_iff_iff.2 ?_⟩
  · rw [latchExceeded_iff, latchExceeded_iff]; omega
  · rw [missedExceeded_iff, missedExceeded_iff]; omega
  · rw [outside_iff, outside_iff]; omega
  · rw [zeroBand_iff, zeroBand_iff]; omega
  · rw [oneBand_iff, oneBand_iff]; omega
  · rw [nearerBit_iff, nearerBit_iff]; omega

/-! ### The operations of DEC where they are selected -/

theorem selectedWhen_not {m : String} {c : Prop} [Decidable c] (t : State) (h : ¬ c) :
    selectedWhen m c t = .refused (.notSelected m) := by
  unfold selectedWhen; rw [if_neg h]

theorem timeoutDue_iff {ts : Nat} {s : State} : timeoutDue ts s = true ↔
    s.mon.phase = .low ∧ s.mon.pending = true ∧ 120 * s.mon.S < ts - s.mon.fallTs := by
  simp [timeoutDue, latchExceeded_iff, and_assoc]

theorem bitPeriodBad_iff {ts : Nat} {s : State} : bitPeriodBad ts s = true ↔
    s.mon.phase = .low ∧ s.mon.pending = true ∧ outside (ts - s.mon.riseTs) 3 s.mon.S = true := by
  simp [bitPeriodBad, and_assoc]

theorem loadMissed_iff {ts : Nat} {s : State} : loadMissed ts s = true ↔
    s.mon.phase = .low ∧ s.mon.pending = true ∧ 5 * s.mon.S < ts - s.mon.riseTs := by
  simp [loadMissed, missedExceeded_iff, and_assoc]

/-- R148: a missed load is out of the bit period, too. -/
theorem bitPeriodBad_of_loadMissed {ts : Nat} {s : State} (h : loadMissed ts s = true) : bitPeriodBad ts s = true := by
  obtain ⟨hp, hpending, hlong⟩ := loadMissed_iff.1 h
  exact bitPeriodBad_iff.2 ⟨hp, hpending, (outside_iff _ _ _).2 (.inl (by omega))⟩

theorem execDecRise_next {ts : Nat} {level : Bool} {s t : State} : exec (.decRise ts level) s = .next t ↔
    s.mon.lastTs ≤ ts ∧ (s.mon.cfgSet = true ∧ level = true ∧ s.mon.phase ≠ .high) ∧ takeRise ts (acceptTs ts s) = t := by
  simp only [exec, execDecRise, inOrder_next, selectedWhen_next]

theorem execDecFall0_next {ts : Nat} {level : Bool} {s t : State} : exec (.decFall0 ts level) s = .next t ↔
    s.mon.lastTs ≤ ts ∧ (s.mon.cfgSet = true ∧ level = false ∧ s.mon.phase = .high ∧ zeroBand (highFor ts s) s.mon.S = true) ∧
      endPulse ts (takeBit false (acceptTs ts s)) = t := by
  simp only [exec, execDecFall0, inOrder_next, selectedWhen_next]

theorem execDecFall1_next {ts : Nat} {level : Bool} {s t : State} : exec (.decFall1 ts level) s = .next t ↔
    s.mon.lastTs ≤ ts ∧ (s.mon.cfgSet = true ∧ level = false ∧ s.mon.phase = .high ∧ ¬ zeroBand (highFor ts s) s.mon.S = true ∧
      oneBand (highFor ts s) s.mon.S = true) ∧ endPulse ts (takeBit true (acceptTs ts s)) = t := by
  simp only [exec, execDecFall1, inOrder_next, selectedWhen_next]

theorem execDecFallX_next {ts : Nat} {level : Bool} {s t : State} : exec (.decFallX ts level) s = .next t ↔
    s.mon.lastTs ≤ ts ∧ (s.mon.cfgSet = true ∧ level = false ∧ s.mon.phase = .high ∧ ¬ zeroBand (highFor ts s) s.mon.S = true ∧
      ¬ oneBand (highFor ts s) s.mon.S = true) ∧ endPulse ts (takeBadPulse ts (acceptTs ts s)) = t := by
  simp only [exec, execDecFallX, inOrder_next, selectedWhen_next]

theorem execDecHold_next {ts : Nat} {level : Bool} {s t : State} : exec (.decHold ts level) s = .next t ↔
    s.mon.lastTs ≤ ts ∧ (s.mon.cfgSet = true ∧ level = heldLevel s) ∧ acceptTs ts s = t := by
  simp only [exec, execDecHold, inOrder_next, selectedWhen_next]

/-- Settles O35: step 0 refuses, whatever comes after it. -/
theorem lateReportRefused : Obligations.LateReportRefused := by
  intro s ts level h i hi
  simp only [List.mem_cons, List.not_mem_nil, or_false] at hi
  rcases hi with rfl | rfl | rfl | rfl | rfl | rfl | rfl | rfl <;> exact inOrder_late _ h

/-- Settles O42: DEC.IGNORE and DEC.HOLD where they are selected. -/
theorem ignoreAndHold : Obligations.IgnoreAndHold := by
  intro s ts level h0
  refine ⟨fun hc => ?_, fun hc hl => execDecHold_next.2 ⟨h0, ⟨hc, ?_⟩, rfl⟩⟩
  · simp only [exec, execDecIgnore, inOrder_next, selectedWhen_next]
    exact ⟨h0, hc, trivial⟩
  · rw [Bool.eq_iff_iff, hl, heldLevel, decide_eq_true_iff]

/-- Settles O40: the pulse is in the band of its bit and in no other, so that this bit's operation is selected. -/
theorem classifiedPulse : Obligations.ClassifiedPulse := by
  intro s ts b h0 hrise hc hp hband hS
  have hwithin : within (ts - s.mon.riseTs) (if b then 2 else 1) s.mon.S = true := by
    rw [within_iff_not_outside, outside_iff_abs hrise]
    cases b <;> simpa using hband
  cases b with
  | false => exact execDecFall0_next.2 ⟨h0, ⟨hc, rfl, hp, hwithin⟩, rfl⟩
  | true =>
    have hone : oneBand (ts - s.mon.riseTs) s.mon.S = true := hwithin
    have hzero : ¬ zeroBand (ts - s.mon.riseTs) s.mon.S = true := fun h => (bandsOfAPulse _ _ hS).1 ⟨h, hone⟩
    exact execDecFall1_next.2 ⟨h0, ⟨hc, rfl, hp, hzero, hone⟩, rfl⟩

/-! ### A rising edge -/

/-- The outputs of the checks of a rising edge (R135, R136, R165). -/
theorem takeRise_out (ts : Nat) (s : State) : (takeRise ts s).out = { s.out with
    viol := s.out.viol ||| (if bitPeriodBad ts s then 0b0001 else 0) ||| (if loadMissed ts s then 0b0010 else 0) } := by
  unfold takeRise checkRise
  split <;> split <;> simp [raise, setSticky, Diag.violMask]

/-- Settles O39: the two checks are the conditions of `bitPeriodBad` and `loadMissed` over the integers. -/
theorem risingEdge : Obligations.RisingEdge := by
  intro s ts h0 hrise hc hp
  refine ⟨takeRise ts (acceptTs ts s), bitPeriodBad ts s, loadMissed ts s, execDecRise_next.2 ⟨h0, ⟨hc, rfl, hp⟩, rfl⟩, ?_, ?_,
    bitPeriodBad_of_loadMissed, by rw [takeRise_mon]; rfl, ?_, takeRise_out ts _, by simp, by simp, by simp, by simp, by simp,
    by simp, by simp⟩
  · rw [bitPeriodBad_iff, outside_iff_abs hrise]; rfl
  · rw [loadMissed_iff]
    exact and_congr_right fun _ => and_congr_right fun _ => by omega
  · rw [(raised_takeRise ts _).viols, riseDiags, ← List.append_assoc]; rfl

/-! ### A pulse in neither band -/

/-- Settles O41: the diagnostic, and under `nearest` the shift of the nearer bit. -/
theorem unclassifiablePulse : Obligations.UnclassifiablePulse := by
  intro s ts h0 hrise hc hp hnot0 hnot1
  have hzero : ¬ zeroBand (highFor ts s) s.mon.S = true := by
    show ¬ within (ts - s.mon.riseTs) 1 s.mon.S = true
    rw [within_iff_not_outside, not_not, outside_iff_abs hrise]
    simpa using hnot0
  have hone : ¬ oneBand (highFor ts s) s.mon.S = true := by
    show ¬ within (ts - s.mon.riseTs) 2 s.mon.S = true
    rw [within_iff_not_outside, not_not, outside_iff_abs hrise]
    simpa using hnot1
  refine ⟨_, execDecFallX_next.2 ⟨h0, ⟨hc, rfl, hp, hzero, hone⟩, rfl⟩, ?_, by simp, ?_, by simp, by simp, by simp, by simp, by simp,
    fun hpol => ?_, fun hpol => ?_⟩
  · rw [endPulse_log, (raised_takeBadPulse ts _).viols]; rfl
  · rcases takeBadPulse_cases ts (acceptTs ts s) with h | ⟨b, h⟩ <;> simp [h, raise, setSticky, Diag.violMask]
  · simp [endPulse, takeBadPulse, hpol, raise, setSticky, acceptTs]
  · have hnear : nearerBit (highFor ts (acceptTs ts s)) s.mon.S = decide (3 * s.mon.S ≤ 2 * (ts - s.mon.riseTs)) := by
      rw [Bool.eq_iff_iff, nearerBit_iff, decide_eq_true_iff]; rfl
    simp only [endPulse, takeBadPulse, acceptTs_env, hpol, acceptTs_mon_S, hnear]
    exact ⟨rfl, rfl⟩

/-! ### A whole report -/

/-- What sub-step 2 of a report does, with the operation it selects (R130, R134 to R142). -/
theorem takeLevel_cases (ts : Nat) (level : Bool) (s : State) :
    (level = heldLevel s ∧ edgeOp ts level s = .decHold ts level ∧ takeLevel ts level s = s) ∨
    (level = true ∧ s.mon.phase ≠ .high ∧ edgeOp ts level s = .decRise ts level ∧ takeLevel ts level s = takeRise ts s) ∨
    (level = false ∧ s.mon.phase = .high ∧
      ((zeroBand (highFor ts s) s.mon.S = true ∧ edgeOp ts level s = .decFall0 ts level ∧
          takeLevel ts level s = endPulse ts (takeBit false s)) ∨
        (¬ zeroBand (highFor ts s) s.mon.S = true ∧ oneBand (highFor ts s) s.mon.S = true ∧
          edgeOp ts level s = .decFall1 ts level ∧ takeLevel ts level s = endPulse ts (takeBit true s)) ∨
        (¬ zeroBand (highFor ts s) s.mon.S = true ∧ ¬ oneBand (highFor ts s) s.mon.S = true ∧
          edgeOp ts level s = .decFallX ts level ∧ takeLevel ts level s = endPulse ts (takeBadPulse ts s)))) := by
  unfold edgeOp takeLevel
  by_cases hl : level = heldLevel s
  · exact .inl ⟨hl, by rw [if_pos hl], by rw [if_pos hl]⟩
  · simp only [if_neg hl]
    cases level with
    | true => exact .inr (.inl ⟨rfl, by simpa [heldLevel] using hl, rfl, rfl⟩)
    | false =>
      refine .inr (.inr ⟨rfl, by simpa [heldLevel] using hl, ?_⟩)
      by_cases hz : zeroBand (highFor ts s) s.mon.S = true
      · exact .inl ⟨hz, by simp [hz], by simp [hz]⟩
      · by_cases ho : oneBand (highFor ts s) s.mon.S = true
        · exact .inr (.inl ⟨hz, ho, by simp [hz, ho], by simp [hz, ho]⟩)
        · exact .inr (.inr ⟨hz, ho, by simp [hz, ho], by simp [hz, ho]⟩)

theorem acceptTs_self {ts : Nat} {s : State} (h : s.mon.lastTs = ts) : acceptTs ts s = s := by subst h; rfl

/-- After the timestamp is taken, the selected operation runs as sub-step 2 does. -/
theorem exec_edgeOp {ts : Nat} (level : Bool) {s : State} (hts : s.mon.lastTs = ts) (hc : s.mon.cfgSet = true) :
    exec (edgeOp ts level s) s = .next (takeLevel ts level s) := by
  have hself := acceptTs_self hts
  rcases takeLevel_cases ts level s with ⟨hl, hop, ht⟩ | ⟨hl, hp, hop, ht⟩ | ⟨hl, hp, ⟨hz, hop, ht⟩ | ⟨hz, ho, hop, ht⟩ |
    ⟨hz, ho, hop, ht⟩⟩ <;> rw [hop, ht]
  · exact execDecHold_next.2 ⟨hts.le, ⟨hc, hl⟩, hself⟩
  · exact execDecRise_next.2 ⟨hts.le, ⟨hc, hl, hp⟩, by rw [hself]⟩
  · exact execDecFall0_next.2 ⟨hts.le, ⟨hc, hl, hp, hz⟩, by rw [hself]⟩
  · exact execDecFall1_next.2 ⟨hts.le, ⟨hc, hl, hp, hz, ho⟩, by rw [hself]⟩
  · exact execDecFallX_next.2 ⟨hts.le, ⟨hc, hl, hp, hz, ho⟩, by rw [hself]⟩

/-- Of the operations of sub-step 2 only the selected one has a step (R83). -/
theorem eq_edgeOp_of_next {i : Instr} {ts : Nat} {level : Bool} {s u : State}
    (hi : i ∈ [Instr.decRise ts level, .decFall0 ts level, .decFall1 ts level, .decFallX ts level, .decHold ts level])
    (h : exec i s = .next u) : i = edgeOp ts level s := by
  simp only [List.mem_cons, List.not_mem_nil, or_false] at hi
  rcases hi with rfl | rfl | rfl | rfl | rfl
  · obtain ⟨-, ⟨-, hl, hp⟩, -⟩ := execDecRise_next.1 h
    simp [edgeOp, heldLevel, hl, hp]
  · obtain ⟨-, ⟨-, hl, hp, hz⟩, -⟩ := execDecFall0_next.1 h
    simp [edgeOp, heldLevel, hl, hp, hz]
  · obtain ⟨-, ⟨-, hl, hp, hz, ho⟩, -⟩ := execDecFall1_next.1 h
    simp [edgeOp, heldLevel, hl, hp, hz, ho]
  · obtain ⟨-, ⟨-, hl, hp, hz, ho⟩, -⟩ := execDecFallX_next.1 h
    simp [edgeOp, heldLevel, hl, hp, hz, ho]
  · obtain ⟨-, ⟨-, hl⟩, -⟩ := execDecHold_next.1 h
    rw [edgeOp, if_pos hl]

/-- The state that sub-step 2 of a report sees: the timestamp taken, and the latch made if it is due (R130, R133). -/
def afterTimeout (ts : Nat) (s : State) : State :=
  if timeoutDue ts (acceptTs ts s.clearOut) then latchFrame ts (acceptTs ts s.clearOut) else acceptTs ts s.clearOut

theorem takeReport_eq (ts : Nat) (level : Bool) (s : State) : takeReport ts level s = takeLevel ts level (afterTimeout ts s) := rfl

theorem afterTimeout_mon (ts : Nat) (s : State) : (afterTimeout ts s).mon =
    { s.mon with lastTs := ts, pending := s.mon.pending && !timeoutDue ts s } := by
  have hdue : timeoutDue ts (acceptTs ts s.clearOut) = timeoutDue ts s := rfl
  unfold afterTimeout
  rw [hdue]
  split
  · next h => rw [latchFrame_mon, h]; simp [acceptTs]
  · next h => simp [acceptTs, h]

/-- Settles O36: the report's two sub-steps as the operations they select. -/
theorem reportRunsItsSubSteps : Obligations.ReportRunsItsSubSteps := by
  intro s ts level h0
  refine ⟨fun hc => ⟨processReport_next.2 ⟨h0, by simp [hc]⟩, (ignoreAndHold s ts level h0).1 hc⟩, fun hc => ?_⟩
  have hts : (afterTimeout ts s).mon.lastTs = ts := by rw [afterTimeout_mon]
  have hset : (afterTimeout ts s).mon.cfgSet = true := by rw [afterTimeout_mon]; exact hc
  refine ⟨acceptTs ts s.clearOut, afterTimeout ts s, takeReport ts level s, rfl, ?_, exec_edgeOp level hts hset, fun i hi => ?_,
    processReport_next.2 ⟨h0, by rw [if_pos hc]⟩⟩
  · rw [← timeoutDue_iff (ts := ts) (s := acceptTs ts s.clearOut)]
    by_cases hdue : timeoutDue ts (acceptTs ts s.clearOut) = true
    · refine .inl ⟨(timeoutDue_iff.1 hdue).1, (timeoutDue_iff.1 hdue).2.1, (timeoutDue_iff.1 hdue).2.2, ?_⟩
      exact execDecTimeout_next.2 ⟨le_rfl, ⟨hc, hdue⟩, by rw [afterTimeout, if_pos hdue]; rfl⟩
    · exact .inr ⟨hdue, by rw [afterTimeout, if_neg hdue]⟩
  · exact ⟨fun ⟨u, hu⟩ => eq_edgeOp_of_next hi hu, fun h => ⟨_, h ▸ exec_edgeOp level hts hset⟩⟩

/-- Settles O37: DEC.TIMEOUT is refused up to the threshold and is the latch above it. -/
theorem timeoutLatches : Obligations.TimeoutLatches := by
  intro s ts level h0 hfall hc hp hpending hchain h1 hN
  have hroom : s.mon.N ≤ s.chain.acc.length := by rw [hchain.1]; exact hN
  refine ⟨fun hlow => ?_, fun hlow => ?_⟩
  · have hnot : ¬ (s.mon.cfgSet = true ∧ timeoutDue ts s = true) := fun h => by have := (timeoutDue_iff.1 h.2).2.2; omega
    simp only [exec, execDecTimeout, inOrder_of _ h0, selectedWhen_not _ hnot]
  · have hmon : (latchFrame ts (acceptTs ts s)).mon = { s.mon with pending := false, lastTs := ts } := latchFrame_mon ts _
    have hout : (latchFrame ts (acceptTs ts s)).out = { s.out with
        viol := s.out.viol ||| (if s.chain.bitsSinceLoad = 24 * s.mon.N then 0 else 0b1000)
        frameValid := true, frame := loadedFrame s, frameComplete := frameIsComplete s } := by
      rw [latchFrame_out, latch_out_eq]; rfl
    have hlat : (latchFrame ts (acceptTs ts s)).chain.lat = loadedLat s := rfl
    obtain ⟨hviols, -, -, -, -, hflag⟩ := raised_latchFrame ts (acceptTs ts s)
    rw [frameDiags_eq] at hviols hflag
    have hagain : ¬ ((latchFrame ts (acceptTs ts s)).mon.cfgSet = true ∧ timeoutDue ts (latchFrame ts (acceptTs ts s)) = true) :=
      fun h => by have := (timeoutDue_iff.1 h.2).2.1; rw [hmon] at this; simp at this
    refine ⟨_, execDecTimeout_next.2 ⟨h0, ⟨hc, timeoutDue_iff.2 ⟨hp, hpending, hlow⟩⟩, rfl⟩, hmon, by rw [hout], rfl, by simp,
      by rw [hout]; exact loadedFrame_length hchain hN, fun i hi => ?_, fun k hk => by rw [hlat]; exact loadedLat_kept hchain hk,
      by rw [latchFrame_frames, hout]; rfl, by rw [hout]; rfl, by rw [hout], hviols, ?_, ?_, by simp, by simp, by simp, by simp, by simp⟩
    · rw [hout, hlat]
      exact ⟨loadedFrame_get hchain hN hi, loadedLat_active hi hroom⟩
    · rw [hflag]
      by_cases hb : s.chain.bitsSinceLoad = 24 * s.mon.N <;> simp [hb, Diag.code]
    · have horder : (latchFrame ts (acceptTs ts s)).mon.lastTs ≤ ts := by rw [hmon]
      simp only [exec, execDecTimeout, inOrder_of _ horder, selectedWhen_not _ hagain]

/-! ### A row of low reports -/

/-- The report at `ts` of a low wire latches at `s` (R133). -/
def LatchesAt (s : State) (ts : Nat) : Prop :=
  s.mon.cfgSet = true ∧ s.mon.phase = .low ∧ s.mon.pending = true ∧ 120 * s.mon.S < ts - s.mon.fallTs

/-- Between two states of a row of low reports the monitor keeps what the latch depends on, `dec_pending` apart. -/
structure StaysLow (s u : State) : Prop where
  phase : u.mon.phase = s.mon.phase
  cfgSet : u.mon.cfgSet = s.mon.cfgSet
  S : u.mon.S = s.mon.S
  fallTs : u.mon.fallTs = s.mon.fallTs

/-- One report of a low wire: it latches, or leaves the frames and what is pending as they are. -/
theorem low_report {s u : State} {ts : Nat} (hp : s.mon.phase ≠ .high) (h : exec (.report ts false) s = .next u) : StaysLow s u ∧
    ((LatchesAt s ts ∧ u.mon.pending = false ∧ ∃ e, u.log.frames = s.log.frames ++ [e]) ∨
      (¬ LatchesAt s ts ∧ u.mon.pending = s.mon.pending ∧ u.log.frames = s.log.frames)) := by
  obtain ⟨-, rfl⟩ := processReport_next.1 h
  by_cases hc : s.mon.cfgSet = true
  · rw [if_pos hc]
    by_cases hl : LatchesAt s ts
    · obtain ⟨-, hlow, hpending, hlong⟩ := hl
      have hlatch := takeReport_latches hlow hpending hlong
      have hmon : (takeReport ts false s).mon = { s.mon with lastTs := ts, pending := false } := by rw [hlatch, latchFrame_mon]; rfl
      exact ⟨⟨by rw [hmon], by rw [hmon], by rw [hmon], by rw [hmon]⟩,
        .inl ⟨⟨hc, hlow, hpending, hlong⟩, by rw [hmon], _, takeReport_latches_frames hlatch⟩⟩
    · rw [takeReport_hold ts false s (by simp [heldLevel, hp])
        (fun hpending hlow => by by_contra hlong; exact hl ⟨hc, hlow, hpending, by omega⟩)]
      exact ⟨⟨rfl, rfl, rfl, rfl⟩, .inr ⟨hl, rfl, rfl⟩⟩
  · rw [if_neg hc]
    exact ⟨⟨rfl, rfl, rfl, rfl⟩, .inr ⟨fun h => hc h.1, rfl, rfl⟩⟩

/-- A row of low reports: one of them latches, once, or none does. -/
theorem low_reports (tss : List Nat) {s u : State} (hp : s.mon.phase ≠ .high)
    (h : execAll (tss.map fun ts => .report ts false) s = .next u) : u.mon.phase = s.mon.phase ∧
    (((∃ ts ∈ tss, LatchesAt s ts) ∧ u.mon.pending = false ∧ ∃ e, u.log.frames = s.log.frames ++ [e]) ∨
      ((∀ ts ∈ tss, ¬ LatchesAt s ts) ∧ u.mon.pending = s.mon.pending ∧ u.log.frames = s.log.frames)) := by
  induction tss generalizing s with
  | nil =>
    obtain rfl := Host.Outcome.next.inj h
    exact ⟨rfl, .inr ⟨by simp, rfl, rfl⟩⟩
  | cons ts tss ih =>
    obtain ⟨r, hr, hrest⟩ := andThen_next.1 h
    obtain ⟨⟨hphase, hc, hS, hfall⟩, hfirst⟩ := low_report hp hr
    obtain ⟨hphase', hlater⟩ := ih (by rw [hphase]; exact hp) hrest
    refine ⟨hphase'.trans hphase, ?_⟩
    rcases hfirst with ⟨hl, hpr, e, hfr⟩ | ⟨hl, hpr, hfr⟩
    · rcases hlater with ⟨⟨ts', -, -, -, hpending, -⟩, -⟩ | ⟨-, hpu, hfu⟩
      · simp [hpr] at hpending
      · exact .inl ⟨⟨ts, List.mem_cons_self, hl⟩, hpu.trans hpr, e, hfu.trans hfr⟩
    · have hsame : ∀ ts', LatchesAt r ts' ↔ LatchesAt s ts' := fun ts' => by simp only [LatchesAt, hphase, hc, hS, hfall, hpr]
      rcases hlater with ⟨⟨ts', hmem, hl'⟩, hpu, e, hfu⟩ | ⟨hnone, hpu, hfu⟩
      · exact .inl ⟨⟨ts', List.mem_cons_of_mem _ hmem, (hsame ts').1 hl'⟩, hpu, e, by rw [hfu, hfr]⟩
      · refine .inr ⟨fun ts' hmem => ?_, hpu.trans hpr, hfu.trans hfr⟩
        rcases List.mem_cons.1 hmem with rfl | hmem
        · exact hl
        · exact fun h => hnone ts' hmem ((hsame ts').2 h)

/-- Settles O38: by induction over the reports; after a latch nothing is pending, so that no other latches. -/
theorem oneGapOneLoad : Obligations.OneGapOneLoad := by
  intro s u tss hp h
  obtain ⟨hphase, hcases⟩ := low_reports tss hp h
  refine ⟨by rw [hphase]; exact hp, ?_⟩
  rcases hcases with ⟨⟨ts, -, hl⟩, hpu, e, hfu⟩ | ⟨hnone, hpu, hfu⟩
  · obtain ⟨-, -, hpending, -⟩ := hl
    refine ⟨by simp [hfu], fun hno => by simp [hpending] at hno, fun _ => hpu, fun _ _ _ _ => ⟨by simp [hfu], hpu⟩⟩
  · refine ⟨by rw [hfu]; exact Nat.le_succ _, fun hno => ⟨hfu, hpu.trans hno⟩, fun hne => absurd hfu hne, ?_⟩
    rintro hc hlow hpending ⟨ts, hmem, hlong⟩
    exact absurd ⟨hc, hlow, hpending, hlong⟩ (hnone ts hmem)

/-! ### The diagnostics of one report -/

theorem riseDiags_of_not_pending {ts : Nat} {s : State} (h : s.mon.pending = false) : riseDiags ts s = [] := by
  have hbad : ¬ bitPeriodBad ts s = true := fun hb => by simp [(bitPeriodBad_iff.1 hb).2.1] at h
  rw [riseDiags, if_neg hbad, if_neg (mt bitPeriodBad_of_loadMissed hbad)]; rfl

/-- The diagnostics of sub-step 2 (R134 to R142): those of the rising edge, or the one of a pulse in neither band. -/
theorem raised_takeLevel (ts : Nat) (level : Bool) (s : State) : Raised s (takeLevel ts level s) [] ∨
    (s.mon.phase ≠ .high ∧ Raised s (takeLevel ts level s) (riseDiags ts s)) ∨
    (s.mon.phase = .high ∧ Raised s (takeLevel ts level s) [{ ts := some ts, diag := .unclassifiable (highFor ts s) }]) := by
  rcases takeLevel_cases ts level s with ⟨-, -, ht⟩ | ⟨-, hp, -, ht⟩ | ⟨-, hp, ⟨-, -, ht⟩ | ⟨-, -, -, ht⟩ | ⟨-, -, -, ht⟩⟩ <;> rw [ht]
  · exact .inl (.refl s)
  · exact .inr (.inl ⟨hp, raised_takeRise ts s⟩)
  · exact .inl ((raised_takeBit false s).trans (raised_endPulse ts _))
  · exact .inl ((raised_takeBit true s).trans (raised_endPulse ts _))
  · exact .inr (.inr ⟨hp, (raised_takeBadPulse ts s).trans (raised_endPulse ts _)⟩)

theorem raised_acceptTs (ts : Nat) (s : State) : Raised s (acceptTs ts s.clearOut) [] := by constructor <;> simp

/-- R148: after a latch, which leaves nothing pending, sub-step 2 raises nothing; without one, it raises what it may. -/
theorem raised_takeReport (ts : Nat) (level : Bool) (s : State) : ∃ l, Raised s (takeReport ts level s) l ∧
    l.map (fun e => e.diag.code) ∈ [[], [4], [1], [1, 3], [2]] := by
  rw [takeReport_eq]
  by_cases hdue : timeoutDue ts (acceptTs ts s.clearOut) = true
  · have hmon := latchFrame_mon ts (acceptTs ts s.clearOut)
    have hlow : (latchFrame ts (acceptTs ts s.clearOut)).mon.phase = .low := by rw [hmon]; exact (timeoutDue_iff.1 hdue).1
    have hlatch := (raised_acceptTs ts s).trans (raised_latchFrame ts (acceptTs ts s.clearOut))
    rw [afterTimeout, if_pos hdue]
    have hedge : Raised (latchFrame ts (acceptTs ts s.clearOut)) (takeLevel ts level (latchFrame ts (acceptTs ts s.clearOut))) [] := by
      rcases raised_takeLevel ts level (latchFrame ts (acceptTs ts s.clearOut)) with h | ⟨-, h⟩ | ⟨hp, -⟩
      · exact h
      · rwa [riseDiags_of_not_pending (by rw [hmon])] at h
      · simp [hlow] at hp
    refine ⟨_, hlatch.trans hedge, ?_⟩
    rw [frameDiags_eq]
    split <;> simp [Diag.code]
  · rw [afterTimeout, if_neg hdue]
    rcases raised_takeLevel ts level (acceptTs ts s.clearOut) with h | ⟨-, h⟩ | ⟨-, h⟩
    · exact ⟨_, (raised_acceptTs ts s).trans h, by simp⟩
    · refine ⟨_, (raised_acceptTs ts s).trans h, ?_⟩
      unfold riseDiags
      by_cases hm : loadMissed ts (acceptTs ts s.clearOut) = true
      · simp [hm, bitPeriodBad_of_loadMissed hm, Diag.code]
      · by_cases hb : bitPeriodBad ts (acceptTs ts s.clearOut) = true <;> simp [hm, hb, Diag.code]
    · exact ⟨_, (raised_acceptTs ts s).trans h, by simp [Diag.code]⟩

/-- Settles O43: an ignored report raises nothing, a taken one what R148 lists. -/
theorem diagnosticsOfOneReport : Obligations.DiagnosticsOfOneReport := by
  intro s t ts level h
  obtain ⟨-, rfl⟩ := processReport_next.1 h
  split
  · obtain ⟨l, hl, hcodes⟩ := raised_takeReport ts level s
    exact ⟨l, hl.viols, hcodes⟩
  · exact ⟨[], (List.append_nil _).symm, by simp⟩

/-- Settles O47: no latch is due, and the two checks of the rising edge compare `d` with `S / 10` and `2 * S`. -/
theorem lateRiseIsReported : Obligations.LateRiseIsReported := by
  intro s t d hc hp hpending hlow h
  generalize hts : s.mon.riseTs + 3 * s.mon.S + d = ts at *
  obtain ⟨-, rfl⟩ := processReport_next.1 h
  have hdue : ¬ timeoutDue ts (acceptTs ts s.clearOut) = true := fun hd => by
    have := (timeoutDue_iff.1 hd).2.2
    simp only [acceptTs_mon_S, acceptTs_mon_fallTs, clearOut_mon] at this
    omega
  have hrise : takeReport ts true s = takeRise ts (acceptTs ts s.clearOut) := by
    have hheld : heldLevel (acceptTs ts s.clearOut) = false := by simp [heldLevel, hp]
    rw [takeReport_eq, afterTimeout, if_neg hdue, takeLevel, hheld]
    rfl
  have hperiod : ts - s.mon.riseTs = 3 * s.mon.S + d := by omega
  have hbad : bitPeriodBad ts (acceptTs ts s.clearOut) = decide (s.mon.S < 10 * d) := by
    rw [Bool.eq_iff_iff, bitPeriodBad_iff, outside_iff, decide_eq_true_iff]
    simp only [acceptTs_mon_phase, acceptTs_mon_pending, acceptTs_mon_riseTs, acceptTs_mon_S, clearOut_mon, hp, hpending, hperiod, true_and]
    omega
  have hmissed : loadMissed ts (acceptTs ts s.clearOut) = decide (2 * s.mon.S < d) := by
    rw [Bool.eq_iff_iff, loadMissed_iff, decide_eq_true_iff]
    simp only [acceptTs_mon_phase, acceptTs_mon_pending, acceptTs_mon_riseTs, acceptTs_mon_S, clearOut_mon, hp, hpending, hperiod, true_and]
    omega
  rw [if_pos hc, hrise]
  refine ⟨by simp, by rw [takeRise_mon]; exact hpending, by simp, ?_⟩
  rw [(raised_takeRise ts _).viols, riseDiags, hbad, hmissed, acceptTs_mon_riseTs, clearOut_mon, hperiod]
  congr 1
  by_cases h1 : 10 * d ≤ s.mon.S
  · simp [h1, show ¬ s.mon.S < 10 * d by omega, show ¬ 2 * s.mon.S < d by omega]
  · by_cases h2 : d ≤ 2 * s.mon.S
    · simp [h1, h2, show s.mon.S < 10 * d by omega, show ¬ 2 * s.mon.S < d by omega]
    · simp [h1, h2, show s.mon.S < 10 * d by omega, show 2 * s.mon.S < d by omega]

/-- Settles O48: MON.CONFIG by `quiescent`. -/
theorem monitorConfiguration : Obligations.MonitorConfiguration := by
  intro s d l
  refine ⟨fun hpending hbits hp => ?_, fun hnot => ?_⟩
  · simp only [exec, execMonConfig, if_pos (quiescent_iff.2 ⟨hpending, hbits, hp⟩)]
    rfl
  · simp only [exec, execMonConfig, if_neg (mt quiescent_iff.1 hnot)]

end Sys2Proof.Machine
end

section
/-! PROOFS. The facade's operations and the external producer's (43_register_facade.md R150 to R155; 30_encoding.md R77). -/

namespace Sys2Proof.Machine

/-- Settles O49: both rows are `writeCfg`. -/
theorem configurationWrite : Obligations.ConfigurationWrite := by
  intro s v i hi
  simp only [List.mem_cons, List.not_mem_nil, or_false] at hi
  rw [← writeCfg_eq]
  rcases hi with rfl | rfl <;> rfl

/-- Both rows of a pixel write deliver it to its register (R76, R152). -/
theorem exec_pixelWrite {s : State} (hw : s.env.par.wf = true) {k : Nat} {v : RegValue} {i : Instr}
    (hi : i ∈ [Instr.regPixel k v, .regfWrPix k v]) : exec i s = deliverPixel k v s := by
  simp only [List.mem_cons, List.not_mem_nil, or_false] at hi
  rcases hi with rfl | rfl
  · exact execRegPixel_eq k v hw
  · rfl

/-- Settles O50: the write is delivered, and takes its step or waits. -/
theorem pixelWrite : Obligations.PixelWrite := by
  intro s k v hw hk hp i hi
  rw [exec_pixelWrite hw hi, deliverPixel_next.2 ⟨hk, hp, rfl⟩]
  rcases deliverWrite_cases k v { s with env := { s.env with producer := some .facade } } with ⟨hv, hheld, h⟩ | ⟨hfull, h⟩ <;> rw [h]
  · exact ⟨fun _ => by rw [writePix, pixelItem_eq], fun hno => hno.elim (fun hfull => absurd (hv.symm.trans hfull) Bool.false_ne_true) (absurd hheld)⟩
  · exact ⟨fun hfree => absurd hfree hfull, fun _ => rfl⟩

/-- Settles O52: REGF.XFER where the facade's item is transferred, REGF.WR_NONE where no register is. -/
theorem transferAndUnmappedWrite : Obligations.TransferAndUnmappedWrite := by
  intro s
  refine ⟨fun hr hv => ?_, fun offset v h0 hno => selectedWhen_of s (unmapped_of_ne h0 hno)⟩
  exact selectedWhen_of (freeHold s) ⟨(transfers_of_held hv).trans hr, hv⟩

/-- Settles O53: the item is queued last, so that in an empty queue it is the first. -/
theorem itemPresented : Obligations.ItemPresented := by
  intro s it t
  refine ⟨fun hp => ?_, rfl⟩
  have hexec : exec (.itemStream true it t) s = .next { s with env := { s.env with
      producer := some .stream, stream := s.env.stream ++ [{ notBefore := t, item := it }] } } := by
    simp only [exec, execItemStream, if_pos, if_neg hp]
  exact ⟨_, hexec, rfl, rfl, fun hempty hfree => by simp [State.presented, hempty, hfree]⟩

/-- Settles O54: each operation of one producer asks first that the other has not begun. -/
theorem mixedProducersRefused : Obligations.MixedProducersRefused := by
  intro s it t k v hw hk
  refine ⟨fun hp => by simp only [exec, execItemStream, if_pos hp, if_pos], fun hp => ?_⟩
  have hrefused : deliverPixel k v s = .refused .mixedProducers := by rw [deliverPixel, if_pos hk, if_pos hp]
  exact ⟨(exec_pixelWrite hw (by simp)).trans hrefused, (exec_pixelWrite hw (by simp)).trans hrefused⟩

end Sys2Proof.Machine
end

section
/-! PROOFS. SYS.RESET, and the latch of a monitor that it does not reach (10_state.md R44; 70_reset_and_hazards.md R185, R186). -/

namespace Sys2Proof.Machine

/-- An attached monitor with a load pending, on the low wire of an idle encoder that no configuration was written to (R186). -/
structure WatchesIdleWire (s : State) : Prop where
  idle : s.enc.phase = .idle
  unconfigured : s.cfg.isSet = false
  noInputs : s.env.pending = []
  attached : s.env.par.attached = true
  monitorSet : s.mon.cfgSet = true
  inOrder : s.mon.lastTs ≤ s.reportTime
  low : s.mon.phase = .low
  pending : s.mon.pending = true

/-- The time by the monitor's count at which a pending load latches (R133). -/
def State.latchTime (s : State) : Nat := s.mon.fallTs + 120 * s.mon.S + 1

theorem WatchesIdleWire.step_eq {s : State} (h : WatchesIdleWire s) : step s = .next (endTick (takeReport s.reportTime false s)) :=
  step_idle h.idle h.unconfigured h.noInputs h.attached h.monitorSet h.inOrder

/-- Before the latch a step writes the time of its report alone. -/
theorem WatchesIdleWire.step_before {s : State} (h : WatchesIdleWire s) (hlt : s.reportTime < s.latchTime) :
    ∃ u, step s = .next u ∧ WatchesIdleWire u ∧ u.reportTime = s.reportTime + 1 ∧ u.latchTime = s.latchTime ∧
      u.mon.N = s.mon.N ∧ u.chain = s.chain ∧ u.log = s.log := by
  have hreport := takeReport_hold s.reportTime false s (by simp [heldLevel, h.low])
    (fun _ _ => by unfold State.latchTime at hlt; omega)
  refine ⟨_, h.step_eq, ?_, ?_, ?_, ?_, ?_, ?_⟩ <;> rw [hreport]
  · refine ⟨by simpa using h.idle, by simpa using h.unconfigured, by rw [endTick_others]; exact h.noInputs, by simpa using h.attached,
      by simpa using h.monitorSet, ?_, by simpa using h.low, by simpa using h.pending⟩
    rw [endTick_reportTime, endTick_mon]
    exact Nat.le_succ _
  · rw [endTick_reportTime]; rfl
  · simp [State.latchTime]
  · simp
  · simp
  · simp

/-- Before the latch the time goes on, and the monitor watches on. -/
theorem WatchesIdleWire.run_before {n : Nat} {s : State} (h : WatchesIdleWire s) (hn : s.reportTime + n = s.latchTime) :
    ∃ u, core.run n s = .next u ∧ WatchesIdleWire u ∧ u.reportTime = s.latchTime ∧ u.latchTime = s.latchTime ∧
      u.mon.N = s.mon.N ∧ u.chain = s.chain ∧ u.log = s.log := by
  induction n generalizing s with
  | zero => exact ⟨s, core_run_zero s, h, hn, rfl, rfl, rfl, rfl⟩
  | succ n ih =>
    obtain ⟨r, hstep, hr, htime, hlatch, hN, hchain, hlog⟩ := h.step_before (by omega)
    obtain ⟨u, hrun, hu, hutime, hulatch, huN, huchain, hulog⟩ := ih hr (by omega)
    exact ⟨u, (core_run_succ hstep).trans hrun, hu, hutime.trans hlatch, hulatch.trans hlatch, huN.trans hN, huchain.trans hchain,
      hulog.trans hlog⟩

/-- At its time the pending load is latched, with the diagnostic of an incomplete frame (R124, R133). -/
theorem WatchesIdleWire.step_latches {s : State} (h : WatchesIdleWire s) (hnow : s.reportTime = s.latchTime) :
    ∃ u, step s = .next u ∧ u.wire = false ∧ u.mon.pending = false ∧ u.out.frameValid = true ∧
      u.out.frameComplete = decide (s.chain.bitsSinceLoad = 24 * s.mon.N) ∧
      u.log.frames = s.log.frames ++ [{ ts := some s.latchTime, frame := u.out.frame, complete := u.out.frameComplete }] ∧
      u.log.viols = s.log.viols ++ (if s.chain.bitsSinceLoad = 24 * s.mon.N then [] else
        [{ ts := some s.latchTime, diag := .frameLength s.chain.bitsSinceLoad (24 * s.mon.N) }]) := by
  have hlatch := takeReport_latches (ts := s.reportTime) h.low h.pending (by unfold State.latchTime at hnow; omega)
  have hframes := takeReport_latches_frames hlatch
  obtain ⟨-, henc, -⟩ := takeReport_others s.reportTime false s
  refine ⟨_, h.step_eq, ?_, ?_, ?_, ?_, ?_, ?_⟩
  · exact wire_of_ne_high (by rw [endTick_enc, henc, h.idle]; decide)
  · rw [endTick_mon, hlatch, latchFrame_mon]
  · rw [endTick_out, hlatch, latchFrame_out]
  · rw [endTick_out, hlatch, latchFrame_out, latch_out_eq]
    exact frameIsComplete_eq s
  · rw [endTick_log, endTick_out, hframes, hlatch, latchFrame_out, latch_out_eq, hnow]
    rfl
  · rw [endTick_log, hlatch, (raised_latchFrame _ _).viols, frameDiags_eq, hnow]
    rfl

/-- A pulse that is cut ends at the next report of the low wire, whatever it is taken for, and a load that is pending stays so (R186). -/
theorem takeReport_cut {ts : Nat} {s : State} (hp : s.mon.phase = .high) : (takeReport ts false s).mon.phase = .low ∧
    (takeReport ts false s).mon.fallTs = ts ∧ (s.mon.pending = true → (takeReport ts false s).mon.pending = true) := by
  have hmon := afterTimeout_mon ts s
  have hdue : timeoutDue ts s = false := by simp [timeoutDue, hp]
  have hhigh : (afterTimeout ts s).mon.phase = .high := by rw [hmon]; exact hp
  have hpending : (afterTimeout ts s).mon.pending = s.mon.pending := by rw [hmon, hdue]; simp
  rw [takeReport_eq]
  rcases takeLevel_cases ts false (afterTimeout ts s) with ⟨hl, -⟩ | ⟨hl, -⟩ | ⟨-, -, ⟨-, -, ht⟩ | ⟨-, -, -, ht⟩ | ⟨-, -, -, ht⟩⟩
  · simp [heldLevel, hhigh] at hl
  · simp at hl
  all_goals rw [ht]
  · exact ⟨rfl, rfl, fun _ => rfl⟩
  · exact ⟨rfl, rfl, fun _ => rfl⟩
  · refine ⟨rfl, rfl, fun h => ?_⟩
    rcases takeBadPulse_cases ts (afterTimeout ts s) with hb | ⟨b, hb⟩ <;> rw [hb]
    · exact hpending.trans h
    · rfl

/-- Settles O60: R44's table by the reset's definition; then the monitor's run to its latch, tick by tick. -/
theorem resetLeavesTheTable : Obligations.ResetLeavesTheTable := by
  refine ⟨fun s hr => ⟨resetAll s, ?_, ?_⟩, fun s hr => ⟨resetButMonitor s, ?_, ?_⟩, fun s hidle hset hin hatt hmon horder => ⟨?_, ?_⟩⟩
  · simp only [exec, execSysReset, if_pos hr]
  · have hregs : ∀ k < 16, (resetAll s).chain.acc[k]? = some 0 ∧
        (resetAll s).chain.lat[k]? = some { green := 0, red := 0, blue := 0 } := fun k hk =>
      ⟨List.getElem?_replicate_of_lt hk, List.getElem?_replicate_of_lt hk⟩
    refine ⟨rfl, rfl, rfl, rfl, rfl, rfl, rfl, rfl, rfl, rfl, rfl, rfl, rfl, rfl, rfl, rfl, hregs, ?_⟩
    exact ⟨rfl, rfl, rfl, rfl, rfl, rfl, rfl, rfl, rfl, rfl, rfl, rfl, rfl, rfl, rfl, rfl, rfl, rfl, rfl, rfl, rfl⟩
  · simp only [exec, execSysReset, hr, Bool.false_eq_true, if_false]
  · exact ⟨rfl, rfl, rfl, rfl, rfl, rfl, rfl, rfl, rfl, rfl, rfl⟩
  · intro hp
    refine ⟨_, step_idle hidle hset hin hatt hmon horder, ?_⟩
    rw [endTick_mon]
    exact takeReport_cut hp
  · intro hp hpending hbefore
    have hwatch : WatchesIdleWire s := ⟨hidle, hset, hin, hatt, hmon, horder, hp, hpending⟩
    have hreach : s.reportTime + (s.mon.fallTs + 120 * s.mon.S + 1 - (s.mon.tsBase + s.tick)) = s.latchTime := by
      unfold State.reportTime State.latchTime; omega
    obtain ⟨r, hrun, hr, htime, hlatch, hN, hchain, hlog⟩ := hwatch.run_before hreach
    obtain ⟨u, hstep, hu⟩ := hr.step_latches (htime.trans hlatch.symm)
    rw [hlatch, hN, hchain, hlog] at hu
    exact ⟨u, (core_run_add hrun).trans (core_run_one hstep), hu⟩

end Sys2Proof.Machine
end
